-- ==== Sys2Proof/Word.lean ====
section
/-! DEFINITION. The value types of the block (00_scope.md R8, R11): every value is an unsigned integer of a stated width. -/

namespace Sys2Proof

/-- Eight bits, the unit of the transfer primitive (R87). -/
abbrev Byte := BitVec 8

/-- A Word: "a 16-bit unsigned value, the unit of storage and transfer" (R16). -/
abbrev Word := BitVec 16

/-- An Address: ten bits, 0 to 0x3FF (R16, R50). -/
abbrev Addr := BitVec 10

end Sys2Proof
end

