-- ==== Sys2Proof/Config.lean ====
section
/-! DEFINITION. What an implementation fixes (the parameters of 00_scope.md R8 with their defaults) and the free values the spec
leaves open (R14, R40). -/

namespace Sys2Proof

/-- `CFG.BIT_ORDER` (R33): the order in which the transfer primitive shifts a byte. -/
inductive BitOrder where
  | msbFirst
  | lsbFirst
  deriving DecidableEq, Repr

/-- `CFG.SPI_MODE` (R33): "either of two specific modes", which the source does not name; no rule reads it. -/
inductive SpiMode where
  | first
  | second
  deriving DecidableEq, Repr

/-- The configuration record `CFG` of the block (R8, R33). The three calibration fields are natural numbers, so that an illegal
value can stand in them and be refused (R33: "an illegal value is refused by the model, not corrected"). DESIGN CHOICE (log 7), safe. -/
structure Cfg where
  bitOrder : BitOrder
  spiMode : SpiMode
  csActiveLevel : Bool
  writeShift : Nat
  rxAlignOffset : Nat
  rxBytes : Nat
  recvFill : Byte
  tCssNs : Nat
  tCshNs : Nat
  tWcMs : Nat
  tEcMs : Nat
  deriving DecidableEq, Repr

/-- The defaults of R8. `spiMode` has none there: DESIGN CHOICE (log 7), safe, since no rule reads it.
The timing values are the source's approximations and the chip-select level the spec's general knowledge (log 19). -/
def Cfg.standard : Cfg where
  bitOrder := .msbFirst
  spiMode := .first
  csActiveLevel := true
  writeShift := 3
  rxAlignOffset := 1
  rxBytes := 3
  recvFill := 0x00
  tCssNs := 250
  tCshNs := 250
  tWcMs := 7
  tEcMs := 4

/-- The device's parameters `DEV` (R8). -/
structure DevCfg where
  erasedWord : Word
  rxSkew : Nat
  tCssNs : Nat
  tCshNs : Nat
  tWcMs : Nat
  tEcMs : Nat
  deriving DecidableEq, Repr

/-- The defaults of R8. -/
def DevCfg.standard : DevCfg where
  erasedWord := 0xFFFF
  rxSkew := 1
  tCssNs := 250
  tCshNs := 250
  tWcMs := 7
  tEcMs := 4

/-- `OP_WRITE`, the one opcode the source prints (R8, R88 b). -/
def Config.opWrite : BitVec 3 := 0b101

/-- What R88 fixes about the other opcode patterns: READ and ERASE and the class of the two control patterns are the three values
100, 110, 111 in some order (so each has the fixed high bit), and the two control patterns share their top three bits and differ in
their low two. -/
def Opcodes.legalPatterns (read erase : BitVec 3) (writeEnable writeDisable : BitVec 5) : Bool :=
  let allowed (p : BitVec 3) : Bool := p == 0b100 || p == 0b110 || p == 0b111
  let classOf (c : BitVec 5) : BitVec 3 := c.extractLsb' 2 3
  allowed read && allowed erase && allowed (classOf writeEnable)
    && read != erase && classOf writeEnable != read && classOf writeEnable != erase
    && classOf writeDisable == classOf writeEnable && writeDisable != writeEnable

/-- The opcode parameters `OP_READ`, `OP_ERASE`, `CTL_WRITE_ENABLE`, `CTL_WRITE_DISABLE` (R8), shared by block and device, together
with the constraints of R88. -/
structure Opcodes where
  read : BitVec 3
  erase : BitVec 3
  writeEnable : BitVec 5
  writeDisable : BitVec 5
  legal : Opcodes.legalPatterns read erase writeEnable writeDisable = true
  deriving DecidableEq, Repr

/-- The defaults of R8 and R89, which opcode_table.json carries. PRESUMED by the spec itself (G1, log 8), unsafe for claims about exact
frame bytes other than those of WRITE. -/
def Opcodes.standard : Opcodes where
  read := 0b110
  erase := 0b111
  writeEnable := 0b10011
  writeDisable := 0b10000
  legal := by decide

/-- `SEQ_READ_SUPPORTED` (R8, R31): the capability flag of the rejected sequential read. -/
def Config.seqReadSupported : Bool := false

/-- `CLOCK_HZ` (R8), "1 MHz used in practice": timing only, read by no rule (R279). -/
def Config.clockHz : Nat := 1000000

/-- `draw_1()` (R14): free bit number `n`. Nothing constrains it (log 2). -/
opaque Config.drawBit (n : Nat) : Bool

/-- A free natural number, number `n`: a time or a count that no rule gives, after a primitive that never returned (R232). Nothing
constrains it (log 22). -/
opaque Config.drawNat (n : Nat) : Nat

/-- The content of byte cell `k` of the device's array at power-up (R40, U17): any value, kept thereafter. Nothing constrains it
(log 3). -/
opaque Config.powerUpByte (k : Nat) : Byte

end Sys2Proof
end

