-- ==== Sys2Proof/Syntax.lean ====
section
/-! DEFINITION. The commands of the block (00_scope.md R2) and what the host and the world around the block may ask for
(70_reset_and_hazards.md section 3, 44_bulk_macros.md). -/

namespace Sys2Proof

/-- One constructor per row of opcode_table.json: the five commands that have a wire frame (R96). An operand is what the host presents,
of any width; it is masked when the command latches it (R22, R23, R231). -/
inductive Instr where
  /-- READ (R171). `owned` is the framing operand OWNED (R24): no bit of the frame carries it. -/
  | read (addr : Nat) (owned : Bool)
  /-- ERASE (R173). -/
  | erase (addr : Nat)
  /-- WRITE (R172). -/
  | write (addr : Nat) (data : Nat)
  /-- WRITE_ENABLE (R174). -/
  | writeEnable
  /-- WRITE_DISABLE (R175). -/
  | writeDisable
  deriving DecidableEq, Repr

/-- The instruction as its frame shows it: a READ with the default `OWNED = 0` (R171), since the frame carries no OWNED bit (R81). -/
def Instr.selfFramed : Instr → Instr
  | .read addr _ => .read addr false
  | .erase addr => .erase addr
  | .write addr data => .write addr data
  | .writeEnable => .writeEnable
  | .writeDisable => .writeDisable

/-- The seven commands the host may start (R2, R21): the two of the framer, which have no frame and no row in the table (R96, log 14),
and the five instructions. -/
inductive Command where
  /-- BEGIN_TXN (R110). -/
  | beginTxn
  /-- END_TXN (R111). -/
  | endTxn
  | instr (i : Instr)
  deriving DecidableEq, Repr

/-- A call of one of the collaborator primitives (R13, R241), made by the host itself (R271, VH1 to VH11). -/
inductive BusCall where
  | cs (asserted : Bool)
  | waitNs (t : Nat)
  | waitMs (t : Nat)
  | xfer (tx : List Byte)
  | recv (n : Nat)
  deriving DecidableEq, Repr

/-- The Bulk Operations (R6, R200). -/
inductive Macro where
  /-- `write_buffer(start, words)` (R201). -/
  | writeBuffer (start : Nat) (words : List Word)
  /-- `read_range(start, count)` (R202). -/
  | readRange (start : Nat) (count : Nat)
  /-- `copy_out(buffer)` (R203). -/
  | copyOut
  /-- `copy_in(buffer)` (R204). -/
  | copyIn (buffer : Vector Word 1024)
  /-- `write_string(start, text)` (R205). -/
  | writeString (start : Nat) (text : List Byte)
  /-- `read_string(start, max_length)` (R206). -/
  | readString (start : Nat) (maxLength : Nat)
  deriving DecidableEq, Repr

/-- What may be asked of the machine from outside, one at a time (R15, R72). -/
inductive Request where
  /-- Start a command (R26). -/
  | command (c : Command)
  /-- Set `CFG` (R33, R268). -/
  | configure (cfg : Cfg)
  /-- Call a primitive directly (R271). -/
  | bus (c : BusCall)
  /-- Run a bulk operation (R200). -/
  | bulk (m : Macro)
  /-- Run a bulk operation during which the device loses power once that many of its commands have returned (R209). -/
  | bulkCutByPowerLoss (m : Macro) (commands : Nat)
  /-- The rejected sequential read (R207). -/
  | seqRead (start : Nat) (count : Nat)
  /-- Reset of the block, with the configuration the host supplies (R260). -/
  | blockReset (cfg : Cfg)
  /-- Power loss and power-up of the device (R244, R261). -/
  | powerCycle
  deriving DecidableEq, Repr

end Sys2Proof
end

