-- ==== Sys2Proof/WellFormed.lean ====
section
/-! DEFINITION. Which instructions a frame can carry exactly as they stand: every operand inside its field (30_encoding.md R81, R82).
The block accepts the others too and masks them (R231). -/

namespace Sys2Proof

/-- Every operand fits its field: the address ten bits, the data sixteen. -/
def WellFormed : Instr → Bool
  | .read addr _ => decide (addr < 2 ^ 10)
  | .erase addr => decide (addr < 2 ^ 10)
  | .write addr data => decide (addr < 2 ^ 10) && decide (data < 2 ^ 16)
  | .writeEnable => true
  | .writeDisable => true

end Sys2Proof
end

