-- ==== Sys2Proof/Decode.lean ====
section
/-! DEFINITION. Frames: their bits and bytes, the decoder of a frame (the device reads a transaction with it, 20_memory.md R65 to R69) and
the encoder ENCODE of the Command Codec (41_codec.md R130 to R135), both from the table of 30_encoding.md R89. -/

namespace Sys2Proof

/-! ### Bits and bytes (R10, R11, R87) -/

/-- The `n` low bits of `v`, most significant first: the order on the wire (R10, R60). -/
def bitsOf : Nat → Nat → List Bool
  | 0, _ => []
  | n + 1, v => v.testBit n :: bitsOf n v

/-- The number a sequence of bits stands for, the first bit the most significant (R10). -/
def natOfBits (bits : List Bool) : Nat :=
  bits.foldl (fun acc b => 2 * acc + b.toNat) 0

/-- `bytes_N(v)` (R11): the low `N` bytes of `v`, most significant byte first. -/
def bytesOf : Nat → Nat → List Byte
  | 0, _ => []
  | n + 1, v => BitVec.ofNat 8 (v >>> (8 * n)) :: bytesOf n v

/-- `int(b)` (R11): the number a sequence of bytes stands for, the first byte the most significant. -/
def natOfBytes (bytes : List Byte) : Nat :=
  bytes.foldl (fun acc b => 256 * acc + b.toNat) 0

/-- The bits of a sequence of bytes in wire order: first byte first, each byte most significant bit first (R60, R87). -/
def bitsOfBytes (bytes : List Byte) : List Bool :=
  bytes.flatMap fun b => bitsOf 8 b.toNat

/-- Eight bits to a byte, in wire order; bits short of a byte at the end are left out (every transfer moves whole bytes, R241). -/
def bytesOfBits : List Bool → List Byte
  | b7 :: b6 :: b5 :: b4 :: b3 :: b2 :: b1 :: b0 :: rest =>
    BitVec.ofNat 8 (natOfBits [b7, b6, b5, b4, b3, b2, b1, b0]) :: bytesOfBits rest
  | _ => []

/-! ### Operand masking (R22, R23, R85) -/

/-- `trunc_10(A)`: "low 10 bits only, no error" (R22, R51). -/
def maskAddr (a : Nat) : Addr := BitVec.ofNat 10 a

/-- `trunc_16(D)` (R23). -/
def maskData (d : Nat) : Word := BitVec.ofNat 16 d

/-! ### The encoder (R81 to R83, R93, R130) -/

/-- Format F16A (R81): `(op << 13) | (addr << 3)`. -/
def frameF16A (op : BitVec 3) (addr : Addr) : BitVec 16 :=
  (op.zeroExtend 16 <<< 13) ||| (addr.zeroExtend 16 <<< 3)

/-- Format F16C (R83): `ctl << 11`. -/
def frameF16C (ctl : BitVec 5) : BitVec 16 :=
  ctl.zeroExtend 16 <<< 11

/-- Format F32W (R82, R93): `((0b101 << 26) | (addr << 16) | data) << shift`; R82 is the case `shift = 3`. -/
def frameF32W (shift : Nat) (addr : Addr) (data : Word) : BitVec 32 :=
  ((Config.opWrite.zeroExtend 32 <<< 26) ||| (addr.zeroExtend 32 <<< 16) ||| data.zeroExtend 32) <<< shift

/-- ENCODE (R130) with opcode parameters `ops` and `CFG.WRITE_SHIFT = shift`: the bytes to send, byte 0 first (R87). Operands are masked,
never rejected (R136). -/
def encode (ops : Opcodes) (shift : Nat) : Instr → List Byte
  | .read addr _ => bytesOf 2 (frameF16A ops.read (maskAddr addr)).toNat
  | .erase addr => bytesOf 2 (frameF16A ops.erase (maskAddr addr)).toNat
  | .write addr data => bytesOf 4 (frameF32W shift (maskAddr addr) (maskData data)).toNat
  | .writeEnable => bytesOf 2 (frameF16C ops.writeEnable).toNat
  | .writeDisable => bytesOf 2 (frameF16C ops.writeDisable).toNat

/-! ### The decoder (R65 to R69, R89, R91, R92) -/

/-- Why a sequence of bits is no frame (R71, R91). -/
inductive DecodeError where
  /-- Neither 16 nor 32 bits (R80). -/
  | badLength
  /-- No opcode of the table in the top bits (R91, R92). -/
  | unknownOpcode
  /-- An opcode of the table over padding bits that are not all zero (R91). -/
  | nonzeroPadding
  deriving DecidableEq, Repr

/-- A 16-bit frame, `T = f` in R65, R67, R68 and R69. A READ comes back with OWNED at its default, 0 (R171). -/
def decode16 (ops : Opcodes) (f : BitVec 16) : Except DecodeError Instr :=
  if f.extractLsb' 13 3 = ops.read then
    if f.extractLsb' 0 3 = 0 then .ok (.read (f.extractLsb' 3 10).toNat false) else .error .nonzeroPadding
  else if f.extractLsb' 13 3 = ops.erase then
    if f.extractLsb' 0 3 = 0 then .ok (.erase (f.extractLsb' 3 10).toNat) else .error .nonzeroPadding
  else if f.extractLsb' 11 5 = ops.writeEnable then
    if f.extractLsb' 0 11 = 0 then .ok .writeEnable else .error .nonzeroPadding
  else if f.extractLsb' 11 5 = ops.writeDisable then
    if f.extractLsb' 0 11 = 0 then .ok .writeDisable else .error .nonzeroPadding
  else .error .unknownOpcode

/-- A 32-bit frame, `T = f` in R66. -/
def decode32 (f : BitVec 32) : Except DecodeError Instr :=
  if f.extractLsb' 29 3 = Config.opWrite then
    if f.extractLsb' 0 3 = 0 then .ok (.write (f.extractLsb' 19 10).toNat (f.extractLsb' 3 16).toNat)
    else .error .nonzeroPadding
  else .error .unknownOpcode

/-- The command a whole frame is, from its bits in wire order; the length tells the format (R80, R89). -/
def decodeBits (ops : Opcodes) (bits : List Bool) : Except DecodeError Instr :=
  if bits.length = 16 then decode16 ops (BitVec.ofNat 16 (natOfBits bits))
  else if bits.length = 32 then decode32 (BitVec.ofNat 32 (natOfBits bits))
  else .error .badLength

/-- The command a whole frame is, from its bytes. Total: anything that is no frame is rejected by name. -/
def decode (ops : Opcodes) (bytes : List Byte) : Except DecodeError Instr :=
  decodeBits ops (bitsOfBytes bytes)

/-- The instruction of a frame numbered as opcode_table.json numbers its bits: bit 0 is the last bit on the wire, bit `nbits - 1` the first
(R10); the opcode parameters are the table's. No instruction is longer than its row's width. -/
def decodeTableWord (nbits w : Nat) : Option Instr :=
  match decode Opcodes.standard (bytesOf (nbits / 8) w) with
  | .ok i => some i
  | .error _ => none

end Sys2Proof
end

