-- ==== Sys2Proof/Machine/State.lean ====
section
/-! DEFINITION. The machine's state: the block, the device on the other end of the wire, and the host's requests (10_state.md; R15). -/

namespace Sys2Proof.Machine

/-- The tag in `OP` (R21): exactly these seven values; no binary coding (R96). -/
inductive Tag where
  | beginTxn
  | endTxn
  | read
  | write
  | erase
  | writeEnable
  | writeDisable
  deriving DecidableEq, Repr

/-- `PHASE` (R26): IDLE, or a step of the lists of R178, under its name there. -/
inductive Phase where
  | idle
  | b1
  | b2
  | b3
  | b4
  | enc
  | tx
  | rx
  | e1
  | e2
  | dec
  | wc
  | ec
  deriving DecidableEq, Repr

/-- `CS_OUT` (R29): the chip-select line as the block last drove it. -/
inductive CsOut where
  | unknown
  | deasserted
  | asserted
  deriving DecidableEq, Repr

/-- One call of a collaborator primitive that returned (R13), with the bytes a transfer brought back. -/
inductive Event where
  | cs (asserted : Bool)
  | waitNs (t : Nat)
  | waitMs (t : Nat)
  | xfer (tx rx : List Byte)
  | recv (n : Nat) (rx : List Byte)
  deriving DecidableEq, Repr

/-- The device's array as byte cells, in canonical form (`Memory.wf`): word `a` lies in cell `2a` (high byte) and cell `2a + 1` (low byte),
"high byte first" (R12, R60). The spec has no byte address (R50): DESIGN CHOICE (log 4), safe. -/
abbrev Memory := List Host.Cell

/-- No fault exists: the block has no exception, and its table of causes is empty (R230). A primitive that never returns is a state, not
a fault (R232). -/
inductive Fault where
  deriving DecidableEq, Repr

/-- The places where the spec gives no meaning: the closed list of R234, each safe (the model has no step there), and `notModelled`. -/
inductive Refusal where
  /-- Rejected by name in `exec`'s arm: an instruction without a meaning. Safe. No arm raises it. -/
  | notModelled (mnemonic : String)
  /-- Raised when a command starts, or the host calls a transfer, while `CFG.BIT_ORDER` is not MSB_FIRST (R114). Safe. -/
  | bitOrder
  /-- Raised when a command starts under an illegal `CFG` (R33, R170). Safe. -/
  | badConfig
  /-- Raised by DECODE on fewer than `off + 16` bits (R150). Safe. -/
  | rxTooShort
  /-- Raised when a transaction opens while the device's cycle runs (R64, R70). Safe. -/
  | deviceBusy
  /-- Raised when a transaction opens before the device's hold time has passed (R64, R271). Safe. -/
  | csHoldViolated
  /-- Raised when the first clock of a transaction comes before the device's setup time has passed (R64, R271). Safe. -/
  | csSetupViolated
  /-- Raised at the end of a transaction that is none of the five frames (R71, R92, R275). Safe. -/
  | unknownTransaction
  /-- Raised by `read_string` with `max_length = 0` (R206). Safe. -/
  | noRoomForTerminator
  /-- Raised by a request for a sequential read (R207). Safe. -/
  | seqRead
  /-- Raised when a command is started while `PHASE` is not IDLE (R26). Safe. -/
  | busyBlock
  deriving DecidableEq, Repr

/-- Everything the spec gives the machine (INVENTORY.md, '## State'). -/
structure State where
  /-- `PHASE` (R26). -/
  phase : Phase
  /-- `OP` (R21). -/
  op : Tag
  /-- `ADDR` (R22). -/
  addr : Addr
  /-- `WDATA` (R23). -/
  wdata : Word
  /-- `OWNED` (R24). -/
  owned : Bool
  /-- `RDATA` (R25). -/
  rdata : Word
  /-- `TXBUF` (R27). -/
  txbuf : Vector Byte 4
  /-- `TXLEN` (R27). -/
  txlen : Nat
  /-- `RXBUF` (R28). -/
  rxbuf : List Byte
  /-- `CS_OUT` (R29). -/
  csOut : CsOut
  /-- `CFG` (R33). -/
  cfg : Cfg
  /-- The trace (R13), oldest call first. -/
  trace : List Event
  /-- `EE` (R34). -/
  ee : Memory
  /-- `WEL`, the Write-Enable Latch (R35). -/
  wel : Bool
  /-- `BUSY_NS` (R36). -/
  busyNs : Nat
  /-- `DEV.SEL` (R37). -/
  sel : Bool
  /-- `DEV.TXS` (R37), first bit first. -/
  txs : List Bool
  /-- `DEV.IDLE_NS` (R38). -/
  idleNs : Nat
  /-- `DEV.SETUP_NS` (R38). -/
  setupNs : Nat
  /-- The device's parameters `DEV` (R8). -/
  dev : DevCfg
  /-- The opcode parameters (R8, R88). -/
  opcodes : Opcodes
  /-- The model's own: after the READ frame of the open transaction a second frame was clocked in (R275, R176). DEDUCED (log 11), safe. -/
  secondFrame : Bool
  /-- The model's own: of each byte clocked in since DEV.SEL rose, whether it was no fill byte when it came (R64, R278 c). DEDUCED (log 11), safe. -/
  sentMarks : List Bool
  /-- The model's own: the word the running cycle writes (R281; log 18). -/
  cycleAddr : Addr
  /-- The model's own: what the host will ask for, next first (R15; log 1). -/
  pending : List Request
  /-- The host's output buffer of words: `words[]` of R202, `buffer` of R203 (R200: no state of the block). -/
  hostWords : List Word
  /-- The host's text `out` of R206. -/
  hostText : List Byte
  /-- The model's own: how many transfers return before one never does; `none` when every one returns (R232; log 9). -/
  fatalIn : Option Nat
  /-- The model's own: how many free bits have been taken (R14; log 2). -/
  draws : Nat
  deriving DecidableEq, Repr

/-- The machine after a reset of the block and a power-up of the device (R40, R260, R261). R40 leaves `OP`, `ADDR`, `WDATA`, `OWNED`,
`RDATA`, `TXBUF`, `TXLEN` and `RXBUF` unspecified: their values here are the model's, DESIGN CHOICE (log 5), unsafe. `DEV.SEL` is 0 or 1 in
R40: DESIGN CHOICE 0 (log 6), unsafe. -/
def State.reset : State where
  phase := .idle
  op := .beginTxn
  addr := 0
  wdata := 0
  owned := false
  rdata := 0
  txbuf := #v[0, 0, 0, 0]
  txlen := 2
  rxbuf := [0, 0, 0]
  csOut := .unknown
  cfg := Cfg.standard
  trace := []
  ee := []
  wel := false
  busyNs := 0
  sel := false
  txs := []
  idleNs := 0
  setupNs := 0
  dev := DevCfg.standard
  opcodes := Opcodes.standard
  secondFrame := false
  sentMarks := []
  cycleAddr := 0
  pending := []
  hostWords := []
  hostText := []
  fatalIn := none
  draws := 0

end Sys2Proof.Machine
end

