-- ==== Sys2Proof/Machine/Ops.lean ====
section
/-! DEFINITION. The named operations over memory and registers: the device's array, every update of the state, and the sequencing of results.
The block takes no exception and returns from none (60_exceptions.md R230, R237, R238), so no operation for either stands here. -/

namespace Sys2Proof.Machine

/-! ### Results -/

/-- What a command, a primitive or a step answers. -/
abbrev Result := Host.Outcome State Fault Refusal

/-- First `r`, then `k` on the state it left; a stop is passed on. -/
def andThen (r : Result) (k : State → Result) : Result :=
  match r with
  | .next s => k s
  | .fault f => .fault f
  | .refused f => .refused f

/-! ### The device's array (R34, R50) -/

/-- What a cell nothing has written since power-up reads as: the unspecified power-up content, a free value (R40, U17; log 3). -/
def Memory.unlisted (k : Nat) : Byte := Config.powerUpByte k

/-- The byte in cell `k`. -/
def Memory.read : Memory → Nat → Byte
  | [], k => Memory.unlisted k
  | c :: rest, k => if c.1 = k then c.2 else Memory.read rest k

/-- The cells other than `k`. -/
def Memory.remove : Memory → Nat → Memory
  | [], _ => []
  | c :: rest, k => if c.1 = k then Memory.remove rest k else c :: Memory.remove rest k

/-- Cell `k` listed with `v`, in rising order. -/
def Memory.insert : Memory → Nat → Byte → Memory
  | [], k, v => [(k, v)]
  | c :: rest, k, v =>
    if k < c.1 then (k, v) :: c :: rest
    else if k = c.1 then (k, v) :: rest
    else c :: Memory.insert rest k v

/-- Cell `k` set to `v`; a cell that holds what an unlisted one reads as is not listed. -/
def Memory.write (m : Memory) (k : Nat) (v : Byte) : Memory :=
  if v = Memory.unlisted k then Memory.remove m k else Memory.insert m k v

/-- The canonical form: addresses strictly rising, no cell listed with what it would read as unlisted, and no cell outside the array
of 1024 words (R50). -/
abbrev Memory.wf (m : Memory) : Prop :=
  m.Pairwise (fun c d => c.1 < d.1) ∧ (∀ c ∈ m, c.2 ≠ Memory.unlisted c.1) ∧ (∀ c ∈ m, c.1 < 2048)

/-- The cell of the high byte of word `a`; its low byte is in the next cell (R60; log 4). -/
def cellOf (a : Addr) : Nat := 2 * a.toNat

/-- `MemRead(a, 2)` (R12). -/
def memRead (m : Memory) (a : Addr) : Word :=
  Memory.read m (cellOf a) ++ Memory.read m (cellOf a + 1)

/-- `MemWrite(a, 2, v)` (R12). -/
def memWrite (m : Memory) (a : Addr) (v : Word) : Memory :=
  Memory.write (Memory.write m (cellOf a) (v.extractLsb' 8 8)) (cellOf a + 1) (v.extractLsb' 0 8)

/-! ### Free values (R14; log 2) -/

/-- `n` free bits from number `d` on. -/
def drawBits (d n : Nat) : List Bool := (List.range n).map fun i => Config.drawBit (d + i)

/-- `draw_8()` from free bit number `d` on. -/
def drawByte (d : Nat) : Byte := BitVec.ofNat 8 (natOfBits (drawBits d 8))

/-- `draw_16()` from free bit number `d` on. -/
def drawWord (d : Nat) : Word := BitVec.ofNat 16 (natOfBits (drawBits d 16))

/-- The next `n` free bits are taken. -/
def State.advanceDraws (s : State) (n : Nat) : State := { s with draws := s.draws + n }

/-! ### The block's registers -/

/-- `PHASE <- p` (R12, R26). -/
def State.setPhase (s : State) (p : Phase) : State := { s with phase := p }

/-- `OP <- tag` (R21). -/
def State.latchOp (s : State) (tag : Tag) : State := { s with op := tag }

/-- `ADDR <- trunc_10(A)` (R22). -/
def State.latchAddr (s : State) (a : Nat) : State := { s with addr := maskAddr a }

/-- `WDATA <- trunc_16(D)` (R23). -/
def State.latchData (s : State) (d : Nat) : State := { s with wdata := maskData d }

/-- `OWNED <- b` (R24). -/
def State.latchOwned (s : State) (b : Bool) : State := { s with owned := b }

/-- `TXBUF[0 .. TXLEN-1] <- bytes`, `TXLEN <- len(bytes)` (R130). The bytes of TXBUF beyond are "unused and unspecified" (R27): free
values (log 10). -/
def State.loadTx (s : State) (bytes : List Byte) : State :=
  { s with
    txbuf := #v[bytes.getD 0 (drawByte s.draws), bytes.getD 1 (drawByte (s.draws + 8)),
      bytes.getD 2 (drawByte (s.draws + 16)), bytes.getD 3 (drawByte (s.draws + 24))]
    txlen := bytes.length
    draws := s.draws + 32 }

/-- `RXBUF <- bytes` (R28). -/
def State.setRxbuf (s : State) (bytes : List Byte) : State := { s with rxbuf := bytes }

/-- `RDATA <- w` (R25). -/
def State.setRdata (s : State) (w : Word) : State := { s with rdata := w }

/-- `CS_OUT <- level` (R29). -/
def State.driveCs (s : State) (asserted : Bool) : State :=
  { s with csOut := if asserted then .asserted else .deasserted }

/-- An event goes to the end of the trace (R13). -/
def State.record (s : State) (e : Event) : State := { s with trace := s.trace ++ [e] }

/-- `CFG <- cfg` (R33). RXBUF stays as the last RECV left it, whatever `CFG.RX_BYTES` becomes: DESIGN CHOICE (log 28), unsafe. -/
def State.setCfg (s : State) (cfg : Cfg) : State := { s with cfg := cfg }

/-! ### The device's registers -/

/-- Chip-select rises at the device (R64, on `CS(1)`). -/
def State.select (s : State) : State := { s with sel := true, txs := [], secondFrame := false, sentMarks := [], setupNs := 0 }

/-- Chip-select falls at the device (R64, on `CS(0)`, after the effect of the transaction). -/
def State.deselect (s : State) : State := { s with sel := false, txs := [], secondFrame := false, sentMarks := [], idleNs := 0 }

/-- Time passes at the device (R64, on `WAIT_NS(t)`). -/
def State.elapse (s : State) (t : Nat) : State :=
  { s with
    busyNs := s.busyNs - t
    idleNs := if s.sel then s.idleNs else s.idleNs + t
    setupNs := if s.sel && s.txs.isEmpty then s.setupNs + t else s.setupNs }

/-- The address of a READ, when the first 16 bits are a READ frame (R65). -/
def readAddress (ops : Opcodes) (txs : List Bool) : Option Addr :=
  match decodeBits ops (txs.take 16) with
  | .ok (.read a _) => some (maskAddr a)
  | .ok (.erase _) => none
  | .ok (.write _ _) => none
  | .ok .writeEnable => none
  | .ok .writeDisable => none
  | .error _ => none

/-- The bytes are one of the five frames, and not every one of them was a fill byte when it came (`true`: it was none): bytes that are all fill are
what a RECV sends, "XFER of n bytes CFG.RECV_FILL" (R64), and so are received bytes, not a frame (R278 c; log 11). -/
def isSentFrame (ops : Opcodes) (marked : List (Byte × Bool)) : Bool :=
  marked.any Prod.snd &&
    match decode ops (marked.map Prod.fst) with
    | .ok _ => true
    | .error _ => false

/-- Somewhere in the bytes stands a frame that was sent: two bytes or four (R80). -/
def holdsFrame (ops : Opcodes) : List (Byte × Bool) → Bool
  | [] => false
  | b :: rest => isSentFrame ops ((b :: rest).take 2) || isSentFrame ops ((b :: rest).take 4) || holdsFrame ops rest

/-- After the READ frame of a transaction, its first two bytes, comes a second frame (R275). -/
def secondFrameIn (ops : Opcodes) (marks txs : List Bool) : Bool :=
  (readAddress ops txs).isSome && holdsFrame ops ((bytesOfBits (txs.drop 16)).zip (marks.drop 2))

/-- The device, if selected, takes in the bytes of a transfer, XFER and RECV alike (R64); each is remembered as a fill byte or not by CFG.RECV_FILL
as it stands now, and so is a second frame after a READ (R275; log 11). -/
def State.clockIn (s : State) (tx : List Byte) : State :=
  let marks := s.sentMarks ++ tx.map (fun b => b != s.cfg.recvFill)
  let bits := s.txs ++ bitsOfBytes tx
  { s with
    txs := if s.sel then bits else s.txs
    sentMarks := if s.sel then marks else s.sentMarks
    secondFrame := s.secondFrame || (s.sel && secondFrameIn s.opcodes marks bits) }

/-- The device writes a word and starts a cycle of `ms` milliseconds (R66, R67). -/
def State.storeWord (s : State) (a : Addr) (w : Word) (ms : Nat) : State :=
  { s with ee := memWrite s.ee a w, busyNs := 1000000 * ms, cycleAddr := a }

/-- `WEL <- b` (R68, R69). -/
def State.setLatch (s : State) (b : Bool) : State := { s with wel := b }

/-- The array with each of these words a free value, from free bit number `d` on. -/
def scrambleWords : List Addr → Nat → Memory → Memory
  | [], _, m => m
  | a :: rest, d, m => scrambleWords rest (d + 16) (memWrite m a (drawWord d))

/-- Every word of the list becomes an unspecified value (R281). -/
def State.scramble (s : State) (words : List Addr) : State :=
  { s with ee := scrambleWords words s.draws s.ee, draws := s.draws + 16 * words.length }

/-! ### A transfer that never returned (R232; log 22) -/

/-- An array of which words 0 to `n - 1` are free values from free bit number `d` on. -/
def freeArray (d : Nat) : Nat → Memory
  | 0 => []
  | n + 1 => memWrite (freeArray d n) (BitVec.ofNat 10 n) (drawWord (d + 16 * n))

/-- The device after a command, or a call of the host, that never returned: "no claim about its result or about the final device state follows" (R232), so every
register of the device and every word of its array is a free value; only what R37 says of an unselected device holds, and that two frames
are at least 32 bits. -/
def State.freeDevice (s : State) : State :=
  let sel := Config.drawBit s.draws
  let txs := if sel then drawBits (s.draws + 16387) (Config.drawNat s.draws) else []
  { s with
    ee := freeArray (s.draws + 3) 1024
    wel := Config.drawBit (s.draws + 1)
    busyNs := Config.drawNat (s.draws + 1)
    sel := sel
    txs := txs
    idleNs := Config.drawNat (s.draws + 2)
    setupNs := Config.drawNat (s.draws + 3)
    secondFrame := Config.drawBit (s.draws + 2) && decide (32 ≤ txs.length)
    sentMarks := if sel then drawBits (s.draws + 16387 + Config.drawNat s.draws) (Config.drawNat (s.draws + 5)) else []
    cycleAddr := BitVec.ofNat 10 (Config.drawNat (s.draws + 4))
    draws := s.draws + 16387 + Config.drawNat s.draws + Config.drawNat (s.draws + 5) }

/-! ### The world around -/

/-- One more transfer has returned (R232; log 9). -/
def State.countTransfer (s : State) : State := { s with fatalIn := s.fatalIn.map (· - 1) }

/-- What the host will ask for next (log 1). -/
def State.setPending (s : State) (rs : List Request) : State := { s with pending := rs }

/-- The host's word buffer (R200). -/
def State.setHostWords (s : State) (ws : List Word) : State := { s with hostWords := ws }

/-- The host's text buffer (R200). -/
def State.setHostText (s : State) (cs : List Byte) : State := { s with hostText := cs }

end Sys2Proof.Machine
end

