-- ==== Sys2Proof/Machine/Flags.lean ====
section
/-! DEFINITION. Flags. The block has no condition code and no status flag that an operation sets (10_state.md R30); what a reader may want as
a flag or a level is derived here from the state. -/

namespace Sys2Proof.Machine

/-- `busy = (PHASE != IDLE)` (R30). -/
def State.busy (s : State) : Bool := decide (s.phase ≠ .idle)

/-- The level on the chip-select pin, unknown until the block has driven it (R29). -/
def State.pinLevel (s : State) : Option Bool :=
  match s.csOut with
  | .unknown => none
  | .asserted => some s.cfg.csActiveLevel
  | .deasserted => some (!s.cfg.csActiveLevel)

/-- The level `set_line` is called with for `CS(1)` and `CS(0)` (R13). -/
def lineLevel (c : Cfg) (asserted : Bool) : Bool :=
  if asserted then c.csActiveLevel else !c.csActiveLevel

/-- The system is write-protected (R239). -/
def State.writeProtected (s : State) : Bool := !s.wel

/-- `DEV.RXS_POS` (R37): `max(0, len(DEV.TXS) - 16)`. -/
def State.rxsPos (s : State) : Nat := s.txs.length - 16

end Sys2Proof.Machine
end

