-- ==== Sys2Proof/Machine/Operands.lean ====
section
/-! DEFINITION. The operands of the pure functions: DECODE of the receive buffer (42_decoder.md), ENCODE's operands as the registers hold
them (41_codec.md R130), and the legality of the configuration (10_state.md R33). Masking is `maskAddr` and `maskData` of Decode.lean. -/

namespace Sys2Proof.Machine

/-- DECODE (R150) with `off = CFG.RX_ALIGN_OFFSET`: drop the `off` leading bits, take the next 16 as the Word. The result is cut to 16 bits
(conflict C1); fewer than `off + 16` bits are refused (R154). -/
def decodeResponse (off : Nat) (r : List Byte) : Except Refusal Word :=
  if 8 * r.length < off + 16 then .error .rxTooShort
  else .ok (BitVec.ofNat 16 (natOfBytes r >>> (8 * r.length - off - 16)))

/-- The instruction whose frame ENCODE builds, from `OP`, `ADDR`, `WDATA` and `OWNED`; BEGIN_TXN and END_TXN are no tags of ENCODE (R130). -/
def State.opInstr (s : State) : Option Instr :=
  match s.op with
  | .beginTxn => none
  | .endTxn => none
  | .read => some (.read s.addr.toNat s.owned)
  | .write => some (.write s.addr.toNat s.wdata.toNat)
  | .erase => some (.erase s.addr.toNat)
  | .writeEnable => some .writeEnable
  | .writeDisable => some .writeDisable

/-- The bytes of TXBUF in use: `TXBUF[0 .. TXLEN-1]` (R27, R130). -/
def State.txBytes (s : State) : List Byte := s.txbuf.toList.take s.txlen

/-- The legal values of R33, the bit order apart (R114): `bad_config` in R234 is the negation of this. -/
def legalCfg (c : Cfg) : Bool :=
  decide (c.writeShift ≤ 3) && (decide (c.rxBytes = 2) || decide (c.rxBytes = 3))
    && decide (c.rxAlignOffset + 16 ≤ 8 * c.rxBytes)

end Sys2Proof.Machine
end

