-- ==== Sys2Proof/Machine/Device.lean ====
section
/-! DEFINITION. The device's side of the wire: what it answers and does on each event (20_memory.md R64 to R71). -/

namespace Sys2Proof.Machine

/-! ### What a transaction is (R65 to R69, R71) -/

/-- The command a transaction is: a READ by its first 16 bits (R65), any other by the whole of it (R66 to R69); none of the five otherwise
(R71). -/
def transactionOf (ops : Opcodes) (txs : List Bool) : Option Instr :=
  match readAddress ops txs with
  | some a => some (.read a.toNat false)
  | none =>
    match decodeBits ops txs with
    | .ok i => some i
    | .error _ => none

/-- The effect of the transaction `DEV.TXS` at the `CS(0)` that ends it. A READ followed by a second frame is no transaction of the five
(R275, R176; DEDUCED, log 11, safe); one followed by received bytes, or by bytes that hold no frame, is a READ (R65, C12). -/
def endTransaction (s : State) : Result :=
  if s.txs = [] then .next s
  else
    match transactionOf s.opcodes s.txs with
    | some (.read _ _) => if s.secondFrame then .refused .unknownTransaction else .next s
    | some (.write a d) =>
      .next (if s.wel then s.storeWord (maskAddr a) (maskData d) s.dev.tWcMs else s)
    | some (.erase a) =>
      .next (if s.wel then s.storeWord (maskAddr a) s.dev.erasedWord s.dev.tEcMs else s)
    | some .writeEnable => .next (s.setLatch true)
    | some .writeDisable => .next (s.setLatch false)
    | none => .refused .unknownTransaction

/-! ### What is cut off: the words that become unspecified (R281) -/

/-- The word the command in progress addresses, if it is a WRITE or an ERASE (R281). -/
def State.commandWord (s : State) : List Addr :=
  if s.phase ≠ .idle ∧ (s.op = .write ∨ s.op = .erase) then [s.addr] else []

/-- The word of the device's cycle in progress (R281). -/
def State.cycleWord (s : State) : List Addr :=
  if 0 < s.busyNs then [s.cycleAddr] else []

/-- The word of a WRITE or ERASE frame in the open transaction (R281). A frame of which only a part is clocked in is not yet a WRITE or an ERASE
(R66, R67) and names no word, even with its address complete: DESIGN CHOICE (log 18), unsafe. -/
def State.transactionWord (s : State) : List Addr :=
  if s.sel then
    match transactionOf s.opcodes s.txs with
    | some (.write a _) => [maskAddr a]
    | some (.erase a) => [maskAddr a]
    | some (.read _ _) => []
    | some .writeEnable => []
    | some .writeDisable => []
    | none => []
  else []

/-- The words a power loss now, or a transfer of a macro that never returns, leaves unspecified (R281, R209). -/
def State.cutWords (s : State) : List Addr := s.commandWord ++ s.cycleWord ++ s.transactionWord

/-- The device at a transfer of `bits` that never returned, as a macro's half-applied array lets it be known: "the words already written stay written
and the rest are untouched" (R209, R277, U13). Only the words of R281 are free, and so are the device's registers (R232): what of the bits came in, how
much time has passed, DEV.SEL and WEL, and how long a cycle of that word still runs. DESIGN CHOICE (log 22), safe. -/
def State.hang (s : State) (bits : List Bool) : State :=
  let t := s.scramble s.cutWords
  let sel := Config.drawBit t.draws
  let txs := if sel then s.txs ++ bits.take (Config.drawNat t.draws) else []
  { t with
    wel := Config.drawBit (t.draws + 1)
    busyNs := if s.cutWords.isEmpty then 0 else Config.drawNat (t.draws + 1)
    sel := sel
    txs := txs
    idleNs := s.idleNs + Config.drawNat (t.draws + 2)
    setupNs := s.setupNs + Config.drawNat (t.draws + 3)
    secondFrame := Config.drawBit (t.draws + 2) && decide (32 ≤ txs.length)
    sentMarks := if sel then s.sentMarks else []
    cycleAddr := s.cutWords.headD s.cycleAddr
    draws := t.draws + 4 }

/-! ### The events (R64) -/

/-- On `CS(1)`. -/
def deviceRise (s : State) : Result :=
  if s.sel then .next s
  else if 0 < s.busyNs then .refused .deviceBusy
  else if s.idleNs < s.dev.tCshNs then .refused .csHoldViolated
  else .next s.select

/-- On `CS(0)`. -/
def deviceFall (s : State) : Result :=
  if s.sel then andThen (endTransaction s) fun t => .next t.deselect
  else .next s

/-- `response_bit(p)` (R65) at `p = len(DEV.TXS)`, with `draw` the free bit that stands where nothing is defined. -/
def responseBit (s : State) (txs : List Bool) (draw : Bool) : Bool :=
  match readAddress s.opcodes txs with
  | some a =>
    if 16 ≤ txs.length then
      let q := txs.length - 16
      if q < s.dev.rxSkew then draw
      else if q < s.dev.rxSkew + 16 then (memRead s.ee a).getLsbD (15 - (q - s.dev.rxSkew))
      else draw
    else draw
  | none => draw

/-- The bits the selected device sends while it takes in `bits`, one for one (R64): `txs` is `DEV.TXS` before the first of them, `d` the
number of the first free bit. -/
def responseBits (s : State) : List Bool → Nat → List Bool → List Bool
  | _, _, [] => []
  | txs, d, b :: bits => responseBit s txs (Config.drawBit d) :: responseBits s (txs ++ [b]) (d + 1) bits

/-- The bytes a transfer of `tx` brings back: the device's answer if it is selected, else draws (R64). -/
def State.received (s : State) (tx : List Byte) : List Byte :=
  bytesOfBits
    (if s.sel then responseBits s s.txs s.draws (bitsOfBytes tx) else drawBits s.draws (8 * tx.length))

/-- The first clock of the transaction would come too early (R64, R271). -/
def State.setupViolated (s : State) : Bool :=
  s.sel && s.txs.isEmpty && decide (s.setupNs < s.dev.tCssNs)

/-- On `XFER(tx)`, and on `RECV(n)` with `tx` the fill bytes (R64). -/
def deviceTransfer (tx : List Byte) (s : State) : Result :=
  if s.setupViolated then .refused .csSetupViolated
  else .next (((s.clockIn tx).advanceDraws (8 * tx.length)).countTransfer)

/-! ### The primitives, seen by the device and entered in the trace (R13) -/

/-- `CS(asserted)`. -/
def callCs (asserted : Bool) (s : State) : Result :=
  andThen (if asserted then deviceRise s else deviceFall s) fun t => .next (t.record (.cs asserted))

/-- `WAIT_NS(t)`. -/
def callWaitNs (t : Nat) (s : State) : Result := .next ((s.elapse t).record (.waitNs t))

/-- `WAIT_MS(t)`, "as WAIT_NS(1_000_000 * t)" (R64). -/
def callWaitMs (t : Nat) (s : State) : Result := .next ((s.elapse (1000000 * t)).record (.waitMs t))

/-- `XFER(tx) -> rx`. -/
def callXfer (tx : List Byte) (s : State) : Result :=
  andThen (deviceTransfer tx s) fun t => .next (t.record (.xfer tx (s.received tx)))

/-- The bytes driven on the serial output while receiving only (R13). -/
def State.fillBytes (s : State) (n : Nat) : List Byte := List.replicate n s.cfg.recvFill

/-- `RECV(n) -> rx`: "RECV(n) is XFER of n bytes CFG.RECV_FILL" (R64). -/
def callRecv (n : Nat) (s : State) : Result :=
  andThen (deviceTransfer (s.fillBytes n) s) fun t => .next (t.record (.recv n (s.received (s.fillBytes n))))

end Sys2Proof.Machine
end

