-- ==== Sys2Proof/Machine/Framer.lean ====
section
/-! DEFINITION. The walk of `PHASE` through a command's step list (43_sequencers.md R178) and the Transaction Framer's two commands
(40_framer.md R110, R111). -/

namespace Sys2Proof.Machine

/-- `emit CS(asserted)`: the block drives its line (R29). -/
def emitCs (asserted : Bool) (s : State) : Result :=
  andThen (callCs asserted s) fun t => .next (t.driveCs asserted)

/-- What the block does at one step of R178. -/
def act : Phase → State → Result
  | .idle, s => .next s
  | .b1, s => emitCs false s
  | .b2, s => callWaitNs s.cfg.tCshNs s
  | .b3, s => emitCs true s
  | .b4, s => callWaitNs s.cfg.tCssNs s
  | .enc, s =>
    match s.opInstr with
    | some i => .next (s.loadTx (encode s.opcodes s.cfg.writeShift i))
    | none => .next s
  | .tx, s => callXfer s.txBytes s
  | .rx, s => andThen (callRecv s.cfg.rxBytes s) fun t => .next (t.setRxbuf (s.received (s.fillBytes s.cfg.rxBytes)))
  | .e1, s => emitCs false s
  | .e2, s => callWaitNs s.cfg.tCshNs s
  | .dec, s =>
    match decodeResponse s.cfg.rxAlignOffset s.rxbuf with
    | .ok w => .next (s.setRdata w)
    | .error r => .refused r
  | .wc, s => callWaitMs s.cfg.tWcMs s
  | .ec, s => callWaitMs s.cfg.tEcMs s

/-- The primitive called at this step never returns (R232). Only the transfer primitive can: `set_line` and the delay primitives always
return (R112). DESIGN CHOICE (log 9), safe. -/
def neverReturns (p : Phase) (s : State) : Bool :=
  (decide (p = .tx) || decide (p = .rx)) && decide (s.fatalIn = some 0)

/-- The bits of the transfer called at this step. -/
def transferBits (p : Phase) (s : State) : List Bool :=
  if p = .tx then bitsOfBytes s.txBytes else bitsOfBytes (s.fillBytes s.cfg.rxBytes)

/-- The rest of a command, from its remaining steps: `PHASE` takes each step's name in turn and IDLE after the last (R26, R178). At a primitive
that never returns the command stays at that step (R232). Whether it returns is asked first: one that never returns and also comes before the
device's setup time is stuck, not refused. DESIGN CHOICE (log 22), safe. -/
def runSteps : List Phase → State → Result
  | [], s => .next (s.setPhase .idle)
  | p :: rest, s =>
    if neverReturns p s then .next ((s.setPhase p).hang (transferBits p s))
    else andThen (act p (s.setPhase p)) (runSteps rest)

/-- A command is started: only from IDLE (R26), only under MSB_FIRST (R114) and a legal `CFG` (R33, R170); the operands are latched, then the
steps run. -/
def startSteps (steps : List Phase) (latch : State → State) (s : State) : Result :=
  if s.phase ≠ .idle then .refused .busyBlock
  else if s.cfg.bitOrder ≠ .msbFirst then .refused .bitOrder
  else if legalCfg s.cfg then runSteps steps (latch s)
  else .refused .badConfig

/-- Of a command that never returned nothing is claimed about the device (R232; log 22). -/
def forgetIfStuck (r : Result) : Result :=
  andThen r fun t => .next (if t.phase = .idle then t else t.freeDevice)

/-- The host starts a command on its own. In a macro R209 says more of a command that never returns (`macroWrite`, `macroRead`). -/
def startCommand (steps : List Phase) (latch : State → State) (s : State) : Result :=
  forgetIfStuck (startSteps steps latch s)

/-- BEGIN_TXN's four steps (R178). -/
def beginSteps : List Phase := [.b1, .b2, .b3, .b4]

/-- END_TXN's two steps (R178). -/
def endSteps : List Phase := [.e1, .e2]

/-- BEGIN_TXN (R110). -/
def execBeginTxn (s : State) : Result :=
  startCommand beginSteps (fun t => t.latchOp .beginTxn) s

/-- END_TXN (R111). -/
def execEndTxn (s : State) : Result :=
  startCommand endSteps (fun t => t.latchOp .endTxn) s

end Sys2Proof.Machine
end

