-- ==== Sys2Proof/Machine/Sequencers.lean ====
section
/-! DEFINITION. The single-word sequencers, one meaning per instruction (43_sequencers.md R170 to R176). -/

namespace Sys2Proof.Machine

/-- READ's steps (R178): the caller-framed READ emits no chip-select event (R176). -/
def readSteps (owned : Bool) : List Phase :=
  if owned then [.enc, .tx, .rx, .dec]
  else [.b1, .b2, .b3, .b4, .enc, .tx, .rx, .e1, .e2, .dec]

/-- READ's operands (R21, R22, R24). -/
def latchRead (addr : Nat) (owned : Bool) (s : State) : State := ((s.latchOp .read).latchAddr addr).latchOwned owned

/-- READ (R171, R176). -/
def execRead (addr : Nat) (owned : Bool) (s : State) : Result := startCommand (readSteps owned) (latchRead addr owned) s

/-- ERASE (R173). -/
def execErase (addr : Nat) (s : State) : Result :=
  startCommand [.b1, .b2, .b3, .b4, .enc, .tx, .e1, .e2, .ec] (fun t => (t.latchOp .erase).latchAddr addr) s

/-- WRITE's steps (R178). -/
def writeSteps : List Phase := [.b1, .b2, .b3, .b4, .enc, .tx, .e1, .e2, .wc]

/-- WRITE's operands (R21, R22, R23). -/
def latchWrite (addr data : Nat) (s : State) : State := ((s.latchOp .write).latchAddr addr).latchData data

/-- WRITE (R172). -/
def execWrite (addr data : Nat) (s : State) : Result := startCommand writeSteps (latchWrite addr data) s

/-- WRITE_ENABLE (R174). -/
def execWriteEnable (s : State) : Result :=
  startCommand [.b1, .b2, .b3, .b4, .enc, .tx, .e1, .e2] (fun t => t.latchOp .writeEnable) s

/-- WRITE_DISABLE (R175). -/
def execWriteDisable (s : State) : Result :=
  startCommand [.b1, .b2, .b3, .b4, .enc, .tx, .e1, .e2] (fun t => t.latchOp .writeDisable) s

end Sys2Proof.Machine
end

