-- ==== Sys2Proof/Machine/Dispatch.lean ====
section
/-! DEFINITION. One arm per instruction of opcode_table.json. -/

namespace Sys2Proof.Machine

def exec (i : Instr) (s : State) : Host.Outcome State Fault Refusal :=
  match i with
  | .read addr owned => Sys2Proof.Machine.execRead addr owned s
  | .erase addr => Sys2Proof.Machine.execErase addr s
  | .write addr data => Sys2Proof.Machine.execWrite addr data s
  | .writeEnable => Sys2Proof.Machine.execWriteEnable s
  | .writeDisable => Sys2Proof.Machine.execWriteDisable s

end Sys2Proof.Machine
end

