-- ==== Sys2Proof/Machine/Bulk.lean ====
section
/-! DEFINITION. The Bulk Operations, as macros over the block (44_bulk_macros.md R200 to R210). Each is a sequence of self-framed commands; the
host's next command begins when the one before has returned (R177), so a macro stops where a command never returns (R209). -/

namespace Sys2Proof.Machine

/-- `k` once the command has returned (R177); a command that never returns ends the macro where it stands (R209, R232). -/
def whenReturned (r : Result) (k : State → Result) : Result :=
  andThen r fun t => if t.phase = .idle then k t else .next t

/-- The command the host starts (R2). -/
def runCommand : Command → State → Result
  | .beginTxn, s => execBeginTxn s
  | .endTxn, s => execEndTxn s
  | .instr i, s => exec i s

/-- WRITE as a command of a macro: if it never returns, "the words already written stay written and the rest are untouched" (R209, R277, U13), which
R232 does not say of a command on its own; only the word it addresses is free (R281; log 22). -/
def macroWrite (addr data : Nat) (s : State) : Result := startSteps writeSteps (latchWrite addr data) s

/-- READ, self-framed, as a command of a macro: if it never returns, no word of the array is free (R209, R277, U13). -/
def macroRead (addr : Nat) (s : State) : Result := startSteps (readSteps false) (latchRead addr false) s

/-- `WRITE(start + i, words[i])` for each word in turn (R201, R208). -/
def writeWords : Nat → List Word → State → Result
  | _, [], s => .next s
  | start, w :: rest, s => whenReturned (macroWrite start w.toNat s) (writeWords (start + 1) rest)

/-- `words[i] <- READ(start + i, OWNED = 0)` for `count` words (R202, R208), appended to the host's buffer. -/
def readWords : Nat → Nat → State → Result
  | _, 0, s => .next s
  | start, count + 1, s =>
    whenReturned (macroRead start s) fun t =>
      readWords (start + 1) count (t.setHostWords (t.hostWords ++ [t.rdata]))

/-- `write_buffer(start, words)` (R201). -/
def execWriteBuffer (start : Nat) (words : List Word) (s : State) : Result := writeWords start words s

/-- `read_range(start, count)` (R202). -/
def execReadRange (start count : Nat) (s : State) : Result := readWords start count (s.setHostWords [])

/-- `copy_out(buffer)` (R203): the full device, word by word, from 0 upward. One list stands for the buffers of `read_range` and `copy_out`, and
it is emptied when either starts: a `copy_out` that stops in the middle leaves the entries read so far and none of the words the provided buffer
held before. DESIGN CHOICE (log 17), unsafe. -/
def execCopyOut (s : State) : Result := readWords 0 1024 (s.setHostWords [])

/-- `copy_in(buffer)` (R204). -/
def execCopyIn (buffer : Vector Word 1024) (s : State) : Result := writeWords 0 buffer.toList s

/-- A pair of characters in a word, the first in the high byte (R210). -/
def packPair (c0 c1 : Byte) : Word := c0 ++ c1

/-- The words of a text without 0x00 (R205): every pair of characters, then a word that holds the terminator. -/
def packText : List Byte → List Word
  | [] => [packPair 0x00 0x00]
  | [c] => [packPair c 0x00]
  | c0 :: c1 :: rest => packPair c0 c1 :: packText rest

/-- `write_string(start, text)` (R205): packing stops at the first 0x00. -/
def execWriteString (start : Nat) (text : List Byte) (s : State) : Result :=
  writeWords start (packText (text.takeWhile (· ≠ 0x00))) s

/-- The loop of `read_string` (R206) with room for that many more characters before the terminator. -/
def readChars : Nat → Nat → State → Result
  | _, 0, s => .next s
  | start, 1, s =>
    whenReturned (macroRead start s) fun t =>
      let hi := t.rdata.extractLsb' 8 8
      if hi = 0x00 then .next t else .next (t.setHostText (t.hostText ++ [hi]))
  | start, room + 2, s =>
    whenReturned (macroRead start s) fun t =>
      let hi := t.rdata.extractLsb' 8 8
      let lo := t.rdata.extractLsb' 0 8
      if hi = 0x00 then .next t
      else if lo = 0x00 then .next (t.setHostText (t.hostText ++ [hi]))
      else readChars (start + 1) room (t.setHostText (t.hostText ++ [hi, lo]))

/-- `read_string(start, max_length)` (R206). The output buffer then holds `hostText ++ [0x00]` (`State.textBuffer`). -/
def execReadString (start maxLength : Nat) (s : State) : Result :=
  if maxLength = 0 then .refused .noRoomForTerminator
  else readChars start (maxLength - 1) (s.setHostText [])

/-- The output buffer of `read_string`, always terminated (R206). -/
def State.textBuffer (s : State) : List Byte := s.hostText ++ [0x00]

/-- A sequential read is refused: `SEQ_READ_SUPPORTED` is false and no such command exists (R207). -/
def execSeqRead (_start _count : Nat) (_s : State) : Result := .refused .seqRead

/-- A bulk operation, run to its end (R200). -/
def runMacro : Macro → State → Result
  | .writeBuffer start words, s => execWriteBuffer start words s
  | .readRange start count, s => execReadRange start count s
  | .copyOut, s => execCopyOut s
  | .copyIn buffer, s => execCopyIn buffer s
  | .writeString start text, s => execWriteString start text s
  | .readString start maxLength, s => execReadString start maxLength s

/-- A bulk operation up to the point where `n` of its commands have returned (R209). `read_string` stores at most two characters per READ, so
its first `n` commands are those it runs with room for `2n` characters. -/
def runMacroPart (n : Nat) : Macro → State → Result
  | .writeBuffer start words, s => writeWords start (words.take n) s
  | .readRange start count, s => readWords start (min n count) (s.setHostWords [])
  | .copyOut, s => readWords 0 (min n 1024) (s.setHostWords [])
  | .copyIn buffer, s => writeWords 0 (buffer.toList.take n) s
  | .writeString start text, s => writeWords start ((packText (text.takeWhile (· ≠ 0x00))).take n) s
  | .readString start maxLength, s =>
    if maxLength = 0 then .refused .noRoomForTerminator
    else readChars start (min (2 * n) (maxLength - 1)) (s.setHostText [])

end Sys2Proof.Machine
end

