-- ==== Sys2Proof/Machine/Requests.lean ====
section
/-! DEFINITION. What the machine does with each request of the host and of the world around it (70_reset_and_hazards.md R260 to R269, R281). -/

namespace Sys2Proof.Machine

/-! ### The host calls a primitive itself (R271; log 16) -/

/-- A request that comes from outside block and host, whatever they are doing (R260, R244). -/
def fromOutside : Request → Bool
  | .blockReset _ => true
  | .powerCycle => true
  | .command _ => false
  | .configure _ => false
  | .bus _ => false
  | .bulk _ => false
  | .bulkCutByPowerLoss _ _ => false
  | .seqRead _ _ => false

/-- What is still to come when a call of the host itself never returned: the host asks for nothing more, until a reset of the block
(R232; log 22). -/
def withoutHost : List Request → List Request
  | [] => []
  | .blockReset cfg :: rest => .blockReset cfg :: rest
  | .powerCycle :: rest => .powerCycle :: withoutHost rest
  | .command _ :: rest => withoutHost rest
  | .configure _ :: rest => withoutHost rest
  | .bus _ :: rest => withoutHost rest
  | .bulk _ :: rest => withoutHost rest
  | .bulkCutByPowerLoss _ _ :: rest => withoutHost rest
  | .seqRead _ _ :: rest => withoutHost rest

/-- The host's own call of a transfer that never returns (R232). -/
def hostHangs (c : BusCall) (s : State) : Bool :=
  match c with
  | .xfer _ => decide (s.fatalIn = some 0)
  | .recv _ => decide (s.fatalIn = some 0)
  | .cs _ => false
  | .waitNs _ => false
  | .waitMs _ => false

/-- A primitive called by the host: the device reacts and the trace shows it; `CS_OUT` is what the block drove (R29) and stays. -/
def runReturningCall : BusCall → State → Result
  | .cs asserted, s => callCs asserted s
  | .waitNs t, s => callWaitNs t s
  | .waitMs t, s => callWaitMs t s
  | .xfer tx, s => if s.cfg.bitOrder = .msbFirst then callXfer tx s else .refused .bitOrder
  | .recv n, s => if s.cfg.bitOrder = .msbFirst then callRecv n s else .refused .bitOrder

/-- The host's call: one that never returns leaves the host waiting and nothing known of the device (R232). A transfer with the other bit order has
no meaning (R114). Whether the call returns is asked before the bit order and the device's setup time: DESIGN CHOICE (log 22), safe. -/
def runCall (c : BusCall) (s : State) : Result :=
  if hostHangs c s then .next (s.freeDevice.setPending (withoutHost s.pending)) else runReturningCall c s

/-! ### Reset and power loss (R260, R261, R281; log 18) -/

/-- Reset of the block (R260): every register of the block as at reset (R40; log 5), `CFG` as the host supplies it, the trace empty; nothing goes
out on the wire and the device stays as it is, but for the word of a command it cuts off (R281). RXBUF is three bytes again even when the host
supplies `CFG.RX_BYTES = 2`, until the next RECV: DESIGN CHOICE (log 28), unsafe. -/
def resetBlock (cfg : Cfg) (s : State) : State :=
  let t := s.scramble s.commandWord
  { State.reset with
    cfg := cfg
    ee := t.ee
    wel := t.wel
    busyNs := t.busyNs
    sel := t.sel
    txs := t.txs
    idleNs := t.idleNs
    setupNs := t.setupNs
    dev := t.dev
    opcodes := t.opcodes
    secondFrame := t.secondFrame
    sentMarks := t.sentMarks
    cycleAddr := t.cycleAddr
    pending := t.pending
    hostWords := t.hostWords
    hostText := t.hostText
    fatalIn := t.fatalIn
    draws := t.draws }

/-- Power loss and power-up of the device (R244, R261, R76): the latch is cleared, the array kept but for the words of a command, transaction
or cycle it cuts off (R281), no cycle runs, nothing is clocked in; the device sees the line where it stands (R40). -/
def powerCycleDevice (s : State) : State :=
  let t := s.scramble s.cutWords
  { t with
    wel := false
    busyNs := 0
    txs := []
    secondFrame := false
    sentMarks := []
    idleNs := 0
    setupNs := 0 }

/-! ### Requests -/

/-- A bulk operation during which the device loses power between two of its commands: the words already written stay written and the rest are
untouched (R209), the device is as after a power cycle, and the operation goes no further. -/
def runCutMacro (m : Macro) (commands : Nat) (s : State) : Result :=
  andThen (runMacroPart commands m s) fun t => .next (powerCycleDevice t)

/-- What a request does. -/
def runRequest : Request → State → Result
  | .command c, s => runCommand c s
  | .configure cfg, s => .next (s.setCfg cfg)
  | .bus c, s => runCall c s
  | .bulk m, s => runMacro m s
  | .bulkCutByPowerLoss m commands, s => runCutMacro m commands s
  | .seqRead start count, s => execSeqRead start count s
  | .blockReset cfg, s => .next (resetBlock cfg s)
  | .powerCycle, s => .next (powerCycleDevice s)

/-- The next request may happen now: the host waits while a command is in progress (R26, R267, R232). -/
def State.canServe (s : State) (r : Request) : Bool := fromOutside r || decide (s.phase = .idle)

/-- One step: the next request, if there is one and it may happen now; else the machine waits as it is (R262, R232). -/
def serveNext (s : State) : Result :=
  match s.pending with
  | [] => .next s
  | r :: rest => if s.canServe r then runRequest r (s.setPending rest) else .next s

end Sys2Proof.Machine
end

