-- ==== Sys2Proof/Machine/Step.lean ====
section
/-! DEFINITION. One step of the machine, and where it takes its next instruction from. -/

namespace Sys2Proof.Machine

/-- One step: the host's next request is carried out (R72, R177). -/
def step (s : State) : Host.Outcome State Fault Refusal := serveNext s

/-- `s` with the instruction of this table word as the host's next request, and the block waiting for it (R262; log 1). A word that is no frame
names no command, so nothing is placed (R96; log 15). -/
def State.withFetchWord (s : State) (nbits w : Nat) : State :=
  match decodeTableWord nbits w with
  | some i => (s.setPending (.command (.instr i) :: s.pending)).setPhase .idle
  | none => s

end Sys2Proof.Machine
end

