-- ==== Sys2Proof/Safety.lean ====
section
/-! DEFINITION. The terms claims are stated in: when a command runs to its end, the events it shows, what every step keeps, and the host's view
of the device. -/

namespace Sys2Proof.Machine

/-- A command may be started (R26, R114, R33). -/
structure Startable (s : State) : Prop where
  idle : s.phase = .idle
  order : s.cfg.bitOrder = .msbFirst
  legal : legalCfg s.cfg = true

/-- BEGIN_TXN's steps meet no refusal of the device: nothing is clocked into an open transaction (R71), no cycle outlasts the hold wait (R70), and
the block's waits are at least the device's minima (R268, R271). -/
structure LineReady (s : State) : Prop where
  line : s.sel = true → s.txs = []
  notBusy : s.busyNs ≤ s.cfg.tCshNs
  hold : s.dev.tCshNs ≤ s.cfg.tCshNs
  setup : s.dev.tCssNs ≤ s.cfg.tCssNs

/-- A self-framed command runs to its end: it may start, the line is ready, and every transfer returns (R232). -/
structure Ready (s : State) : Prop where
  startable : Startable s
  lineReady : LineReady s
  returns : s.fatalIn = none

/-- The premises of R180 on the configuration (R268): the canonical WRITE frame, the receive offset of the device, and cycle waits at least
the device's. -/
structure Calibrated (s : State) : Prop where
  shift : s.cfg.writeShift = 3
  offset : s.cfg.rxAlignOffset = s.dev.rxSkew
  writeCycle : s.dev.tWcMs ≤ s.cfg.tWcMs
  eraseCycle : s.dev.tEcMs ≤ s.cfg.tEcMs

/-- A caller-framed READ finds a fresh transaction of its own: the device is selected, nothing is clocked in, and its setup time has passed
(R176, R271). -/
structure FreshTransaction (s : State) : Prop where
  selected : s.sel = true
  empty : s.txs = []
  unmarked : s.sentMarks = []
  setup : s.dev.tCssNs ≤ s.setupNs

/-- The events of BEGIN_TXN (R110). -/
def beginEvents (c : Cfg) : List Event := [.cs false, .waitNs c.tCshNs, .cs true, .waitNs c.tCssNs]

/-- The events of END_TXN (R111). -/
def endEvents (c : Cfg) : List Event := [.cs false, .waitNs c.tCshNs]

/-- Cell `k` is in none of these words. -/
def Outside (words : List Addr) (k : Nat) : Prop := ∀ a ∈ words, k ≠ cellOf a ∧ k ≠ cellOf a + 1

/-- What every step keeps: the array's canonical form; an unselected device has nothing clocked in (R37); transfers that return move whole bytes
(R241, R232), one mark for each (log 11); TXLEN is 2 or 4 (R27) and RXBUF two or three bytes (R28, R33); a second frame comes after a first of
16 bits (R275); and between steps PHASE is IDLE, unless a transfer never returned (R26, R232). -/
structure Invariant (s : State) : Prop where
  memory : Memory.wf s.ee
  deselected : s.sel = false → s.txs = [] ∧ s.secondFrame = false ∧ s.sentMarks = []
  wholeBytes : s.fatalIn ≠ some 0 → s.txs.length % 8 = 0
  marks : s.fatalIn ≠ some 0 → s.txs.length = 8 * s.sentMarks.length
  txlen : s.txlen = 2 ∨ s.txlen = 4
  rxlen : s.rxbuf.length = 2 ∨ s.rxbuf.length = 3
  second : s.secondFrame = true → 32 ≤ s.txs.length
  phase : s.phase = .idle ∨ ((s.phase = .tx ∨ s.phase = .rx) ∧ s.fatalIn = some 0)

/-! ### The host's view of the device (R72, R239) -/

/-- The array and the latch, and nothing of how frames get there. -/
structure View where
  array : Addr → Word
  enabled : Bool

/-- The view of a state. -/
def viewOf (s : State) : View where
  array := memRead s.ee
  enabled := s.wel

/-- What a command does to the view (R171 to R175, R239): a WRITE or ERASE takes effect only with the latch set. -/
def View.after (erased : Word) (v : View) : Instr → View
  | .read _ _ => v
  | .write a d => if v.enabled then { v with array := Function.update v.array (maskAddr a) (maskData d) } else v
  | .erase a => if v.enabled then { v with array := Function.update v.array (maskAddr a) erased } else v
  | .writeEnable => { v with enabled := true }
  | .writeDisable => { v with enabled := false }

end Sys2Proof.Machine
end

