-- ==== Sys2Proof/Certificates/Slice0/Obligations.lean ====
section
/-! DEFINITION. The statements for the provers, from the numbered rules of spec/. -/

open Sys2Proof Sys2Proof.Machine

/-! ### Encoding (30_encoding.md, 41_codec.md) -/

/-- R138 (f), R81 to R83: for every legal choice of the opcode parameters (R88), the frame of a well-formed instruction decodes to that
instruction; OWNED, which no frame carries, comes back as its default. -/
def Obligations.EncodedInstructionDecodesBack : Prop :=
  ∀ (ops : Opcodes) (i : Instr), WellFormed i = true → decode ops (encode ops 3 i) = .ok i.selfFramed

/-- R89, R91: whatever decodes is the frame of the instruction it decodes to, and of no other bytes. That a decoded READ carries OWNED = 0
(`i.selfFramed = i`) is the model's choice (log 13). -/
def Obligations.DecodedFrameEncodesBack : Prop :=
  ∀ (ops : Opcodes) (bytes : List Byte) (i : Instr),
    decode ops bytes = .ok i → WellFormed i = true ∧ i.selfFramed = i ∧ encode ops 3 i = bytes

/-- Frames of 95_test_vectors.md, V-C (VC3, VC10, VC25, VC28, VC40, VC41) and V-H (VH5, VH6, VH7, VH11). Those of commands other than WRITE rest
on the spec's presumed opcode patterns (log 8). -/
def Obligations.SampleFramesDecode : Prop :=
  decode Opcodes.standard [0xC0, 0x80] = .ok (.read 0x010 false)
    ∧ decode Opcodes.standard [0xF1, 0xA0] = .ok (.erase 0x234)
    ∧ decode Opcodes.standard [0xA0, 0x86, 0xF5, 0x68] = .ok (.write 0x010 0xDEAD)
    ∧ decode Opcodes.standard [0xA0, 0x07, 0xFF, 0xF8] = .ok (.write 0x000 0xFFFF)
    ∧ decode Opcodes.standard [0x98, 0x00] = .ok .writeEnable
    ∧ decode Opcodes.standard [0x80, 0x00] = .ok .writeDisable
    ∧ decode Opcodes.standard [0x98] = .error .badLength
    ∧ decode Opcodes.standard [0x90, 0x00] = .error .unknownOpcode
    ∧ decode Opcodes.standard [0xC0, 0x81] = .error .nonzeroPadding
    ∧ decode Opcodes.standard [0x28, 0x21, 0xBD, 0x5A] = .error .unknownOpcode

/-- R133: the four bytes of a WRITE frame at the default shift, byte by byte. -/
def Obligations.WriteFrameBytes : Prop :=
  ∀ (ops : Opcodes) (A D : Nat),
    let a := A % 2 ^ 10
    let d := D % 2 ^ 16
    encode ops 3 (.write A D) =
      [BitVec.ofNat 8 (0xA0 ||| (a >>> 5)), BitVec.ofNat 8 (((a &&& 0x1F) <<< 3) ||| (d >>> 13)),
        BitVec.ofNat 8 ((d >>> 5) &&& 0xFF), BitVec.ofNat 8 ((d &&& 0x1F) <<< 3)]
    ∧ natOfBytes (encode ops 3 (.write A D)) = (0b101 <<< 29) ||| (a <<< 19) ||| (d <<< 3)

/-- R131, R132, R134, R135 for every value of the opcode parameters: the frame as a number, and its two bytes, high byte first. -/
def Obligations.TwoByteFrames : Prop :=
  ∀ (ops : Opcodes) (shift A : Nat) (owned : Bool),
    encode ops shift (.read A owned) = bytesOf 2 ((ops.read.toNat <<< 13) ||| ((A % 2 ^ 10) <<< 3))
    ∧ encode ops shift (.erase A) = bytesOf 2 ((ops.erase.toNat <<< 13) ||| ((A % 2 ^ 10) <<< 3))
    ∧ encode ops shift .writeEnable = bytesOf 2 (ops.writeEnable.toNat <<< 11)
    ∧ encode ops shift .writeDisable = bytesOf 2 (ops.writeDisable.toNat <<< 11)

/-- R93: the WRITE frame at every legal shift, and that the device model knows it at shift 3 only (R71). -/
def Obligations.ShiftedWriteFrame : Prop :=
  ∀ (ops : Opcodes) (shift A D : Nat), shift ≤ 3 →
    encode ops shift (.write A D) =
      bytesOf 4 (((0b101 <<< 26) ||| ((A % 2 ^ 10) <<< 16) ||| (D % 2 ^ 16)) <<< shift)
    ∧ (transactionOf ops (bitsOfBytes (encode ops shift (.write A D))) = none ↔ shift ≠ 3)

/-- R138 (b), (c): frames of instructions that differ, in tag or in an operand a frame carries, differ. -/
def Obligations.DistinctInstructionsHaveDistinctFrames : Prop :=
  ∀ (ops : Opcodes) (i j : Instr), WellFormed i = true → WellFormed j = true →
    encode ops 3 i = encode ops 3 j → i.selfFramed = j.selfFramed

/-- R85, R138 (a): a bit of an operand above its field reaches no frame. -/
def Obligations.EncodeMasksOperands : Prop :=
  ∀ (ops : Opcodes) (shift A D : Nat) (owned : Bool),
    encode ops shift (.read A owned) = encode ops shift (.read (A % 2 ^ 10) owned)
    ∧ encode ops shift (.erase A) = encode ops shift (.erase (A % 2 ^ 10))
    ∧ encode ops shift (.write A D) = encode ops shift (.write (A % 2 ^ 10) (D % 2 ^ 16))

/-! ### The Response Decoder (42_decoder.md) -/

/-- R151: three bytes, offset 1: the source's formula, held in 16 bits. -/
def Obligations.CanonicalDecodeFormula : Prop :=
  ∀ r0 r1 r2 : Byte,
    decodeResponse 1 [r0, r1, r2] =
      .ok (BitVec.ofNat 16 ((r0.toNat <<< 9) ||| (r1.toNat <<< 1) ||| (r2.toNat >>> 7)))

/-- R154, R155: the other offsets the spec names, and the two-byte buffer. -/
def Obligations.OtherOffsetsDecode : Prop :=
  ∀ r0 r1 r2 : Byte,
    decodeResponse 0 [r0, r1, r2] = .ok (r0 ++ r1)
    ∧ decodeResponse 8 [r0, r1, r2] = .ok (r1 ++ r2)
    ∧ decodeResponse 2 [r0, r1, r2] =
        .ok (BitVec.ofNat 16 ((r0.toNat <<< 10) ||| (r1.toNat <<< 2) ||| (r2.toNat >>> 6)))
    ∧ decodeResponse 0 [r0, r1] = .ok (r0 ++ r1)
    ∧ decodeResponse 1 [r0, r1] = .error .rxTooShort
    ∧ decodeResponse 9 [r0, r1, r2] = .error .rxTooShort

/-- R152: the result does not depend on the `off` leading bits nor on any bit after the first `off + 16`. -/
def Obligations.DecodeIgnoresDummyAndGarbageBits : Prop :=
  ∀ (off : Nat) (r r' : List Byte), r.length = r'.length → off + 16 ≤ 8 * r.length →
    ((bitsOfBytes r).drop off).take 16 = ((bitsOfBytes r').drop off).take 16 →
    decodeResponse off r = decodeResponse off r'

/-- R157: DECODE of what the device sends in the response phase of a READ of `a` is `EE[a]`, whatever the draws and the bytes sent meanwhile. -/
def Obligations.DecodeRecoversTheWordTheDeviceSends : Prop :=
  ∀ (s : State) (a : Addr) (tx : List Byte), s.sel = true → s.txs.length = 16 → readAddress s.opcodes s.txs = some a →
    s.dev.rxSkew + 16 ≤ 8 * tx.length →
    decodeResponse s.dev.rxSkew (s.received tx) = .ok (memRead s.ee a)

/-- R65, R207, R270: past the word every received bit is a draw: what the device sends then is the same whatever the array holds. -/
def Obligations.BitsAfterTheWordDoNotShowTheArray : Prop :=
  ∀ (s : State) (m : Memory) (tx : List Byte), 16 + s.dev.rxSkew + 16 ≤ s.txs.length →
    State.received { s with ee := m } tx = s.received tx

/-- R64: a transfer with the device not selected brings back draws only, whatever the device holds, and changes no device state. -/
def Obligations.DeselectedTransferShowsOnlyDraws : Prop :=
  ∀ (s : State) (tx : List Byte), s.sel = false →
    s.received tx = bytesOfBits (drawBits s.draws (8 * tx.length))
    ∧ ∃ t, callXfer tx s = .next t ∧ t.ee = s.ee ∧ t.wel = s.wel ∧ t.busyNs = s.busyNs ∧ t.sel = false ∧ t.txs = s.txs
        ∧ t.idleNs = s.idleNs ∧ t.setupNs = s.setupNs ∧ t.trace = s.trace ++ [.xfer tx (s.received tx)]

/-- R66: a transaction of 32 bits with `T[31:29] = 0b101` and `T[2:0] = 0` is a WRITE: at the `CS(0)` that ends it, with the latch set the
word `T[28:19]` becomes `T[18:3]` and the write cycle starts; with the latch clear nothing does. -/
def Obligations.WriteTransactionAtTheDevice : Prop :=
  ∀ s : State, s.sel = true → s.txs.length = 32 →
    let T := natOfBits s.txs
    T / 2 ^ 29 = 0b101 → T % 2 ^ 3 = 0 →
    ∃ t, deviceFall s = .next t
      ∧ t.ee = (if s.wel then memWrite s.ee (BitVec.ofNat 10 (T / 2 ^ 19)) (BitVec.ofNat 16 (T / 2 ^ 3)) else s.ee)
      ∧ t.busyNs = (if s.wel then 1000000 * s.dev.tWcMs else s.busyNs) ∧ t.wel = s.wel

/-- R67, R68: a transaction of 16 bits with `T[15:13] = OP_ERASE` and `T[2:0] = 0` is an ERASE, and one that is CTL_WRITE_ENABLE over eleven zero
bits is a WRITE_ENABLE; their effects at the `CS(0)` that ends them. CTL_WRITE_DISABLE likewise (R69). The erased word is 0xFFFF at reset.
That the effect and the cycle's start fall at this `CS(0)` is the spec's decision, taken over by the model (log 23). -/
def Obligations.EraseAndLatchTransactionsAtTheDevice : Prop :=
  State.reset.dev.erasedWord = 0xFFFF ∧
  ∀ s : State, s.sel = true → s.txs.length = 16 →
    let T := natOfBits s.txs
    (T / 2 ^ 13 = s.opcodes.erase.toNat → T % 2 ^ 3 = 0 →
      ∃ t, deviceFall s = .next t
        ∧ t.ee = (if s.wel then memWrite s.ee (BitVec.ofNat 10 (T / 2 ^ 3)) s.dev.erasedWord else s.ee)
        ∧ t.busyNs = (if s.wel then 1000000 * s.dev.tEcMs else s.busyNs) ∧ t.wel = s.wel)
    ∧ (T = s.opcodes.writeEnable.toNat * 2 ^ 11 →
      deviceFall s = .next { s with wel := true, sel := false, txs := [], secondFrame := false, sentMarks := [], idleNs := 0 })
    ∧ (T = s.opcodes.writeDisable.toNat * 2 ^ 11 →
      deviceFall s = .next { s with wel := false, sel := false, txs := [], secondFrame := false, sentMarks := [], idleNs := 0 })

/-! ### The framer (40_framer.md) -/

/-- R110: BEGIN_TXN from a ready line: its four events, the line asserted, a fresh transaction open; nothing else of the device changes. -/
def Obligations.BeginTxnOpensATransaction : Prop :=
  ∀ s : State, Startable s → LineReady s →
    ∃ t, execBeginTxn s = .next t ∧ t.phase = .idle ∧ t.csOut = .asserted ∧ t.trace = s.trace ++ beginEvents s.cfg
      ∧ t.sel = true ∧ t.txs = [] ∧ t.setupNs = s.cfg.tCssNs ∧ t.ee = s.ee ∧ t.wel = s.wel
      ∧ t.addr = s.addr ∧ t.wdata = s.wdata ∧ t.owned = s.owned ∧ t.rdata = s.rdata
      ∧ t.txbuf = s.txbuf ∧ t.txlen = s.txlen ∧ t.rxbuf = s.rxbuf ∧ t.cfg = s.cfg

/-- R111, R71: END_TXN with no bit clocked into an open transaction, or none open: its two events, the line deasserted, no effect on the array
or the latch. -/
def Obligations.EndTxnOfAnEmptyTransaction : Prop :=
  ∀ s : State, Startable s → (s.sel = true → s.txs = []) →
    ∃ t, execEndTxn s = .next t ∧ t.phase = .idle ∧ t.csOut = .deasserted ∧ t.trace = s.trace ++ endEvents s.cfg
      ∧ t.sel = false ∧ t.ee = s.ee ∧ t.wel = s.wel ∧ t.busyNs = s.busyNs - s.cfg.tCshNs

/-! ### The sequencers: results (43_sequencers.md) -/

/-- R171: a self-framed READ runs to its end with the events of R178; `RDATA` is DECODE of what was received, and the addressed word when the
receive offset is the device's; it changes nothing in the device. -/
def Obligations.ReadReturnsTheAddressedWord : Prop :=
  ∀ (s : State) (A : Nat), Ready s →
    ∃ (t : State) (rx rx' : List Byte), exec (.read A false) s = .next t
      ∧ decodeResponse s.cfg.rxAlignOffset rx' = .ok t.rdata
      ∧ (s.cfg.rxAlignOffset = s.dev.rxSkew → t.rdata = memRead s.ee (maskAddr A))
      ∧ t.trace = s.trace ++ beginEvents s.cfg
          ++ [.xfer (encode s.opcodes s.cfg.writeShift (.read A false)) rx, .recv s.cfg.rxBytes rx'] ++ endEvents s.cfg
      ∧ rx.length = 2 ∧ rx'.length = s.cfg.rxBytes ∧ t.rxbuf = rx' ∧ t.op = .read ∧ t.addr = maskAddr A ∧ t.owned = false
      ∧ t.txlen = 2 ∧ t.txBytes = encode s.opcodes s.cfg.writeShift (.read A false)
      ∧ t.phase = .idle ∧ t.csOut = .deasserted ∧ t.sel = false ∧ t.ee = s.ee ∧ t.wel = s.wel ∧ t.busyNs = 0

/-- R176: a caller-framed READ in a fresh transaction emits the transfer and the receive and nothing else, leaves the transaction open, and
returns the addressed word when the receive offset is the device's. -/
def Obligations.CallerFramedReadReturnsTheWord : Prop :=
  ∀ (s : State) (A : Nat), Startable s → s.fatalIn = none → FreshTransaction s →
    ∃ (t : State) (rx rx' : List Byte), exec (.read A true) s = .next t
      ∧ decodeResponse s.cfg.rxAlignOffset rx' = .ok t.rdata
      ∧ (s.cfg.rxAlignOffset = s.dev.rxSkew → t.rdata = memRead s.ee (maskAddr A))
      ∧ t.trace = s.trace ++ [.xfer (encode s.opcodes s.cfg.writeShift (.read A true)) rx, .recv s.cfg.rxBytes rx']
      ∧ t.rxbuf = rx' ∧ t.op = .read ∧ t.addr = maskAddr A ∧ t.owned = true ∧ t.phase = .idle
      ∧ t.csOut = s.csOut ∧ t.sel = true ∧ t.ee = s.ee ∧ t.wel = s.wel

/-- R176, R64: a caller-framed READ with the device not selected still runs to its end with its two events; its result is DECODE of draws, and no
state of the device changes. -/
def Obligations.CallerFramedReadWithoutATransaction : Prop :=
  ∀ (s : State) (A : Nat), Startable s → s.fatalIn = none → s.sel = false →
    ∃ (t : State) (rx : List Byte) (d : Nat), exec (.read A true) s = .next t
      ∧ decodeResponse s.cfg.rxAlignOffset (bytesOfBits (drawBits d (8 * s.cfg.rxBytes))) = .ok t.rdata
      ∧ t.trace = s.trace ++ [.xfer (encode s.opcodes s.cfg.writeShift (.read A true)) rx,
          .recv s.cfg.rxBytes (bytesOfBits (drawBits d (8 * s.cfg.rxBytes)))]
      ∧ rx.length = 2 ∧ t.phase = .idle ∧ t.csOut = s.csOut ∧ t.sel = false ∧ t.txs = s.txs ∧ t.ee = s.ee ∧ t.wel = s.wel
      ∧ t.busyNs = s.busyNs ∧ t.idleNs = s.idleNs ∧ t.setupNs = s.setupNs

/-- R176, R269: `BEGIN_TXN; READ(A, 1); END_TXN` is event for event the trace of `READ(A, 0)`, and returns the same word. -/
def Obligations.CallerFramedTraceEqualsSelfFramedTrace : Prop :=
  ∀ (s : State) (A : Nat), Ready s →
    ∃ b r e t, execBeginTxn s = .next b ∧ exec (.read A true) b = .next r ∧ execEndTxn r = .next e
      ∧ exec (.read A false) s = .next t ∧ e.trace = t.trace ∧ e.rdata = t.rdata ∧ e.ee = t.ee ∧ e.wel = t.wel

/-- R172, R66: WRITE runs to its end with its events, cycle wait included, latch set or not; with the latch set the addressed word is the data and
no other word changes, with the latch clear nothing changes. -/
def Obligations.WriteStoresTheWordIfTheLatchIsSet : Prop :=
  ∀ (s : State) (A D : Nat), Ready s → s.cfg.writeShift = 3 →
    ∃ (t : State) (rx : List Byte), exec (.write A D) s = .next t
      ∧ (∀ b, memRead t.ee b = if s.wel = true ∧ b = maskAddr A then maskData D else memRead s.ee b)
      ∧ (s.wel = false → t.ee = s.ee)
      ∧ t.trace = s.trace ++ beginEvents s.cfg ++ [.xfer (encode s.opcodes 3 (.write A D)) rx] ++ endEvents s.cfg
          ++ [.waitMs s.cfg.tWcMs]
      ∧ rx.length = 4 ∧ t.op = .write ∧ t.addr = maskAddr A ∧ t.wdata = maskData D
      ∧ t.txlen = 4 ∧ t.txBytes = encode s.opcodes 3 (.write A D)
      ∧ t.phase = .idle ∧ t.csOut = .deasserted ∧ t.sel = false ∧ t.wel = s.wel
      ∧ t.busyNs = (if s.wel then 1000000 * s.dev.tWcMs else 0) - s.cfg.tCshNs - 1000000 * s.cfg.tWcMs

/-- R173, R67: ERASE likewise, with `DEV.ERASED_WORD` and the erase cycle. -/
def Obligations.EraseSetsTheErasedWordIfTheLatchIsSet : Prop :=
  ∀ (s : State) (A : Nat), Ready s →
    ∃ (t : State) (rx : List Byte), exec (.erase A) s = .next t
      ∧ (∀ b, memRead t.ee b = if s.wel = true ∧ b = maskAddr A then s.dev.erasedWord else memRead s.ee b)
      ∧ (s.wel = false → t.ee = s.ee)
      ∧ t.trace = s.trace ++ beginEvents s.cfg ++ [.xfer (encode s.opcodes s.cfg.writeShift (.erase A)) rx] ++ endEvents s.cfg
          ++ [.waitMs s.cfg.tEcMs]
      ∧ rx.length = 2 ∧ t.op = .erase ∧ t.addr = maskAddr A
      ∧ t.txlen = 2 ∧ t.txBytes = encode s.opcodes s.cfg.writeShift (.erase A)
      ∧ t.phase = .idle ∧ t.csOut = .deasserted ∧ t.sel = false ∧ t.wel = s.wel
      ∧ t.busyNs = (if s.wel then 1000000 * s.dev.tEcMs else 0) - s.cfg.tCshNs - 1000000 * s.cfg.tEcMs

/-- R231: an address of any width acts as its low ten bits and a data value of any width as its low sixteen; neither is checked, reported or
rejected. -/
def Obligations.OperandsAreMaskedNeverRejected : Prop :=
  ∀ (s : State) (A D : Nat) (owned : Bool),
    exec (.read A owned) s = exec (.read (A % 2 ^ 10) owned) s
    ∧ exec (.erase A) s = exec (.erase (A % 2 ^ 10)) s
    ∧ exec (.write A D) s = exec (.write (A % 2 ^ 10) (D % 2 ^ 16)) s

/-- R174, R68: WRITE_ENABLE runs to its end with its seven events and sets the latch, whatever it was; the array stays. -/
def Obligations.WriteEnableSetsTheLatch : Prop :=
  ∀ s : State, Ready s →
    ∃ (t : State) (rx : List Byte), exec .writeEnable s = .next t ∧ t.wel = true ∧ t.ee = s.ee ∧ t.busyNs = 0
      ∧ t.trace = s.trace ++ beginEvents s.cfg ++ [.xfer (encode s.opcodes s.cfg.writeShift .writeEnable) rx] ++ endEvents s.cfg
      ∧ rx.length = 2 ∧ t.op = .writeEnable ∧ t.txlen = 2 ∧ t.txBytes = encode s.opcodes s.cfg.writeShift .writeEnable
      ∧ t.phase = .idle ∧ t.csOut = .deasserted ∧ t.sel = false

/-- R175, R69: WRITE_DISABLE likewise, and clears the latch. -/
def Obligations.WriteDisableClearsTheLatch : Prop :=
  ∀ s : State, Ready s →
    ∃ (t : State) (rx : List Byte), exec .writeDisable s = .next t ∧ t.wel = false ∧ t.ee = s.ee ∧ t.busyNs = 0
      ∧ t.trace = s.trace ++ beginEvents s.cfg ++ [.xfer (encode s.opcodes s.cfg.writeShift .writeDisable) rx] ++ endEvents s.cfg
      ∧ rx.length = 2 ∧ t.op = .writeDisable ∧ t.txlen = 2 ∧ t.txBytes = encode s.opcodes s.cfg.writeShift .writeDisable
      ∧ t.phase = .idle ∧ t.csOut = .deasserted ∧ t.sel = false

/-! ### The sequencers: frames -/

/-- What READ leaves as it was (R171, R65), whenever it answers a next state: WDATA, CFG and everything outside the block; and, once it has
returned (`t.phase = .idle`; of the device after a transfer that never returns nothing is claimed, R232), every byte of the array outside the
words of a transaction that BEGIN_TXN's first deassert may end (R110 b), and all of array and latch when no bit was clocked into an open
transaction or the READ is caller-framed. -/
def Obligations.ReadLeavesTheRest : Prop :=
  ∀ (s t : State) (A : Nat) (owned : Bool), exec (.read A owned) s = .next t →
    t.wdata = s.wdata ∧ t.cfg = s.cfg ∧ t.dev = s.dev ∧ t.opcodes = s.opcodes ∧ t.pending = s.pending
    ∧ t.hostWords = s.hostWords ∧ t.hostText = s.hostText
    ∧ (owned = true → t.csOut = s.csOut)
    ∧ (t.phase = .idle → owned = true →
        t.sel = s.sel ∧ t.idleNs = s.idleNs ∧ t.busyNs = s.busyNs ∧ t.cycleAddr = s.cycleAddr)
    ∧ (t.phase = .idle → ∀ k, Outside s.transactionWord k → Memory.read t.ee k = Memory.read s.ee k)
    ∧ (t.phase = .idle → ((s.sel = true → s.txs = []) ∨ owned = true) → t.ee = s.ee ∧ t.wel = s.wel)

/-- What WRITE leaves as it was (R172, R66): OWNED, RDATA, RXBUF, CFG and everything outside the block; and, once it has returned (R232), every byte
of the array outside the addressed word and the words of a transaction that BEGIN_TXN's first deassert may end, and the latch when no bit was
clocked into an open transaction. -/
def Obligations.WriteLeavesTheRest : Prop :=
  ∀ (s t : State) (A D : Nat), exec (.write A D) s = .next t →
    t.owned = s.owned ∧ t.rdata = s.rdata ∧ t.rxbuf = s.rxbuf ∧ t.cfg = s.cfg ∧ t.dev = s.dev ∧ t.opcodes = s.opcodes
    ∧ t.pending = s.pending ∧ t.hostWords = s.hostWords ∧ t.hostText = s.hostText
    ∧ (t.phase = .idle → ∀ k, Outside (maskAddr A :: s.transactionWord) k → Memory.read t.ee k = Memory.read s.ee k)
    ∧ (t.phase = .idle → (s.sel = true → s.txs = []) → t.wel = s.wel ∧ (s.wel = false → t.ee = s.ee))

/-- What ERASE leaves as it was (R173, R67), as WRITE does, and WDATA too. -/
def Obligations.EraseLeavesTheRest : Prop :=
  ∀ (s t : State) (A : Nat), exec (.erase A) s = .next t →
    t.wdata = s.wdata ∧ t.owned = s.owned ∧ t.rdata = s.rdata ∧ t.rxbuf = s.rxbuf ∧ t.cfg = s.cfg ∧ t.dev = s.dev
    ∧ t.opcodes = s.opcodes ∧ t.pending = s.pending ∧ t.hostWords = s.hostWords ∧ t.hostText = s.hostText
    ∧ (t.phase = .idle → ∀ k, Outside (maskAddr A :: s.transactionWord) k → Memory.read t.ee k = Memory.read s.ee k)
    ∧ (t.phase = .idle → (s.sel = true → s.txs = []) → t.wel = s.wel ∧ (s.wel = false → t.ee = s.ee))

/-- What WRITE_ENABLE and WRITE_DISABLE leave as it was (R174, R175, R68, R69): every operand and result register, CFG, and, once they have returned
(R232), every byte of the array outside the words of a transaction that BEGIN_TXN's first deassert may end. -/
def Obligations.LatchCommandsLeaveTheRest : Prop :=
  ∀ (s t : State) (i : Instr), i = .writeEnable ∨ i = .writeDisable → exec i s = .next t →
    t.addr = s.addr ∧ t.wdata = s.wdata ∧ t.owned = s.owned ∧ t.rdata = s.rdata ∧ t.rxbuf = s.rxbuf ∧ t.cfg = s.cfg
    ∧ t.dev = s.dev ∧ t.opcodes = s.opcodes ∧ t.pending = s.pending ∧ t.hostWords = s.hostWords ∧ t.hostText = s.hostText
    ∧ (t.phase = .idle → ∀ k, Outside s.transactionWord k → Memory.read t.ee k = Memory.read s.ee k)
    ∧ (t.phase = .idle → (s.sel = true → s.txs = []) → t.ee = s.ee)

/-! ### The sequencers: where they stop -/

/-- R114: under any bit order but MSB_FIRST every command is refused. -/
def Obligations.OtherBitOrderIsRefused : Prop :=
  ∀ (s : State) (c : Command), s.phase = .idle → s.cfg.bitOrder ≠ .msbFirst → runCommand c s = .refused .bitOrder

/-- R33, R170: an illegal configuration is refused before the first step of any command: WRITE_SHIFT above 3, RX_BYTES not 2 or 3, or a buffer
too short for offset and word. -/
def Obligations.IllegalConfigurationIsRefused : Prop :=
  ∀ (s : State) (c : Command), s.phase = .idle → s.cfg.bitOrder = .msbFirst →
    (3 < s.cfg.writeShift ∨ (s.cfg.rxBytes ≠ 2 ∧ s.cfg.rxBytes ≠ 3) ∨ 8 * s.cfg.rxBytes < s.cfg.rxAlignOffset + 16) →
    runCommand c s = .refused .badConfig

/-- R26, R177: a command cannot be started while another is in progress. -/
def Obligations.CommandInProgressRefusesAnother : Prop :=
  ∀ (s : State) (c : Command), s.phase ≠ .idle → runCommand c s = .refused .busyBlock

/-- R93, R71: a WRITE framed with a shift below 3 is a transaction the device model does not know. -/
def Obligations.ShiftedWriteIsUnknown : Prop :=
  ∀ (s : State) (A D : Nat), Ready s → s.cfg.writeShift ≠ 3 → exec (.write A D) s = .refused .unknownTransaction

/-- R70, R64: a self-framed command that meets the device's cycle still running after its hold wait is refused. -/
def Obligations.BusyDeviceIsRefused : Prop :=
  ∀ (s : State) (i : Instr), Startable s → (s.sel = true → s.txs = []) → s.cfg.tCshNs < s.busyNs →
    exec i.selfFramed s = .refused .deviceBusy

/-- R271, R64: a self-framed command whose hold wait, with the time already passed deselected, is below the device's minimum is refused; so is one
whose setup wait is. -/
def Obligations.ShortWaitsAreRefused : Prop :=
  ∀ (s : State) (i : Instr), Startable s → (s.sel = true → s.txs = []) → s.busyNs ≤ s.cfg.tCshNs →
    ((if s.sel then 0 else s.idleNs) + s.cfg.tCshNs < s.dev.tCshNs → exec i.selfFramed s = .refused .csHoldViolated)
    ∧ (s.dev.tCshNs ≤ (if s.sel then 0 else s.idleNs) + s.cfg.tCshNs → s.cfg.tCssNs < s.dev.tCssNs → s.fatalIn = none →
        exec i.selfFramed s = .refused .csSetupViolated)

/-- R275, R176 (log 11): a second caller-framed READ in one transaction runs, and the deassert that ends the transaction is refused, if some byte of
the second frame is no fill byte. A frame all of fill bytes cannot be told from received bytes, since a RECV is an XFER of them (R64), and the
transaction ends as a READ (R65); at the default fill 0x00 no READ frame is one. -/
def Obligations.SecondFrameInATransactionIsRefused : Prop :=
  ∀ (s : State) (A B : Nat), Startable s → s.fatalIn = none → FreshTransaction s →
    let second := encode s.opcodes s.cfg.writeShift (.read B true)
    ∃ r u, exec (.read A true) s = .next r ∧ exec (.read B true) r = .next u
      ∧ ((∃ b ∈ second, b ≠ s.cfg.recvFill) → execEndTxn u = .refused .unknownTransaction)
      ∧ (s.secondFrame = false → (∀ b ∈ second, b = s.cfg.recvFill) → ∃ e, execEndTxn u = .next e ∧ e.ee = s.ee ∧ e.wel = s.wel)

/-- R232: a self-framed command whose transfer never returns stays at its step TX for ever: PHASE is not IDLE, the trace shows BEGIN_TXN's events and
no transfer (log 22), and whatever the host asks for next, or if it asks for nothing, a step leaves the machine as it is. Only a reset of the
block or a power cycle of the device moves it (log 18). Of the device nothing is claimed. -/
def Obligations.CommandStuckAtItsTransfer : Prop :=
  ∀ (s : State) (i : Instr), Startable s → LineReady s → s.fatalIn = some 0 →
    (∀ r rest, s.pending = r :: rest → fromOutside r = false) →
    ∃ t, exec i.selfFramed s = .next t ∧ t.phase = .tx ∧ t.pending = s.pending ∧ t.trace = s.trace ++ beginEvents s.cfg
      ∧ step t = .next t

/-! ### One command after another (R72, R180, R234) -/

/-- R180 (b): `write(a, w); read(a) == w`, with the latch set. -/
def Obligations.WriteThenReadReturnsTheWord : Prop :=
  ∀ (s : State) (A D : Nat), Ready s → Calibrated s → s.wel = true →
    ∃ t u, exec (.write A D) s = .next t ∧ exec (.read A false) t = .next u ∧ u.rdata = maskData D

/-- R180 (c): after `erase(a)`, `read(a)` is the erased word, with the latch set. -/
def Obligations.EraseThenReadReturnsTheErasedWord : Prop :=
  ∀ (s : State) (A : Nat), Ready s → Calibrated s → s.wel = true →
    ∃ t u, exec (.erase A) s = .next t ∧ exec (.read A false) t = .next u ∧ u.rdata = s.dev.erasedWord

/-- R180 (a), R234: self-framed commands, any number of them, meet no refusal, for every draw: after as many steps as there are commands the
requests are done and the machine is ready for more. -/
def Obligations.SelfFramedCommandsMeetNoRefusal : Prop :=
  ∀ (commands : List Instr) (s : State), Ready s → Calibrated s →
    s.pending = commands.map (fun i => .command (.instr i.selfFramed)) →
    ∃ t, Sys2Proof.core.run commands.length s = .next t ∧ t.pending = [] ∧ Ready t ∧ Calibrated t

/-- R72, R239: over any self-framed commands, from any ready state, the array and the latch are what the commands, taken one after another with no frames at
all, make of them; so a READ returns the value of the latest WRITE or ERASE of its address that took effect. -/
def Obligations.CommandsRefineTheArrayWithALatch : Prop :=
  ∀ (commands : List Instr) (A : Nat) (s : State), Ready s → Calibrated s →
    s.pending = (commands ++ [Instr.read A false]).map (fun i => .command (.instr i.selfFramed)) →
    ∃ t, Sys2Proof.core.run (commands.length + 1) s = .next t
      ∧ viewOf t = commands.foldl (View.after s.dev.erasedWord) (viewOf s)
      ∧ t.rdata = (commands.foldl (View.after s.dev.erasedWord) (viewOf s)).array (maskAddr A)

/-- R239, R31: with no bit clocked into an open transaction, no command that has returned sets the latch but WRITE_ENABLE, and none clears it but
WRITE_DISABLE (of the device after a command that never returns nothing is claimed, R232). -/
def Obligations.OnlyTheLatchCommandsMoveTheLatch : Prop :=
  ∀ (s t : State) (c : Command), (s.sel = true → s.txs = []) → runCommand c s = .next t → t.phase = .idle →
    (s.wel = false → t.wel = true → c = .instr .writeEnable) ∧ (s.wel = true → t.wel = false → c = .instr .writeDisable)

/-! ### The step -/

/-- A step runs the decoded instruction (log 1, log 15): placing a table word that decodes makes the next step `exec` of its instruction, with
the block idle and the requests as they were. -/
def Obligations.StepRunsTheDecodedInstruction : Prop :=
  ∀ (s : State) (nbits w : Nat) (i : Instr), decodeTableWord nbits w = some i →
    step (s.withFetchWord nbits w) = exec i (s.setPhase .idle)

/-- R26, R177 (log 1): an idle block runs the host's next command; a command in progress makes the host wait; with no request the machine waits
as it is (R262). -/
def Obligations.StepServesTheNextCommand : Prop :=
  ∀ (s : State) (c : Command) (rest : List Request), s.pending = .command c :: rest →
    (s.phase = .idle → step s = runCommand c { s with pending := rest })
    ∧ (s.phase ≠ .idle → step s = .next s)
    ∧ step { s with pending := [] } = .next { s with pending := [] }

/-- R33, R268 (log 1): the host sets CFG between commands, and nothing else changes. Two clauses of it are the model's choice: RXBUF is as before
whatever CFG.RX_BYTES becomes (log 28, unsafe; R28 also makes it CFG.RX_BYTES bytes), and an illegal CFG is taken as it is and refused only when a
command starts (log 7). -/
def Obligations.StepSetsTheConfiguration : Prop :=
  ∀ (s : State) (cfg : Cfg) (rest : List Request), s.pending = .configure cfg :: rest → s.phase = .idle →
    step s = .next { s with cfg := cfg, pending := rest }

/-- R13, R177: no step but a reset of the block takes anything out of the trace: each appends its calls to it. -/
def Obligations.StepsOnlyAppendToTheTrace : Prop :=
  ∀ s t : State, step s = .next t → (∀ cfg rest, s.pending ≠ .blockReset cfg :: rest) → ∃ events, t.trace = s.trace ++ events

/-! ### Reset and power (70_reset_and_hazards.md) -/

/-- R40, R260, R261: what reset leaves, where the spec gives a value. -/
def Obligations.ResetLeavesTheStatedValues : Prop :=
  State.reset.phase = .idle ∧ State.reset.csOut = .unknown ∧ State.reset.cfg = Cfg.standard ∧ State.reset.trace = []
    ∧ State.reset.wel = false ∧ State.reset.busyNs = 0 ∧ State.reset.txs = [] ∧ State.reset.rxsPos = 0 ∧ State.reset.idleNs = 0
    ∧ State.reset.setupNs = 0 ∧ Config.seqReadSupported = false ∧ State.reset.ee = []

/-- R260 (log 18): a reset of the block between commands clears the trace, makes CS_OUT unknown and PHASE IDLE, takes CFG from the host, and
changes nothing in the device. -/
def Obligations.BlockResetChangesNothingInTheDevice : Prop :=
  ∀ (s : State) (cfg : Cfg) (rest : List Request), s.pending = .blockReset cfg :: rest → s.phase = .idle →
    ∃ t, step s = .next t ∧ t.phase = .idle ∧ t.csOut = .unknown ∧ t.trace = [] ∧ t.cfg = cfg
      ∧ t.ee = s.ee ∧ t.wel = s.wel ∧ t.busyNs = s.busyNs ∧ t.sel = s.sel ∧ t.txs = s.txs ∧ t.idleNs = s.idleNs
      ∧ t.setupNs = s.setupNs ∧ t.dev = s.dev ∧ t.opcodes = s.opcodes ∧ t.pending = rest

/-- R244, R261, R281 (log 18): a power cycle of the device clears the latch and keeps every word but those a command, a cycle or a transaction it cuts
off was about to write. -/
def Obligations.PowerCycleClearsTheLatchAndKeepsTheArray : Prop :=
  ∀ (s : State) (rest : List Request), s.pending = .powerCycle :: rest →
    ∃ t, step s = .next t ∧ t.wel = false ∧ t.busyNs = 0 ∧ t.txs = [] ∧ t.sel = s.sel ∧ t.phase = s.phase ∧ t.trace = s.trace
      ∧ (∀ k, Outside (s.commandWord ++ s.cycleWord ++ s.transactionWord) k → Memory.read t.ee k = Memory.read s.ee k)

/-! ### The invariant -/

/-- The invariant holds at reset. The values of TXLEN and RXBUF there are the model's choice (log 5), and so is DEV.SEL (log 6). -/
def Obligations.ResetMeetsTheInvariant : Prop := Invariant State.reset

/-- R26, R27, R28, R37, the canonical form of the array (log 4) and one mark for each byte clocked in (log 11): every step keeps the invariant. -/
def Obligations.EveryStepKeepsTheInvariant : Prop :=
  ∀ s t : State, Invariant s → step s = .next t → Invariant t

/-! ### The Bulk Operations (44_bulk_macros.md) -/

/-- R210: two characters in a word, the earlier in the high byte; unpacking them; and the source's own example. -/
def Obligations.CharacterPacking : Prop :=
  (∀ c0 c1 : Byte, (packPair c0 c1).toNat = (c0.toNat <<< 8) ||| c1.toNat
    ∧ (packPair c0 c1).extractLsb' 8 8 = c0 ∧ (packPair c0 c1).extractLsb' 0 8 = c1)
  ∧ packText [0x48, 0x69, 0x20, 0x4E, 0x43] = [0x4869, 0x204E, 0x4300]

/-- R201, R208: `write_buffer` with the latch set puts word `i` at `start + i` masked, and leaves every other word, for a buffer no longer than
the array. For a range that passes 0x3FF the wrap to word 0 is the spec's inference (D18), taken over by the model (log 25, unsafe). -/
def Obligations.WriteBufferWritesEveryWord : Prop :=
  ∀ (s : State) (start : Nat) (words : List Word), Ready s → Calibrated s → s.wel = true → words.length ≤ 1024 →
    ∃ t, execWriteBuffer start words s = .next t ∧ Ready t
      ∧ (∀ (i : Nat) (h : i < words.length), memRead t.ee (maskAddr (start + i)) = words[i])
      ∧ (∀ a, (∀ i < words.length, a ≠ maskAddr (start + i)) → memRead t.ee a = memRead s.ee a)

/-- R202, R208: `read_range` returns the words at `start + i` masked, `count` of them, and leaves the array and the latch. For a range that passes
0x3FF the wrap to word 0 is the spec's inference (D18), taken over by the model (log 25, unsafe). -/
def Obligations.ReadRangeReturnsTheWords : Prop :=
  ∀ (s : State) (start count : Nat), Ready s → Calibrated s →
    ∃ t, execReadRange start count s = .next t ∧ Ready t ∧ t.ee = s.ee ∧ t.wel = s.wel
      ∧ t.hostWords = (List.range count).map fun i => memRead s.ee (maskAddr (start + i))

/-- R203, R204: `copy_out` then `copy_in` with the latch set leaves every word as it was. -/
def Obligations.CopyOutThenCopyInRestoresTheArray : Prop :=
  ∀ (s : State), Ready s → Calibrated s → s.wel = true →
    ∃ t, execCopyOut s = .next t ∧ t.hostWords.length = 1024
      ∧ ∀ buffer : Vector Word 1024, buffer.toList = t.hostWords →
          ∃ u, execCopyIn buffer t = .next u ∧ ∀ a, memRead u.ee a = memRead s.ee a

/-- R205, R206: with the latch set, `read_string` with room for the text and its terminator returns what `write_string` wrote, for a text without
0x00 that fits the array with its terminator. For texts of even length it rests on the terminator word of D19, and for a range that passes 0x3FF
on the wrap of D18, both taken over by the model (log 25, unsafe). -/
def Obligations.ReadStringReturnsWhatWriteStringWrote : Prop :=
  ∀ (s : State) (start maxLength : Nat) (text : List Byte), Ready s → Calibrated s → s.wel = true →
    (∀ c ∈ text, c ≠ 0x00) → text.length < 2048 → text.length < maxLength →
    ∃ t u, execWriteString start text s = .next t ∧ execReadString start maxLength t = .next u
      ∧ u.hostText = text ∧ u.textBuffer = text ++ [0x00]

/-- R206: whatever the array holds, `read_string` leaves a text without 0x00 that its buffer has room for, terminator included. -/
def Obligations.ReadStringNeverOverrunsItsBuffer : Prop :=
  ∀ (s : State) (start maxLength : Nat), Ready s → Calibrated s → 0 < maxLength →
    ∃ t, execReadString start maxLength s = .next t ∧ Ready t ∧ t.ee = s.ee
      ∧ t.textBuffer.length ≤ maxLength ∧ ∀ c ∈ t.hostText, c ≠ 0x00

/-- R206, R207: `read_string` without room for the terminator and any sequential read are refused. -/
def Obligations.ImpossibleBulkRequestsAreRefused : Prop :=
  ∀ (s : State) (start count : Nat),
    execReadString start 0 s = .refused .noRoomForTerminator ∧ execSeqRead start count s = .refused .seqRead
end

