-- ==== Sys2Proof/Laws/Bits.lean ====
section
/-! SUPPORT. The laws of bits, bytes and frames: bit sequences and numbers stand for each other, and each frame format gives back its
fields. -/

namespace Sys2Proof

/-! ### Bits and numbers -/

@[simp] theorem bitsOf_length (n v : Nat) : (bitsOf n v).length = n := by
  induction n with
  | zero => rfl
  | succ n ih => simp [bitsOf, ih]

theorem foldl_bits (bits : List Bool) (acc : Nat) :
    bits.foldl (fun acc b => 2 * acc + b.toNat) acc = acc * 2 ^ bits.length + natOfBits bits := by
  induction bits generalizing acc with
  | nil => simp [natOfBits]
  | cons b bits ih =>
    simp only [natOfBits, List.foldl_cons, List.length_cons]
    rw [ih, ih (2 * 0 + b.toNat)]
    ring

theorem natOfBits_cons (b : Bool) (bits : List Bool) :
    natOfBits (b :: bits) = b.toNat * 2 ^ bits.length + natOfBits bits := by
  rw [natOfBits, List.foldl_cons, foldl_bits]; simp

theorem natOfBits_append (xs ys : List Bool) :
    natOfBits (xs ++ ys) = natOfBits xs * 2 ^ ys.length + natOfBits ys := by
  rw [natOfBits, List.foldl_append, foldl_bits]; rfl

theorem natOfBits_lt (bits : List Bool) : natOfBits bits < 2 ^ bits.length := by
  induction bits with
  | nil => simp [natOfBits]
  | cons b bits ih =>
    rw [natOfBits_cons, List.length_cons, pow_succ]
    cases b <;> simp <;> omega

theorem natOfBits_bitsOf (n v : Nat) : natOfBits (bitsOf n v) = v % 2 ^ n := by
  induction n with
  | zero => simp [bitsOf, natOfBits, Nat.mod_one]
  | succ n ih =>
    rw [bitsOf, natOfBits_cons, ih, bitsOf_length, Nat.testBit_eq_decide_div_mod_eq, pow_succ, Nat.mod_mul]
    rcases Nat.mod_two_eq_zero_or_one (v / 2 ^ n) with h | h <;> simp [h]
    ring

theorem bitsOf_natOfBits (bits : List Bool) : bitsOf bits.length (natOfBits bits) = bits := by
  have key : ∀ (bits : List Bool) (n h : Nat), n = bits.length → bitsOf n (h * 2 ^ n + natOfBits bits) = bits := by
    intro bits
    induction bits with
    | nil => rintro n h rfl; rfl
    | cons b bits ih =>
      rintro n h rfl
      have hlt := natOfBits_lt bits
      have hb : h * 2 ^ (bits.length + 1) + natOfBits (b :: bits)
          = (2 * h + b.toNat) * 2 ^ bits.length + natOfBits bits := by
        rw [natOfBits_cons, pow_succ]; ring
      rw [List.length_cons, hb, bitsOf, ih _ _ rfl, Nat.testBit_eq_decide_div_mod_eq,
        Nat.mul_comm, Nat.mul_add_div (by positivity), Nat.div_eq_of_lt hlt]
      cases b <;> simp
  simpa using key bits bits.length 0 rfl

theorem bitsOf_mod (n v : Nat) : bitsOf n (v % 2 ^ n) = bitsOf n v := by
  have h := bitsOf_natOfBits (bitsOf n v)
  rwa [bitsOf_length, natOfBits_bitsOf] at h

theorem natOfBits_inj {xs ys : List Bool} (hl : xs.length = ys.length) (h : natOfBits xs = natOfBits ys) : xs = ys := by
  rw [← bitsOf_natOfBits xs, ← bitsOf_natOfBits ys, hl, h]

theorem bitsOf_append (m n v : Nat) : bitsOf (m + n) v = bitsOf m (v >>> n) ++ bitsOf n v := by
  induction m with
  | zero => simp [bitsOf]
  | succ m ih => rw [Nat.succ_add, bitsOf, bitsOf, ih]; simp [Nat.testBit_shiftRight, Nat.add_comm]

theorem getElem_bitsOf (n v i : Nat) (h : i < n) : (bitsOf n v)[i]'(by simpa using h) = v.testBit (n - 1 - i) := by
  induction n generalizing i with
  | zero => omega
  | succ n ih =>
    cases i with
    | zero => simp [bitsOf]
    | succ i =>
      have := ih i (by omega)
      simp only [bitsOf, List.getElem_cons_succ, this]
      congr 1; omega

/-! ### Bits and bytes -/

theorem ofNat_natOfBits_bitsOf {n : Nat} (v : BitVec n) : BitVec.ofNat n (natOfBits (bitsOf n v.toNat)) = v := by
  rw [natOfBits_bitsOf]; simp

@[simp] theorem bytesOf_length (n v : Nat) : (bytesOf n v).length = n := by
  induction n with
  | zero => rfl
  | succ n ih => simp [bytesOf, ih]

@[simp] theorem bitsOfBytes_nil : bitsOfBytes [] = [] := rfl

theorem bitsOfBytes_cons (b : Byte) (bytes : List Byte) : bitsOfBytes (b :: bytes) = bitsOf 8 b.toNat ++ bitsOfBytes bytes := rfl

theorem bitsOfBytes_append (xs ys : List Byte) : bitsOfBytes (xs ++ ys) = bitsOfBytes xs ++ bitsOfBytes ys := by
  simp [bitsOfBytes]

@[simp] theorem bitsOfBytes_length (bytes : List Byte) : (bitsOfBytes bytes).length = 8 * bytes.length := by
  induction bytes with
  | nil => rfl
  | cons b bytes ih => rw [bitsOfBytes_cons, List.length_append, ih, bitsOf_length, List.length_cons]; omega

theorem bitsOfBytes_bytesOf (n v : Nat) : bitsOfBytes (bytesOf n v) = bitsOf (8 * n) v := by
  induction n with
  | zero => rfl
  | succ n ih =>
    rw [bytesOf, bitsOfBytes_cons, ih, BitVec.toNat_ofNat, bitsOf_mod, Nat.mul_succ, Nat.add_comm, bitsOf_append]

theorem natOfBytes_eq (bytes : List Byte) : natOfBytes bytes = natOfBits (bitsOfBytes bytes) := by
  have key : ∀ (bytes : List Byte) (acc : Nat), bytes.foldl (fun acc b => 256 * acc + b.toNat) acc
      = acc * 2 ^ (8 * bytes.length) + natOfBits (bitsOfBytes bytes) := by
    intro bytes
    induction bytes with
    | nil => intro acc; simp [natOfBits]
    | cons b bytes ih =>
      intro acc
      rw [List.foldl_cons, ih, bitsOfBytes_cons, natOfBits_append, natOfBits_bitsOf, bitsOfBytes_length, List.length_cons,
        Nat.mod_eq_of_lt b.isLt, Nat.mul_succ, pow_add]
      ring
  simpa [natOfBytes] using key bytes 0

theorem bytesOfBits_append_eight (b : Byte) (rest : List Bool) :
    bytesOfBits (bitsOf 8 b.toNat ++ rest) = b :: bytesOfBits rest := by
  have h : BitVec.ofNat 8 (natOfBits (bitsOf 8 b.toNat)) = b := ofNat_natOfBits_bitsOf b
  conv_rhs => rw [← h]
  rfl

theorem bytesOfBits_bitsOfBytes (bytes : List Byte) : bytesOfBits (bitsOfBytes bytes) = bytes := by
  induction bytes with
  | nil => rfl
  | cons b bytes ih => rw [bitsOfBytes_cons, bytesOfBits_append_eight, ih]

/-- Whole bytes' worth of bits come apart and together again. -/
theorem bitsOfBytes_bytesOfBits (bits : List Bool) (n : Nat) (h : bits.length = 8 * n) :
    bitsOfBytes (bytesOfBits bits) = bits ∧ (bytesOfBits bits).length = n := by
  induction n generalizing bits with
  | zero =>
    obtain rfl : bits = [] := List.eq_nil_of_length_eq_zero (by omega)
    exact ⟨rfl, rfl⟩
  | succ n ih =>
    obtain ⟨x, rest, rfl, hx⟩ : ∃ x rest, bits = x ++ rest ∧ x.length = 8 :=
      ⟨bits.take 8, bits.drop 8, (List.take_append_drop 8 bits).symm, by simp; omega⟩
    have hr : rest.length = 8 * n := by simp at h; omega
    have hb : bitsOf 8 (BitVec.ofNat 8 (natOfBits x)).toNat = x := by
      rw [BitVec.toNat_ofNat, bitsOf_mod, ← hx, bitsOf_natOfBits]
    obtain ⟨h1, h2⟩ := ih rest hr
    rw [← hb, bytesOfBits_append_eight, bitsOfBytes_cons, h1, List.length_cons, h2]
    exact ⟨rfl, rfl⟩

/-! ### Frames: each format gives back its fields (R81 to R83) -/

theorem frameF16A_fields (op : BitVec 3) (addr : Addr) :
    (frameF16A op addr).extractLsb' 13 3 = op ∧ (frameF16A op addr).extractLsb' 3 10 = addr
      ∧ (frameF16A op addr).extractLsb' 0 3 = 0 := by
  refine ⟨?_, ?_, ?_⟩ <;> apply BitVec.eq_of_getLsbD_eq <;> intro i hi <;> interval_cases i <;>
    simp [frameF16A]

theorem frameF16C_fields (ctl : BitVec 5) :
    (frameF16C ctl).extractLsb' 11 5 = ctl ∧ (frameF16C ctl).extractLsb' 13 3 = ctl.extractLsb' 2 3
      ∧ (frameF16C ctl).extractLsb' 0 11 = 0 := by
  refine ⟨?_, ?_, ?_⟩ <;> apply BitVec.eq_of_getLsbD_eq <;> intro i hi <;> interval_cases i <;>
    simp [frameF16C]

theorem frameF32W_fields (addr : Addr) (data : Word) :
    (frameF32W 3 addr data).extractLsb' 29 3 = Config.opWrite ∧ (frameF32W 3 addr data).extractLsb' 19 10 = addr
      ∧ (frameF32W 3 addr data).extractLsb' 3 16 = data ∧ (frameF32W 3 addr data).extractLsb' 0 3 = 0 := by
  refine ⟨?_, ?_, ?_, ?_⟩ <;> apply BitVec.eq_of_getLsbD_eq <;> intro i hi <;> interval_cases i <;>
    simp [frameF32W, Config.opWrite]

end Sys2Proof
end

