-- ==== Sys2Proof/Laws/Codec.lean ====
section
/-! SUPPORT. The laws of the codec: what the constraints of R88 say of the opcode patterns, and what each format's frame decodes to (R81 to
R83, R89). -/

namespace Sys2Proof

@[simp] theorem maskAddr_toNat (a : Addr) : maskAddr a.toNat = a := by simp [maskAddr]
@[simp] theorem maskData_toNat (d : Word) : maskData d.toNat = d := by simp [maskData]

/-! ### The opcode patterns (R88) -/

/-- The four patterns are told apart in the order in which `decode16` tries them. -/
theorem Opcodes.apart (ops : Opcodes) :
    ops.erase ≠ ops.read ∧ ops.writeEnable.extractLsb' 2 3 ≠ ops.read ∧ ops.writeEnable.extractLsb' 2 3 ≠ ops.erase
      ∧ ops.writeDisable.extractLsb' 2 3 = ops.writeEnable.extractLsb' 2 3 ∧ ops.writeDisable ≠ ops.writeEnable := by
  have h := ops.legal
  simp only [Opcodes.legalPatterns, Bool.and_eq_true, bne_iff_ne, beq_iff_eq] at h
  obtain ⟨⟨⟨⟨⟨h0, h1⟩, h2⟩, h3⟩, h4⟩, h5⟩ := h
  exact ⟨h1.symm, h2, h3, h4, h5⟩

/-- No 16-bit format shares WRITE's opcode. -/
theorem Opcodes.not_write (ops : Opcodes) :
    ops.read ≠ Config.opWrite ∧ ops.erase ≠ Config.opWrite ∧ ops.writeEnable.extractLsb' 2 3 ≠ Config.opWrite := by
  have h := ops.legal
  simp only [Opcodes.legalPatterns, Bool.and_eq_true, Bool.or_eq_true, beq_iff_eq] at h
  obtain ⟨⟨⟨⟨⟨⟨⟨h0, h1⟩, h2⟩, _⟩, _⟩, _⟩, _⟩, _⟩ := h
  refine ⟨?_, ?_, ?_⟩
  · rcases h0 with (h | h) | h <;> rw [h] <;> decide
  · rcases h1 with (h | h) | h <;> rw [h] <;> decide
  · rcases h2 with (h | h) | h <;> rw [h] <;> decide

/-- READ's opcode has the fixed high bit. -/
theorem Opcodes.read_high (ops : Opcodes) : ops.read.getLsbD 2 = true := by
  have h := ops.legal
  simp only [Opcodes.legalPatterns, Bool.and_eq_true, Bool.or_eq_true, beq_iff_eq] at h
  obtain ⟨⟨⟨⟨⟨⟨⟨h0, _⟩, _⟩, _⟩, _⟩, _⟩, _⟩, _⟩ := h
  rcases h0 with (h | h) | h <;> rw [h] <;> rfl

/-! ### Whole frames -/

theorem decodeBits_sixteen (ops : Opcodes) (f : BitVec 16) : decodeBits ops (bitsOf 16 f.toNat) = decode16 ops f := by
  rw [decodeBits, if_pos (bitsOf_length _ _), ofNat_natOfBits_bitsOf]

theorem decodeBits_thirtyTwo (ops : Opcodes) (f : BitVec 32) : decodeBits ops (bitsOf 32 f.toNat) = decode32 f := by
  rw [decodeBits, if_neg (by simp), if_pos (bitsOf_length _ _), ofNat_natOfBits_bitsOf]

theorem decode16_read (ops : Opcodes) (a : Addr) : decode16 ops (frameF16A ops.read a) = .ok (.read a.toNat false) := by
  obtain ⟨h1, h2, h3⟩ := frameF16A_fields ops.read a
  rw [decode16, if_pos h1, if_pos h3, h2]

theorem decode16_erase (ops : Opcodes) (a : Addr) : decode16 ops (frameF16A ops.erase a) = .ok (.erase a.toNat) := by
  obtain ⟨h1, h2, h3⟩ := frameF16A_fields ops.erase a
  rw [decode16, h1, if_neg ops.apart.1, if_pos rfl, if_pos h3, h2]

theorem decode16_writeEnable (ops : Opcodes) : decode16 ops (frameF16C ops.writeEnable) = .ok .writeEnable := by
  obtain ⟨h1, h2, h3⟩ := frameF16C_fields ops.writeEnable
  obtain ⟨_, g2, g3, _, _⟩ := ops.apart
  rw [decode16, h2, if_neg g2, if_neg g3, if_pos h1, if_pos h3]

theorem decode16_writeDisable (ops : Opcodes) : decode16 ops (frameF16C ops.writeDisable) = .ok .writeDisable := by
  obtain ⟨h1, h2, h3⟩ := frameF16C_fields ops.writeDisable
  obtain ⟨_, g2, g3, g4, g5⟩ := ops.apart
  rw [decode16, h2, g4, if_neg g2, if_neg g3, h1, if_neg g5, if_pos rfl, if_pos h3]

theorem decode32_write (a : Addr) (d : Word) : decode32 (frameF32W 3 a d) = .ok (.write a.toNat d.toNat) := by
  obtain ⟨h1, h2, h3, h4⟩ := frameF32W_fields a d
  rw [decode32, if_pos h1, if_pos h4, h2, h3]

/-! ### The encoder -/

theorem encode_length_le (ops : Opcodes) (shift : Nat) (i : Instr) : (encode ops shift i).length ≤ 4 := by
  cases i <;> simp [encode]

theorem encode_length_pos (ops : Opcodes) (shift : Nat) (i : Instr) : 0 < (encode ops shift i).length := by
  cases i <;> simp [encode]

/-- The instruction with its operands as the block's registers hold them (R22, R23). -/
def Instr.latched : Instr → Instr
  | .read a owned => .read (maskAddr a).toNat owned
  | .erase a => .erase (maskAddr a).toNat
  | .write a d => .write (maskAddr a).toNat (maskData d).toNat
  | .writeEnable => .writeEnable
  | .writeDisable => .writeDisable

/-- Masking the operands first changes no frame. -/
theorem encode_latched (ops : Opcodes) (shift : Nat) (i : Instr) : encode ops shift i.latched = encode ops shift i := by
  cases i <;> simp [Instr.latched, encode]

theorem bitsOfBytes_ne_nil {bytes : List Byte} (h : 0 < bytes.length) : bitsOfBytes bytes ≠ [] := by
  intro hn
  have := congrArg List.length hn
  rw [bitsOfBytes_length, List.length_nil] at this
  omega

end Sys2Proof
end

