-- ==== Sys2Proof/Laws/Memory.lean ====
section
/-! SUPPORT. The laws of the device's array: a read after a write, the canonical form, and that equal contents are equal data. -/

namespace Sys2Proof.Machine

/-! ### Bytes -/

@[simp] theorem Memory.read_nil (k : Nat) : Memory.read [] k = Memory.unlisted k := rfl

theorem Memory.read_cons (c : Host.Cell) (m : Memory) (k : Nat) :
    Memory.read (c :: m) k = if c.1 = k then c.2 else Memory.read m k := rfl

theorem Memory.read_remove (m : Memory) (k j : Nat) :
    Memory.read (Memory.remove m k) j = if j = k then Memory.unlisted j else Memory.read m j := by
  induction m with
  | nil => simp [Memory.remove]
  | cons c m ih =>
    by_cases h : c.1 = k
    · rw [Memory.remove, if_pos h, ih, Memory.read_cons]
      split_ifs with h1 h2
      · rfl
      · exact absurd (h2.symm.trans h) h1
      · rfl
    · rw [Memory.remove, if_neg h, Memory.read_cons, Memory.read_cons, ih]
      split_ifs with h1 h2 h2
      · exact absurd (h1.trans h2) h
      · rfl
      · rfl
      · rfl

/-- In a list with rising addresses, a cell above the head's reach is not there. -/
theorem Memory.read_of_lt (m : Memory) (k : Nat) (h : ∀ c ∈ m, k < c.1) : Memory.read m k = Memory.unlisted k := by
  induction m with
  | nil => rfl
  | cons c m ih =>
    have hc : c.1 ≠ k := by have := h c (by simp); omega
    rw [Memory.read_cons, if_neg hc, ih fun d hd => h d (by simp [hd])]

theorem Memory.read_insert (m : Memory) (k j : Nat) (v : Byte) :
    Memory.read (Memory.insert m k v) j = if j = k then v else Memory.read m j := by
  induction m with
  | nil => simp [Memory.insert, Memory.read_cons, eq_comm]
  | cons c m ih =>
    rw [Memory.insert]
    split_ifs with h1 h2 h3 h4 h5
    · simp [Memory.read_cons, h2]
    · rw [Memory.read_cons, if_neg (Ne.symm h2)]
    · simp [Memory.read_cons, h4]
    · rw [Memory.read_cons, Memory.read_cons, if_neg (Ne.symm h4), if_neg (by omega)]
    · rw [Memory.read_cons, if_neg (by omega), ih, if_pos h5]
    · rw [Memory.read_cons, Memory.read_cons, ih, if_neg h5]

/-- A read after a write to the same cell gives the byte written; every other cell reads as before. -/
theorem Memory.read_write (m : Memory) (k j : Nat) (v : Byte) :
    Memory.read (Memory.write m k v) j = if j = k then v else Memory.read m j := by
  rw [Memory.write]
  split_ifs with h1 h2 h2
  · rw [Memory.read_remove, if_pos h2, h1, h2]
  · rw [Memory.read_remove, if_neg h2]
  · rw [Memory.read_insert, if_pos h2]
  · rw [Memory.read_insert, if_neg h2]

/-! ### The canonical form -/

theorem Memory.mem_remove (m : Memory) (k : Nat) (c : Host.Cell) : c ∈ Memory.remove m k ↔ c ∈ m ∧ c.1 ≠ k := by
  induction m with
  | nil => simp [Memory.remove]
  | cons d m ih =>
    rw [Memory.remove]
    split_ifs with h
    · rw [ih, List.mem_cons]
      constructor
      · rintro ⟨h1, h2⟩; exact ⟨.inr h1, h2⟩
      · rintro ⟨rfl | h1, h2⟩
        · exact absurd h h2
        · exact ⟨h1, h2⟩
    · rw [List.mem_cons, List.mem_cons, ih]
      constructor
      · rintro (rfl | ⟨h1, h2⟩)
        · exact ⟨.inl rfl, h⟩
        · exact ⟨.inr h1, h2⟩
      · rintro ⟨rfl | h1, h2⟩
        · exact .inl rfl
        · exact .inr ⟨h1, h2⟩

theorem Memory.remove_rising (m : Memory) (k : Nat) (h : m.Pairwise (fun c d => c.1 < d.1)) :
    (Memory.remove m k).Pairwise (fun c d => c.1 < d.1) := by
  induction m with
  | nil => exact h
  | cons c m ih =>
    obtain ⟨h1, h2⟩ := List.pairwise_cons.1 h
    rw [Memory.remove]
    split_ifs
    · exact ih h2
    · exact List.pairwise_cons.2 ⟨fun d hd => h1 d ((Memory.mem_remove m k d).1 hd).1, ih h2⟩

theorem Memory.mem_insert (m : Memory) (k : Nat) (v : Byte) (c : Host.Cell) (h : c ∈ Memory.insert m k v) :
    c = (k, v) ∨ c ∈ m := by
  induction m with
  | nil => simpa [Memory.insert] using h
  | cons d m ih =>
    rw [Memory.insert] at h
    split_ifs at h
    · simpa using h
    · rcases List.mem_cons.1 h with rfl | h
      · exact .inl rfl
      · exact .inr (by simp [h])
    · rcases List.mem_cons.1 h with rfl | h
      · exact .inr (by simp)
      · rcases ih h with rfl | h
        · exact .inl rfl
        · exact .inr (by simp [h])

theorem Memory.insert_rising (m : Memory) (k : Nat) (v : Byte) (h : m.Pairwise (fun c d => c.1 < d.1)) :
    (Memory.insert m k v).Pairwise (fun c d => c.1 < d.1) := by
  induction m with
  | nil => simp [Memory.insert]
  | cons c m ih =>
    obtain ⟨h1, h2⟩ := List.pairwise_cons.1 h
    rw [Memory.insert]
    split_ifs with hk hk2
    · refine List.pairwise_cons.2 ⟨fun d hd => ?_, h⟩
      rcases List.mem_cons.1 hd with rfl | hd
      · exact hk
      · exact hk.trans (h1 d hd)
    · exact List.pairwise_cons.2 ⟨fun d hd => hk2 ▸ h1 d hd, h2⟩
    · refine List.pairwise_cons.2 ⟨fun d hd => ?_, ih h2⟩
      rcases Memory.mem_insert m k v d hd with rfl | hd
      · show c.1 < k
        omega
      · exact h1 d hd

/-- A write keeps the canonical form. -/
theorem Memory.write_wf (m : Memory) (k : Nat) (v : Byte) (hk : k < 2048) (h : Memory.wf m) : Memory.wf (Memory.write m k v) := by
  obtain ⟨h1, h2, h3⟩ := h
  rw [Memory.write]
  split_ifs with hv
  · exact ⟨Memory.remove_rising m k h1, fun c hc => h2 c ((Memory.mem_remove m k c).1 hc).1,
      fun c hc => h3 c ((Memory.mem_remove m k c).1 hc).1⟩
  · refine ⟨Memory.insert_rising m k v h1, fun c hc => ?_, fun c hc => ?_⟩
    · rcases Memory.mem_insert m k v c hc with rfl | hc
      · exact hv
      · exact h2 c hc
    · rcases Memory.mem_insert m k v c hc with rfl | hc
      · exact hk
      · exact h3 c hc

/-- A listed cell reads as it is listed. -/
theorem Memory.read_of_mem (m : Memory) (h : m.Pairwise (fun c d => c.1 < d.1)) (c : Host.Cell) (hc : c ∈ m) :
    Memory.read m c.1 = c.2 := by
  induction m with
  | nil => simp at hc
  | cons d m ih =>
    obtain ⟨h1, h2⟩ := List.pairwise_cons.1 h
    rw [Memory.read_cons]
    rcases List.mem_cons.1 hc with rfl | hc
    · simp
    · rw [if_neg (by have := h1 c hc; omega), ih h2 hc]

/-- Equal contents are equal data: two canonical memories that read alike everywhere are the same list. -/
theorem Memory.eq_of_read_eq (m m' : Memory) (h : Memory.wf m) (h' : Memory.wf m')
    (e : ∀ k, Memory.read m k = Memory.read m' k) : m = m' := by
  have sub : ∀ (m m' : Memory), Memory.wf m → Memory.wf m' → (∀ k, Memory.read m k = Memory.read m' k) →
      ∀ c ∈ m, c ∈ m' := by
    intro m m' h h' e c hc
    have hr : Memory.read m' c.1 = c.2 := by rw [← e, Memory.read_of_mem m h.1 c hc]
    by_contra hn
    have key : ∀ l : Memory, l.Pairwise (fun c d => c.1 < d.1) → Memory.read l c.1 = c.2 → c ∉ l →
        c.2 = Memory.unlisted c.1 := by
      intro l
      induction l with
      | nil => intro _ hr _; exact hr.symm
      | cons d l ih =>
        intro hp hr hn
        rw [Memory.read_cons] at hr
        split_ifs at hr with hd
        · exact absurd (List.mem_cons.2 (.inl (Prod.ext hd.symm hr.symm))) hn
        · exact ih (List.pairwise_cons.1 hp).2 hr fun h => hn (List.mem_cons.2 (.inr h))
    exact h.2.1 c hc (key m' h'.1 hr hn)
  refine List.Perm.eq_of_pairwise (le := fun c d : Host.Cell => c.1 < d.1) ?_ h.1 h'.1 ?_
  · intro a b _ _ hab hba
    exact absurd hab (by omega)
  · refine (List.perm_ext_iff_of_nodup ?_ ?_).2 fun c => ⟨sub m m' h h' e c, sub m' m h' h (fun k => (e k).symm) c⟩
    · exact h.1.imp fun hcd he => by subst he; omega
    · exact h'.1.imp fun hcd he => by subst he; omega

/-! ### Words -/

theorem cellOf_lt (a : Addr) : cellOf a + 1 < 2048 := by
  have := a.isLt
  simp only [cellOf]; omega

theorem cellOf_inj {a b : Addr} (h : cellOf a = cellOf b) : a = b := by
  simp only [cellOf] at h
  exact BitVec.eq_of_toNat_eq (by omega)

/-- `MemWrite` changes the two cells of the word and no other. -/
theorem Memory.read_memWrite (m : Memory) (a : Addr) (v : Word) (k : Nat) :
    Memory.read (memWrite m a v) k =
      if k = cellOf a then v.extractLsb' 8 8 else if k = cellOf a + 1 then v.extractLsb' 0 8 else Memory.read m k := by
  rw [memWrite, Memory.read_write, Memory.read_write]
  split_ifs with h1 h2 h3
  · omega
  · rfl
  · rfl
  · rfl

/-- `MemRead` after `MemWrite` at the same address gives the word written (R62). -/
theorem memRead_memWrite_same (m : Memory) (a : Addr) (v : Word) : memRead (memWrite m a v) a = v := by
  rw [memRead, Memory.read_memWrite, Memory.read_memWrite, if_pos rfl, if_neg (by omega), if_pos rfl]
  apply BitVec.eq_of_getLsbD_eq
  intro i hi
  rw [BitVec.getLsbD_append]
  split_ifs with h
  · simp [h]
  · rw [BitVec.getLsbD_extractLsb', decide_eq_true (by omega), Bool.true_and]
    congr 1; omega

/-- `MemRead` after `MemWrite` at another address gives what it gave before. -/
theorem memRead_memWrite_other (m : Memory) {a b : Addr} (v : Word) (h : b ≠ a) : memRead (memWrite m a v) b = memRead m b := by
  have hc : cellOf b ≠ cellOf a := fun hc => h (cellOf_inj hc)
  have h1 : cellOf b ≠ cellOf a + 1 := by simp only [cellOf]; omega
  have h2 : cellOf b + 1 ≠ cellOf a := by simp only [cellOf]; omega
  rw [memRead, Memory.read_memWrite, Memory.read_memWrite, if_neg hc, if_neg h1, if_neg h2, if_neg (by omega), memRead]

theorem memRead_memWrite (m : Memory) (a b : Addr) (v : Word) :
    memRead (memWrite m a v) b = if b = a then v else memRead m b := by
  split_ifs with h
  · rw [h, memRead_memWrite_same]
  · exact memRead_memWrite_other m v h

/-- `MemWrite` keeps the canonical form. -/
theorem memWrite_wf (m : Memory) (a : Addr) (v : Word) (h : Memory.wf m) : Memory.wf (memWrite m a v) :=
  Memory.write_wf _ _ _ (cellOf_lt a) (Memory.write_wf _ _ _ (by have := cellOf_lt a; omega) h)

/-- Words made free keep the canonical form (R281). -/
theorem scrambleWords_wf (words : List Addr) (d : Nat) (m : Memory) (h : Memory.wf m) : Memory.wf (scrambleWords words d m) := by
  induction words generalizing d m with
  | nil => exact h
  | cons a rest ih => exact ih _ _ (memWrite_wf _ _ _ h)

/-- Words made free are the only ones that change (R281). -/
theorem read_scrambleWords (words : List Addr) (d : Nat) (m : Memory) (k : Nat) (h : ∀ a ∈ words, k ≠ cellOf a ∧ k ≠ cellOf a + 1) :
    Memory.read (scrambleWords words d m) k = Memory.read m k := by
  induction words generalizing d m with
  | nil => rfl
  | cons a rest ih =>
    obtain ⟨h1, h2⟩ := h a (by simp)
    rw [scrambleWords, ih _ _ fun b hb => h b (List.mem_cons_of_mem _ hb), Memory.read_memWrite, if_neg h1, if_neg h2]

/-- A free array is in canonical form. -/
theorem freeArray_wf (d : Nat) : ∀ n, Memory.wf (freeArray d n)
  | 0 => by simp [Memory.wf, freeArray]
  | n + 1 => memWrite_wf _ _ _ (freeArray_wf d n)

end Sys2Proof.Machine
end

