-- ==== Sys2Proof/Laws/State.lean ====
section
/-! SUPPORT. One lemma per field per update of the state: what each update of Machine/Ops.lean leaves in each field. -/

namespace Sys2Proof.Machine

variable (s : State)

/-! `advanceDraws` -/

@[simp] theorem advanceDraws_phase (n : Nat) : (s.advanceDraws n).phase = s.phase := rfl
@[simp] theorem advanceDraws_op (n : Nat) : (s.advanceDraws n).op = s.op := rfl
@[simp] theorem advanceDraws_addr (n : Nat) : (s.advanceDraws n).addr = s.addr := rfl
@[simp] theorem advanceDraws_wdata (n : Nat) : (s.advanceDraws n).wdata = s.wdata := rfl
@[simp] theorem advanceDraws_owned (n : Nat) : (s.advanceDraws n).owned = s.owned := rfl
@[simp] theorem advanceDraws_rdata (n : Nat) : (s.advanceDraws n).rdata = s.rdata := rfl
@[simp] theorem advanceDraws_txbuf (n : Nat) : (s.advanceDraws n).txbuf = s.txbuf := rfl
@[simp] theorem advanceDraws_txlen (n : Nat) : (s.advanceDraws n).txlen = s.txlen := rfl
@[simp] theorem advanceDraws_rxbuf (n : Nat) : (s.advanceDraws n).rxbuf = s.rxbuf := rfl
@[simp] theorem advanceDraws_csOut (n : Nat) : (s.advanceDraws n).csOut = s.csOut := rfl
@[simp] theorem advanceDraws_cfg (n : Nat) : (s.advanceDraws n).cfg = s.cfg := rfl
@[simp] theorem advanceDraws_trace (n : Nat) : (s.advanceDraws n).trace = s.trace := rfl
@[simp] theorem advanceDraws_ee (n : Nat) : (s.advanceDraws n).ee = s.ee := rfl
@[simp] theorem advanceDraws_wel (n : Nat) : (s.advanceDraws n).wel = s.wel := rfl
@[simp] theorem advanceDraws_busyNs (n : Nat) : (s.advanceDraws n).busyNs = s.busyNs := rfl
@[simp] theorem advanceDraws_sel (n : Nat) : (s.advanceDraws n).sel = s.sel := rfl
@[simp] theorem advanceDraws_txs (n : Nat) : (s.advanceDraws n).txs = s.txs := rfl
@[simp] theorem advanceDraws_idleNs (n : Nat) : (s.advanceDraws n).idleNs = s.idleNs := rfl
@[simp] theorem advanceDraws_setupNs (n : Nat) : (s.advanceDraws n).setupNs = s.setupNs := rfl
@[simp] theorem advanceDraws_dev (n : Nat) : (s.advanceDraws n).dev = s.dev := rfl
@[simp] theorem advanceDraws_opcodes (n : Nat) : (s.advanceDraws n).opcodes = s.opcodes := rfl
@[simp] theorem advanceDraws_secondFrame (n : Nat) : (s.advanceDraws n).secondFrame = s.secondFrame := rfl
@[simp] theorem advanceDraws_sentMarks (n : Nat) : (s.advanceDraws n).sentMarks = s.sentMarks := rfl
@[simp] theorem advanceDraws_cycleAddr (n : Nat) : (s.advanceDraws n).cycleAddr = s.cycleAddr := rfl
@[simp] theorem advanceDraws_pending (n : Nat) : (s.advanceDraws n).pending = s.pending := rfl
@[simp] theorem advanceDraws_hostWords (n : Nat) : (s.advanceDraws n).hostWords = s.hostWords := rfl
@[simp] theorem advanceDraws_hostText (n : Nat) : (s.advanceDraws n).hostText = s.hostText := rfl
@[simp] theorem advanceDraws_fatalIn (n : Nat) : (s.advanceDraws n).fatalIn = s.fatalIn := rfl
@[simp] theorem advanceDraws_draws (n : Nat) : (s.advanceDraws n).draws = s.draws + n := rfl

/-! `setPhase` -/

@[simp] theorem setPhase_phase (p : Phase) : (s.setPhase p).phase = p := rfl
@[simp] theorem setPhase_op (p : Phase) : (s.setPhase p).op = s.op := rfl
@[simp] theorem setPhase_addr (p : Phase) : (s.setPhase p).addr = s.addr := rfl
@[simp] theorem setPhase_wdata (p : Phase) : (s.setPhase p).wdata = s.wdata := rfl
@[simp] theorem setPhase_owned (p : Phase) : (s.setPhase p).owned = s.owned := rfl
@[simp] theorem setPhase_rdata (p : Phase) : (s.setPhase p).rdata = s.rdata := rfl
@[simp] theorem setPhase_txbuf (p : Phase) : (s.setPhase p).txbuf = s.txbuf := rfl
@[simp] theorem setPhase_txlen (p : Phase) : (s.setPhase p).txlen = s.txlen := rfl
@[simp] theorem setPhase_rxbuf (p : Phase) : (s.setPhase p).rxbuf = s.rxbuf := rfl
@[simp] theorem setPhase_csOut (p : Phase) : (s.setPhase p).csOut = s.csOut := rfl
@[simp] theorem setPhase_cfg (p : Phase) : (s.setPhase p).cfg = s.cfg := rfl
@[simp] theorem setPhase_trace (p : Phase) : (s.setPhase p).trace = s.trace := rfl
@[simp] theorem setPhase_ee (p : Phase) : (s.setPhase p).ee = s.ee := rfl
@[simp] theorem setPhase_wel (p : Phase) : (s.setPhase p).wel = s.wel := rfl
@[simp] theorem setPhase_busyNs (p : Phase) : (s.setPhase p).busyNs = s.busyNs := rfl
@[simp] theorem setPhase_sel (p : Phase) : (s.setPhase p).sel = s.sel := rfl
@[simp] theorem setPhase_txs (p : Phase) : (s.setPhase p).txs = s.txs := rfl
@[simp] theorem setPhase_idleNs (p : Phase) : (s.setPhase p).idleNs = s.idleNs := rfl
@[simp] theorem setPhase_setupNs (p : Phase) : (s.setPhase p).setupNs = s.setupNs := rfl
@[simp] theorem setPhase_dev (p : Phase) : (s.setPhase p).dev = s.dev := rfl
@[simp] theorem setPhase_opcodes (p : Phase) : (s.setPhase p).opcodes = s.opcodes := rfl
@[simp] theorem setPhase_secondFrame (p : Phase) : (s.setPhase p).secondFrame = s.secondFrame := rfl
@[simp] theorem setPhase_sentMarks (p : Phase) : (s.setPhase p).sentMarks = s.sentMarks := rfl
@[simp] theorem setPhase_cycleAddr (p : Phase) : (s.setPhase p).cycleAddr = s.cycleAddr := rfl
@[simp] theorem setPhase_pending (p : Phase) : (s.setPhase p).pending = s.pending := rfl
@[simp] theorem setPhase_hostWords (p : Phase) : (s.setPhase p).hostWords = s.hostWords := rfl
@[simp] theorem setPhase_hostText (p : Phase) : (s.setPhase p).hostText = s.hostText := rfl
@[simp] theorem setPhase_fatalIn (p : Phase) : (s.setPhase p).fatalIn = s.fatalIn := rfl
@[simp] theorem setPhase_draws (p : Phase) : (s.setPhase p).draws = s.draws := rfl

/-! `latchOp` -/

@[simp] theorem latchOp_phase (tag : Tag) : (s.latchOp tag).phase = s.phase := rfl
@[simp] theorem latchOp_op (tag : Tag) : (s.latchOp tag).op = tag := rfl
@[simp] theorem latchOp_addr (tag : Tag) : (s.latchOp tag).addr = s.addr := rfl
@[simp] theorem latchOp_wdata (tag : Tag) : (s.latchOp tag).wdata = s.wdata := rfl
@[simp] theorem latchOp_owned (tag : Tag) : (s.latchOp tag).owned = s.owned := rfl
@[simp] theorem latchOp_rdata (tag : Tag) : (s.latchOp tag).rdata = s.rdata := rfl
@[simp] theorem latchOp_txbuf (tag : Tag) : (s.latchOp tag).txbuf = s.txbuf := rfl
@[simp] theorem latchOp_txlen (tag : Tag) : (s.latchOp tag).txlen = s.txlen := rfl
@[simp] theorem latchOp_rxbuf (tag : Tag) : (s.latchOp tag).rxbuf = s.rxbuf := rfl
@[simp] theorem latchOp_csOut (tag : Tag) : (s.latchOp tag).csOut = s.csOut := rfl
@[simp] theorem latchOp_cfg (tag : Tag) : (s.latchOp tag).cfg = s.cfg := rfl
@[simp] theorem latchOp_trace (tag : Tag) : (s.latchOp tag).trace = s.trace := rfl
@[simp] theorem latchOp_ee (tag : Tag) : (s.latchOp tag).ee = s.ee := rfl
@[simp] theorem latchOp_wel (tag : Tag) : (s.latchOp tag).wel = s.wel := rfl
@[simp] theorem latchOp_busyNs (tag : Tag) : (s.latchOp tag).busyNs = s.busyNs := rfl
@[simp] theorem latchOp_sel (tag : Tag) : (s.latchOp tag).sel = s.sel := rfl
@[simp] theorem latchOp_txs (tag : Tag) : (s.latchOp tag).txs = s.txs := rfl
@[simp] theorem latchOp_idleNs (tag : Tag) : (s.latchOp tag).idleNs = s.idleNs := rfl
@[simp] theorem latchOp_setupNs (tag : Tag) : (s.latchOp tag).setupNs = s.setupNs := rfl
@[simp] theorem latchOp_dev (tag : Tag) : (s.latchOp tag).dev = s.dev := rfl
@[simp] theorem latchOp_opcodes (tag : Tag) : (s.latchOp tag).opcodes = s.opcodes := rfl
@[simp] theorem latchOp_secondFrame (tag : Tag) : (s.latchOp tag).secondFrame = s.secondFrame := rfl
@[simp] theorem latchOp_sentMarks (tag : Tag) : (s.latchOp tag).sentMarks = s.sentMarks := rfl
@[simp] theorem latchOp_cycleAddr (tag : Tag) : (s.latchOp tag).cycleAddr = s.cycleAddr := rfl
@[simp] theorem latchOp_pending (tag : Tag) : (s.latchOp tag).pending = s.pending := rfl
@[simp] theorem latchOp_hostWords (tag : Tag) : (s.latchOp tag).hostWords = s.hostWords := rfl
@[simp] theorem latchOp_hostText (tag : Tag) : (s.latchOp tag).hostText = s.hostText := rfl
@[simp] theorem latchOp_fatalIn (tag : Tag) : (s.latchOp tag).fatalIn = s.fatalIn := rfl
@[simp] theorem latchOp_draws (tag : Tag) : (s.latchOp tag).draws = s.draws := rfl

/-! `latchAddr` -/

@[simp] theorem latchAddr_phase (a : Nat) : (s.latchAddr a).phase = s.phase := rfl
@[simp] theorem latchAddr_op (a : Nat) : (s.latchAddr a).op = s.op := rfl
@[simp] theorem latchAddr_addr (a : Nat) : (s.latchAddr a).addr = maskAddr a := rfl
@[simp] theorem latchAddr_wdata (a : Nat) : (s.latchAddr a).wdata = s.wdata := rfl
@[simp] theorem latchAddr_owned (a : Nat) : (s.latchAddr a).owned = s.owned := rfl
@[simp] theorem latchAddr_rdata (a : Nat) : (s.latchAddr a).rdata = s.rdata := rfl
@[simp] theorem latchAddr_txbuf (a : Nat) : (s.latchAddr a).txbuf = s.txbuf := rfl
@[simp] theorem latchAddr_txlen (a : Nat) : (s.latchAddr a).txlen = s.txlen := rfl
@[simp] theorem latchAddr_rxbuf (a : Nat) : (s.latchAddr a).rxbuf = s.rxbuf := rfl
@[simp] theorem latchAddr_csOut (a : Nat) : (s.latchAddr a).csOut = s.csOut := rfl
@[simp] theorem latchAddr_cfg (a : Nat) : (s.latchAddr a).cfg = s.cfg := rfl
@[simp] theorem latchAddr_trace (a : Nat) : (s.latchAddr a).trace = s.trace := rfl
@[simp] theorem latchAddr_ee (a : Nat) : (s.latchAddr a).ee = s.ee := rfl
@[simp] theorem latchAddr_wel (a : Nat) : (s.latchAddr a).wel = s.wel := rfl
@[simp] theorem latchAddr_busyNs (a : Nat) : (s.latchAddr a).busyNs = s.busyNs := rfl
@[simp] theorem latchAddr_sel (a : Nat) : (s.latchAddr a).sel = s.sel := rfl
@[simp] theorem latchAddr_txs (a : Nat) : (s.latchAddr a).txs = s.txs := rfl
@[simp] theorem latchAddr_idleNs (a : Nat) : (s.latchAddr a).idleNs = s.idleNs := rfl
@[simp] theorem latchAddr_setupNs (a : Nat) : (s.latchAddr a).setupNs = s.setupNs := rfl
@[simp] theorem latchAddr_dev (a : Nat) : (s.latchAddr a).dev = s.dev := rfl
@[simp] theorem latchAddr_opcodes (a : Nat) : (s.latchAddr a).opcodes = s.opcodes := rfl
@[simp] theorem latchAddr_secondFrame (a : Nat) : (s.latchAddr a).secondFrame = s.secondFrame := rfl
@[simp] theorem latchAddr_sentMarks (a : Nat) : (s.latchAddr a).sentMarks = s.sentMarks := rfl
@[simp] theorem latchAddr_cycleAddr (a : Nat) : (s.latchAddr a).cycleAddr = s.cycleAddr := rfl
@[simp] theorem latchAddr_pending (a : Nat) : (s.latchAddr a).pending = s.pending := rfl
@[simp] theorem latchAddr_hostWords (a : Nat) : (s.latchAddr a).hostWords = s.hostWords := rfl
@[simp] theorem latchAddr_hostText (a : Nat) : (s.latchAddr a).hostText = s.hostText := rfl
@[simp] theorem latchAddr_fatalIn (a : Nat) : (s.latchAddr a).fatalIn = s.fatalIn := rfl
@[simp] theorem latchAddr_draws (a : Nat) : (s.latchAddr a).draws = s.draws := rfl

/-! `latchData` -/

@[simp] theorem latchData_phase (d : Nat) : (s.latchData d).phase = s.phase := rfl
@[simp] theorem latchData_op (d : Nat) : (s.latchData d).op = s.op := rfl
@[simp] theorem latchData_addr (d : Nat) : (s.latchData d).addr = s.addr := rfl
@[simp] theorem latchData_wdata (d : Nat) : (s.latchData d).wdata = maskData d := rfl
@[simp] theorem latchData_owned (d : Nat) : (s.latchData d).owned = s.owned := rfl
@[simp] theorem latchData_rdata (d : Nat) : (s.latchData d).rdata = s.rdata := rfl
@[simp] theorem latchData_txbuf (d : Nat) : (s.latchData d).txbuf = s.txbuf := rfl
@[simp] theorem latchData_txlen (d : Nat) : (s.latchData d).txlen = s.txlen := rfl
@[simp] theorem latchData_rxbuf (d : Nat) : (s.latchData d).rxbuf = s.rxbuf := rfl
@[simp] theorem latchData_csOut (d : Nat) : (s.latchData d).csOut = s.csOut := rfl
@[simp] theorem latchData_cfg (d : Nat) : (s.latchData d).cfg = s.cfg := rfl
@[simp] theorem latchData_trace (d : Nat) : (s.latchData d).trace = s.trace := rfl
@[simp] theorem latchData_ee (d : Nat) : (s.latchData d).ee = s.ee := rfl
@[simp] theorem latchData_wel (d : Nat) : (s.latchData d).wel = s.wel := rfl
@[simp] theorem latchData_busyNs (d : Nat) : (s.latchData d).busyNs = s.busyNs := rfl
@[simp] theorem latchData_sel (d : Nat) : (s.latchData d).sel = s.sel := rfl
@[simp] theorem latchData_txs (d : Nat) : (s.latchData d).txs = s.txs := rfl
@[simp] theorem latchData_idleNs (d : Nat) : (s.latchData d).idleNs = s.idleNs := rfl
@[simp] theorem latchData_setupNs (d : Nat) : (s.latchData d).setupNs = s.setupNs := rfl
@[simp] theorem latchData_dev (d : Nat) : (s.latchData d).dev = s.dev := rfl
@[simp] theorem latchData_opcodes (d : Nat) : (s.latchData d).opcodes = s.opcodes := rfl
@[simp] theorem latchData_secondFrame (d : Nat) : (s.latchData d).secondFrame = s.secondFrame := rfl
@[simp] theorem latchData_sentMarks (d : Nat) : (s.latchData d).sentMarks = s.sentMarks := rfl
@[simp] theorem latchData_cycleAddr (d : Nat) : (s.latchData d).cycleAddr = s.cycleAddr := rfl
@[simp] theorem latchData_pending (d : Nat) : (s.latchData d).pending = s.pending := rfl
@[simp] theorem latchData_hostWords (d : Nat) : (s.latchData d).hostWords = s.hostWords := rfl
@[simp] theorem latchData_hostText (d : Nat) : (s.latchData d).hostText = s.hostText := rfl
@[simp] theorem latchData_fatalIn (d : Nat) : (s.latchData d).fatalIn = s.fatalIn := rfl
@[simp] theorem latchData_draws (d : Nat) : (s.latchData d).draws = s.draws := rfl

/-! `latchOwned` -/

@[simp] theorem latchOwned_phase (b : Bool) : (s.latchOwned b).phase = s.phase := rfl
@[simp] theorem latchOwned_op (b : Bool) : (s.latchOwned b).op = s.op := rfl
@[simp] theorem latchOwned_addr (b : Bool) : (s.latchOwned b).addr = s.addr := rfl
@[simp] theorem latchOwned_wdata (b : Bool) : (s.latchOwned b).wdata = s.wdata := rfl
@[simp] theorem latchOwned_owned (b : Bool) : (s.latchOwned b).owned = b := rfl
@[simp] theorem latchOwned_rdata (b : Bool) : (s.latchOwned b).rdata = s.rdata := rfl
@[simp] theorem latchOwned_txbuf (b : Bool) : (s.latchOwned b).txbuf = s.txbuf := rfl
@[simp] theorem latchOwned_txlen (b : Bool) : (s.latchOwned b).txlen = s.txlen := rfl
@[simp] theorem latchOwned_rxbuf (b : Bool) : (s.latchOwned b).rxbuf = s.rxbuf := rfl
@[simp] theorem latchOwned_csOut (b : Bool) : (s.latchOwned b).csOut = s.csOut := rfl
@[simp] theorem latchOwned_cfg (b : Bool) : (s.latchOwned b).cfg = s.cfg := rfl
@[simp] theorem latchOwned_trace (b : Bool) : (s.latchOwned b).trace = s.trace := rfl
@[simp] theorem latchOwned_ee (b : Bool) : (s.latchOwned b).ee = s.ee := rfl
@[simp] theorem latchOwned_wel (b : Bool) : (s.latchOwned b).wel = s.wel := rfl
@[simp] theorem latchOwned_busyNs (b : Bool) : (s.latchOwned b).busyNs = s.busyNs := rfl
@[simp] theorem latchOwned_sel (b : Bool) : (s.latchOwned b).sel = s.sel := rfl
@[simp] theorem latchOwned_txs (b : Bool) : (s.latchOwned b).txs = s.txs := rfl
@[simp] theorem latchOwned_idleNs (b : Bool) : (s.latchOwned b).idleNs = s.idleNs := rfl
@[simp] theorem latchOwned_setupNs (b : Bool) : (s.latchOwned b).setupNs = s.setupNs := rfl
@[simp] theorem latchOwned_dev (b : Bool) : (s.latchOwned b).dev = s.dev := rfl
@[simp] theorem latchOwned_opcodes (b : Bool) : (s.latchOwned b).opcodes = s.opcodes := rfl
@[simp] theorem latchOwned_secondFrame (b : Bool) : (s.latchOwned b).secondFrame = s.secondFrame := rfl
@[simp] theorem latchOwned_sentMarks (b : Bool) : (s.latchOwned b).sentMarks = s.sentMarks := rfl
@[simp] theorem latchOwned_cycleAddr (b : Bool) : (s.latchOwned b).cycleAddr = s.cycleAddr := rfl
@[simp] theorem latchOwned_pending (b : Bool) : (s.latchOwned b).pending = s.pending := rfl
@[simp] theorem latchOwned_hostWords (b : Bool) : (s.latchOwned b).hostWords = s.hostWords := rfl
@[simp] theorem latchOwned_hostText (b : Bool) : (s.latchOwned b).hostText = s.hostText := rfl
@[simp] theorem latchOwned_fatalIn (b : Bool) : (s.latchOwned b).fatalIn = s.fatalIn := rfl
@[simp] theorem latchOwned_draws (b : Bool) : (s.latchOwned b).draws = s.draws := rfl

/-! `loadTx` -/

@[simp] theorem loadTx_phase (bytes : List Byte) : (s.loadTx bytes).phase = s.phase := rfl
@[simp] theorem loadTx_op (bytes : List Byte) : (s.loadTx bytes).op = s.op := rfl
@[simp] theorem loadTx_addr (bytes : List Byte) : (s.loadTx bytes).addr = s.addr := rfl
@[simp] theorem loadTx_wdata (bytes : List Byte) : (s.loadTx bytes).wdata = s.wdata := rfl
@[simp] theorem loadTx_owned (bytes : List Byte) : (s.loadTx bytes).owned = s.owned := rfl
@[simp] theorem loadTx_rdata (bytes : List Byte) : (s.loadTx bytes).rdata = s.rdata := rfl
@[simp] theorem loadTx_txbuf (bytes : List Byte) : (s.loadTx bytes).txbuf = #v[bytes.getD 0 (drawByte s.draws), bytes.getD 1 (drawByte (s.draws + 8)),
      bytes.getD 2 (drawByte (s.draws + 16)), bytes.getD 3 (drawByte (s.draws + 24))] := rfl
@[simp] theorem loadTx_txlen (bytes : List Byte) : (s.loadTx bytes).txlen = bytes.length := rfl
@[simp] theorem loadTx_rxbuf (bytes : List Byte) : (s.loadTx bytes).rxbuf = s.rxbuf := rfl
@[simp] theorem loadTx_csOut (bytes : List Byte) : (s.loadTx bytes).csOut = s.csOut := rfl
@[simp] theorem loadTx_cfg (bytes : List Byte) : (s.loadTx bytes).cfg = s.cfg := rfl
@[simp] theorem loadTx_trace (bytes : List Byte) : (s.loadTx bytes).trace = s.trace := rfl
@[simp] theorem loadTx_ee (bytes : List Byte) : (s.loadTx bytes).ee = s.ee := rfl
@[simp] theorem loadTx_wel (bytes : List Byte) : (s.loadTx bytes).wel = s.wel := rfl
@[simp] theorem loadTx_busyNs (bytes : List Byte) : (s.loadTx bytes).busyNs = s.busyNs := rfl
@[simp] theorem loadTx_sel (bytes : List Byte) : (s.loadTx bytes).sel = s.sel := rfl
@[simp] theorem loadTx_txs (bytes : List Byte) : (s.loadTx bytes).txs = s.txs := rfl
@[simp] theorem loadTx_idleNs (bytes : List Byte) : (s.loadTx bytes).idleNs = s.idleNs := rfl
@[simp] theorem loadTx_setupNs (bytes : List Byte) : (s.loadTx bytes).setupNs = s.setupNs := rfl
@[simp] theorem loadTx_dev (bytes : List Byte) : (s.loadTx bytes).dev = s.dev := rfl
@[simp] theorem loadTx_opcodes (bytes : List Byte) : (s.loadTx bytes).opcodes = s.opcodes := rfl
@[simp] theorem loadTx_secondFrame (bytes : List Byte) : (s.loadTx bytes).secondFrame = s.secondFrame := rfl
@[simp] theorem loadTx_sentMarks (bytes : List Byte) : (s.loadTx bytes).sentMarks = s.sentMarks := rfl
@[simp] theorem loadTx_cycleAddr (bytes : List Byte) : (s.loadTx bytes).cycleAddr = s.cycleAddr := rfl
@[simp] theorem loadTx_pending (bytes : List Byte) : (s.loadTx bytes).pending = s.pending := rfl
@[simp] theorem loadTx_hostWords (bytes : List Byte) : (s.loadTx bytes).hostWords = s.hostWords := rfl
@[simp] theorem loadTx_hostText (bytes : List Byte) : (s.loadTx bytes).hostText = s.hostText := rfl
@[simp] theorem loadTx_fatalIn (bytes : List Byte) : (s.loadTx bytes).fatalIn = s.fatalIn := rfl
@[simp] theorem loadTx_draws (bytes : List Byte) : (s.loadTx bytes).draws = s.draws + 32 := rfl

/-! `setRxbuf` -/

@[simp] theorem setRxbuf_phase (bytes : List Byte) : (s.setRxbuf bytes).phase = s.phase := rfl
@[simp] theorem setRxbuf_op (bytes : List Byte) : (s.setRxbuf bytes).op = s.op := rfl
@[simp] theorem setRxbuf_addr (bytes : List Byte) : (s.setRxbuf bytes).addr = s.addr := rfl
@[simp] theorem setRxbuf_wdata (bytes : List Byte) : (s.setRxbuf bytes).wdata = s.wdata := rfl
@[simp] theorem setRxbuf_owned (bytes : List Byte) : (s.setRxbuf bytes).owned = s.owned := rfl
@[simp] theorem setRxbuf_rdata (bytes : List Byte) : (s.setRxbuf bytes).rdata = s.rdata := rfl
@[simp] theorem setRxbuf_txbuf (bytes : List Byte) : (s.setRxbuf bytes).txbuf = s.txbuf := rfl
@[simp] theorem setRxbuf_txlen (bytes : List Byte) : (s.setRxbuf bytes).txlen = s.txlen := rfl
@[simp] theorem setRxbuf_rxbuf (bytes : List Byte) : (s.setRxbuf bytes).rxbuf = bytes := rfl
@[simp] theorem setRxbuf_csOut (bytes : List Byte) : (s.setRxbuf bytes).csOut = s.csOut := rfl
@[simp] theorem setRxbuf_cfg (bytes : List Byte) : (s.setRxbuf bytes).cfg = s.cfg := rfl
@[simp] theorem setRxbuf_trace (bytes : List Byte) : (s.setRxbuf bytes).trace = s.trace := rfl
@[simp] theorem setRxbuf_ee (bytes : List Byte) : (s.setRxbuf bytes).ee = s.ee := rfl
@[simp] theorem setRxbuf_wel (bytes : List Byte) : (s.setRxbuf bytes).wel = s.wel := rfl
@[simp] theorem setRxbuf_busyNs (bytes : List Byte) : (s.setRxbuf bytes).busyNs = s.busyNs := rfl
@[simp] theorem setRxbuf_sel (bytes : List Byte) : (s.setRxbuf bytes).sel = s.sel := rfl
@[simp] theorem setRxbuf_txs (bytes : List Byte) : (s.setRxbuf bytes).txs = s.txs := rfl
@[simp] theorem setRxbuf_idleNs (bytes : List Byte) : (s.setRxbuf bytes).idleNs = s.idleNs := rfl
@[simp] theorem setRxbuf_setupNs (bytes : List Byte) : (s.setRxbuf bytes).setupNs = s.setupNs := rfl
@[simp] theorem setRxbuf_dev (bytes : List Byte) : (s.setRxbuf bytes).dev = s.dev := rfl
@[simp] theorem setRxbuf_opcodes (bytes : List Byte) : (s.setRxbuf bytes).opcodes = s.opcodes := rfl
@[simp] theorem setRxbuf_secondFrame (bytes : List Byte) : (s.setRxbuf bytes).secondFrame = s.secondFrame := rfl
@[simp] theorem setRxbuf_sentMarks (bytes : List Byte) : (s.setRxbuf bytes).sentMarks = s.sentMarks := rfl
@[simp] theorem setRxbuf_cycleAddr (bytes : List Byte) : (s.setRxbuf bytes).cycleAddr = s.cycleAddr := rfl
@[simp] theorem setRxbuf_pending (bytes : List Byte) : (s.setRxbuf bytes).pending = s.pending := rfl
@[simp] theorem setRxbuf_hostWords (bytes : List Byte) : (s.setRxbuf bytes).hostWords = s.hostWords := rfl
@[simp] theorem setRxbuf_hostText (bytes : List Byte) : (s.setRxbuf bytes).hostText = s.hostText := rfl
@[simp] theorem setRxbuf_fatalIn (bytes : List Byte) : (s.setRxbuf bytes).fatalIn = s.fatalIn := rfl
@[simp] theorem setRxbuf_draws (bytes : List Byte) : (s.setRxbuf bytes).draws = s.draws := rfl

/-! `setRdata` -/

@[simp] theorem setRdata_phase (w : Word) : (s.setRdata w).phase = s.phase := rfl
@[simp] theorem setRdata_op (w : Word) : (s.setRdata w).op = s.op := rfl
@[simp] theorem setRdata_addr (w : Word) : (s.setRdata w).addr = s.addr := rfl
@[simp] theorem setRdata_wdata (w : Word) : (s.setRdata w).wdata = s.wdata := rfl
@[simp] theorem setRdata_owned (w : Word) : (s.setRdata w).owned = s.owned := rfl
@[simp] theorem setRdata_rdata (w : Word) : (s.setRdata w).rdata = w := rfl
@[simp] theorem setRdata_txbuf (w : Word) : (s.setRdata w).txbuf = s.txbuf := rfl
@[simp] theorem setRdata_txlen (w : Word) : (s.setRdata w).txlen = s.txlen := rfl
@[simp] theorem setRdata_rxbuf (w : Word) : (s.setRdata w).rxbuf = s.rxbuf := rfl
@[simp] theorem setRdata_csOut (w : Word) : (s.setRdata w).csOut = s.csOut := rfl
@[simp] theorem setRdata_cfg (w : Word) : (s.setRdata w).cfg = s.cfg := rfl
@[simp] theorem setRdata_trace (w : Word) : (s.setRdata w).trace = s.trace := rfl
@[simp] theorem setRdata_ee (w : Word) : (s.setRdata w).ee = s.ee := rfl
@[simp] theorem setRdata_wel (w : Word) : (s.setRdata w).wel = s.wel := rfl
@[simp] theorem setRdata_busyNs (w : Word) : (s.setRdata w).busyNs = s.busyNs := rfl
@[simp] theorem setRdata_sel (w : Word) : (s.setRdata w).sel = s.sel := rfl
@[simp] theorem setRdata_txs (w : Word) : (s.setRdata w).txs = s.txs := rfl
@[simp] theorem setRdata_idleNs (w : Word) : (s.setRdata w).idleNs = s.idleNs := rfl
@[simp] theorem setRdata_setupNs (w : Word) : (s.setRdata w).setupNs = s.setupNs := rfl
@[simp] theorem setRdata_dev (w : Word) : (s.setRdata w).dev = s.dev := rfl
@[simp] theorem setRdata_opcodes (w : Word) : (s.setRdata w).opcodes = s.opcodes := rfl
@[simp] theorem setRdata_secondFrame (w : Word) : (s.setRdata w).secondFrame = s.secondFrame := rfl
@[simp] theorem setRdata_sentMarks (w : Word) : (s.setRdata w).sentMarks = s.sentMarks := rfl
@[simp] theorem setRdata_cycleAddr (w : Word) : (s.setRdata w).cycleAddr = s.cycleAddr := rfl
@[simp] theorem setRdata_pending (w : Word) : (s.setRdata w).pending = s.pending := rfl
@[simp] theorem setRdata_hostWords (w : Word) : (s.setRdata w).hostWords = s.hostWords := rfl
@[simp] theorem setRdata_hostText (w : Word) : (s.setRdata w).hostText = s.hostText := rfl
@[simp] theorem setRdata_fatalIn (w : Word) : (s.setRdata w).fatalIn = s.fatalIn := rfl
@[simp] theorem setRdata_draws (w : Word) : (s.setRdata w).draws = s.draws := rfl

/-! `driveCs` -/

@[simp] theorem driveCs_phase (b : Bool) : (s.driveCs b).phase = s.phase := rfl
@[simp] theorem driveCs_op (b : Bool) : (s.driveCs b).op = s.op := rfl
@[simp] theorem driveCs_addr (b : Bool) : (s.driveCs b).addr = s.addr := rfl
@[simp] theorem driveCs_wdata (b : Bool) : (s.driveCs b).wdata = s.wdata := rfl
@[simp] theorem driveCs_owned (b : Bool) : (s.driveCs b).owned = s.owned := rfl
@[simp] theorem driveCs_rdata (b : Bool) : (s.driveCs b).rdata = s.rdata := rfl
@[simp] theorem driveCs_txbuf (b : Bool) : (s.driveCs b).txbuf = s.txbuf := rfl
@[simp] theorem driveCs_txlen (b : Bool) : (s.driveCs b).txlen = s.txlen := rfl
@[simp] theorem driveCs_rxbuf (b : Bool) : (s.driveCs b).rxbuf = s.rxbuf := rfl
@[simp] theorem driveCs_csOut (b : Bool) : (s.driveCs b).csOut = (if b then .asserted else .deasserted) := rfl
@[simp] theorem driveCs_cfg (b : Bool) : (s.driveCs b).cfg = s.cfg := rfl
@[simp] theorem driveCs_trace (b : Bool) : (s.driveCs b).trace = s.trace := rfl
@[simp] theorem driveCs_ee (b : Bool) : (s.driveCs b).ee = s.ee := rfl
@[simp] theorem driveCs_wel (b : Bool) : (s.driveCs b).wel = s.wel := rfl
@[simp] theorem driveCs_busyNs (b : Bool) : (s.driveCs b).busyNs = s.busyNs := rfl
@[simp] theorem driveCs_sel (b : Bool) : (s.driveCs b).sel = s.sel := rfl
@[simp] theorem driveCs_txs (b : Bool) : (s.driveCs b).txs = s.txs := rfl
@[simp] theorem driveCs_idleNs (b : Bool) : (s.driveCs b).idleNs = s.idleNs := rfl
@[simp] theorem driveCs_setupNs (b : Bool) : (s.driveCs b).setupNs = s.setupNs := rfl
@[simp] theorem driveCs_dev (b : Bool) : (s.driveCs b).dev = s.dev := rfl
@[simp] theorem driveCs_opcodes (b : Bool) : (s.driveCs b).opcodes = s.opcodes := rfl
@[simp] theorem driveCs_secondFrame (b : Bool) : (s.driveCs b).secondFrame = s.secondFrame := rfl
@[simp] theorem driveCs_sentMarks (b : Bool) : (s.driveCs b).sentMarks = s.sentMarks := rfl
@[simp] theorem driveCs_cycleAddr (b : Bool) : (s.driveCs b).cycleAddr = s.cycleAddr := rfl
@[simp] theorem driveCs_pending (b : Bool) : (s.driveCs b).pending = s.pending := rfl
@[simp] theorem driveCs_hostWords (b : Bool) : (s.driveCs b).hostWords = s.hostWords := rfl
@[simp] theorem driveCs_hostText (b : Bool) : (s.driveCs b).hostText = s.hostText := rfl
@[simp] theorem driveCs_fatalIn (b : Bool) : (s.driveCs b).fatalIn = s.fatalIn := rfl
@[simp] theorem driveCs_draws (b : Bool) : (s.driveCs b).draws = s.draws := rfl

/-! `record` -/

@[simp] theorem record_phase (e : Event) : (s.record e).phase = s.phase := rfl
@[simp] theorem record_op (e : Event) : (s.record e).op = s.op := rfl
@[simp] theorem record_addr (e : Event) : (s.record e).addr = s.addr := rfl
@[simp] theorem record_wdata (e : Event) : (s.record e).wdata = s.wdata := rfl
@[simp] theorem record_owned (e : Event) : (s.record e).owned = s.owned := rfl
@[simp] theorem record_rdata (e : Event) : (s.record e).rdata = s.rdata := rfl
@[simp] theorem record_txbuf (e : Event) : (s.record e).txbuf = s.txbuf := rfl
@[simp] theorem record_txlen (e : Event) : (s.record e).txlen = s.txlen := rfl
@[simp] theorem record_rxbuf (e : Event) : (s.record e).rxbuf = s.rxbuf := rfl
@[simp] theorem record_csOut (e : Event) : (s.record e).csOut = s.csOut := rfl
@[simp] theorem record_cfg (e : Event) : (s.record e).cfg = s.cfg := rfl
@[simp] theorem record_trace (e : Event) : (s.record e).trace = s.trace ++ [e] := rfl
@[simp] theorem record_ee (e : Event) : (s.record e).ee = s.ee := rfl
@[simp] theorem record_wel (e : Event) : (s.record e).wel = s.wel := rfl
@[simp] theorem record_busyNs (e : Event) : (s.record e).busyNs = s.busyNs := rfl
@[simp] theorem record_sel (e : Event) : (s.record e).sel = s.sel := rfl
@[simp] theorem record_txs (e : Event) : (s.record e).txs = s.txs := rfl
@[simp] theorem record_idleNs (e : Event) : (s.record e).idleNs = s.idleNs := rfl
@[simp] theorem record_setupNs (e : Event) : (s.record e).setupNs = s.setupNs := rfl
@[simp] theorem record_dev (e : Event) : (s.record e).dev = s.dev := rfl
@[simp] theorem record_opcodes (e : Event) : (s.record e).opcodes = s.opcodes := rfl
@[simp] theorem record_secondFrame (e : Event) : (s.record e).secondFrame = s.secondFrame := rfl
@[simp] theorem record_sentMarks (e : Event) : (s.record e).sentMarks = s.sentMarks := rfl
@[simp] theorem record_cycleAddr (e : Event) : (s.record e).cycleAddr = s.cycleAddr := rfl
@[simp] theorem record_pending (e : Event) : (s.record e).pending = s.pending := rfl
@[simp] theorem record_hostWords (e : Event) : (s.record e).hostWords = s.hostWords := rfl
@[simp] theorem record_hostText (e : Event) : (s.record e).hostText = s.hostText := rfl
@[simp] theorem record_fatalIn (e : Event) : (s.record e).fatalIn = s.fatalIn := rfl
@[simp] theorem record_draws (e : Event) : (s.record e).draws = s.draws := rfl

/-! `setCfg` -/

@[simp] theorem setCfg_phase (c : Cfg) : (s.setCfg c).phase = s.phase := rfl
@[simp] theorem setCfg_op (c : Cfg) : (s.setCfg c).op = s.op := rfl
@[simp] theorem setCfg_addr (c : Cfg) : (s.setCfg c).addr = s.addr := rfl
@[simp] theorem setCfg_wdata (c : Cfg) : (s.setCfg c).wdata = s.wdata := rfl
@[simp] theorem setCfg_owned (c : Cfg) : (s.setCfg c).owned = s.owned := rfl
@[simp] theorem setCfg_rdata (c : Cfg) : (s.setCfg c).rdata = s.rdata := rfl
@[simp] theorem setCfg_txbuf (c : Cfg) : (s.setCfg c).txbuf = s.txbuf := rfl
@[simp] theorem setCfg_txlen (c : Cfg) : (s.setCfg c).txlen = s.txlen := rfl
@[simp] theorem setCfg_rxbuf (c : Cfg) : (s.setCfg c).rxbuf = s.rxbuf := rfl
@[simp] theorem setCfg_csOut (c : Cfg) : (s.setCfg c).csOut = s.csOut := rfl
@[simp] theorem setCfg_cfg (c : Cfg) : (s.setCfg c).cfg = c := rfl
@[simp] theorem setCfg_trace (c : Cfg) : (s.setCfg c).trace = s.trace := rfl
@[simp] theorem setCfg_ee (c : Cfg) : (s.setCfg c).ee = s.ee := rfl
@[simp] theorem setCfg_wel (c : Cfg) : (s.setCfg c).wel = s.wel := rfl
@[simp] theorem setCfg_busyNs (c : Cfg) : (s.setCfg c).busyNs = s.busyNs := rfl
@[simp] theorem setCfg_sel (c : Cfg) : (s.setCfg c).sel = s.sel := rfl
@[simp] theorem setCfg_txs (c : Cfg) : (s.setCfg c).txs = s.txs := rfl
@[simp] theorem setCfg_idleNs (c : Cfg) : (s.setCfg c).idleNs = s.idleNs := rfl
@[simp] theorem setCfg_setupNs (c : Cfg) : (s.setCfg c).setupNs = s.setupNs := rfl
@[simp] theorem setCfg_dev (c : Cfg) : (s.setCfg c).dev = s.dev := rfl
@[simp] theorem setCfg_opcodes (c : Cfg) : (s.setCfg c).opcodes = s.opcodes := rfl
@[simp] theorem setCfg_secondFrame (c : Cfg) : (s.setCfg c).secondFrame = s.secondFrame := rfl
@[simp] theorem setCfg_sentMarks (c : Cfg) : (s.setCfg c).sentMarks = s.sentMarks := rfl
@[simp] theorem setCfg_cycleAddr (c : Cfg) : (s.setCfg c).cycleAddr = s.cycleAddr := rfl
@[simp] theorem setCfg_pending (c : Cfg) : (s.setCfg c).pending = s.pending := rfl
@[simp] theorem setCfg_hostWords (c : Cfg) : (s.setCfg c).hostWords = s.hostWords := rfl
@[simp] theorem setCfg_hostText (c : Cfg) : (s.setCfg c).hostText = s.hostText := rfl
@[simp] theorem setCfg_fatalIn (c : Cfg) : (s.setCfg c).fatalIn = s.fatalIn := rfl
@[simp] theorem setCfg_draws (c : Cfg) : (s.setCfg c).draws = s.draws := rfl

/-! `select` -/

@[simp] theorem select_phase : s.select.phase = s.phase := rfl
@[simp] theorem select_op : s.select.op = s.op := rfl
@[simp] theorem select_addr : s.select.addr = s.addr := rfl
@[simp] theorem select_wdata : s.select.wdata = s.wdata := rfl
@[simp] theorem select_owned : s.select.owned = s.owned := rfl
@[simp] theorem select_rdata : s.select.rdata = s.rdata := rfl
@[simp] theorem select_txbuf : s.select.txbuf = s.txbuf := rfl
@[simp] theorem select_txlen : s.select.txlen = s.txlen := rfl
@[simp] theorem select_rxbuf : s.select.rxbuf = s.rxbuf := rfl
@[simp] theorem select_csOut : s.select.csOut = s.csOut := rfl
@[simp] theorem select_cfg : s.select.cfg = s.cfg := rfl
@[simp] theorem select_trace : s.select.trace = s.trace := rfl
@[simp] theorem select_ee : s.select.ee = s.ee := rfl
@[simp] theorem select_wel : s.select.wel = s.wel := rfl
@[simp] theorem select_busyNs : s.select.busyNs = s.busyNs := rfl
@[simp] theorem select_sel : s.select.sel = true := rfl
@[simp] theorem select_txs : s.select.txs = [] := rfl
@[simp] theorem select_idleNs : s.select.idleNs = s.idleNs := rfl
@[simp] theorem select_setupNs : s.select.setupNs = 0 := rfl
@[simp] theorem select_dev : s.select.dev = s.dev := rfl
@[simp] theorem select_opcodes : s.select.opcodes = s.opcodes := rfl
@[simp] theorem select_secondFrame : s.select.secondFrame = false := rfl
@[simp] theorem select_sentMarks : s.select.sentMarks = [] := rfl
@[simp] theorem select_cycleAddr : s.select.cycleAddr = s.cycleAddr := rfl
@[simp] theorem select_pending : s.select.pending = s.pending := rfl
@[simp] theorem select_hostWords : s.select.hostWords = s.hostWords := rfl
@[simp] theorem select_hostText : s.select.hostText = s.hostText := rfl
@[simp] theorem select_fatalIn : s.select.fatalIn = s.fatalIn := rfl
@[simp] theorem select_draws : s.select.draws = s.draws := rfl

/-! `deselect` -/

@[simp] theorem deselect_phase : s.deselect.phase = s.phase := rfl
@[simp] theorem deselect_op : s.deselect.op = s.op := rfl
@[simp] theorem deselect_addr : s.deselect.addr = s.addr := rfl
@[simp] theorem deselect_wdata : s.deselect.wdata = s.wdata := rfl
@[simp] theorem deselect_owned : s.deselect.owned = s.owned := rfl
@[simp] theorem deselect_rdata : s.deselect.rdata = s.rdata := rfl
@[simp] theorem deselect_txbuf : s.deselect.txbuf = s.txbuf := rfl
@[simp] theorem deselect_txlen : s.deselect.txlen = s.txlen := rfl
@[simp] theorem deselect_rxbuf : s.deselect.rxbuf = s.rxbuf := rfl
@[simp] theorem deselect_csOut : s.deselect.csOut = s.csOut := rfl
@[simp] theorem deselect_cfg : s.deselect.cfg = s.cfg := rfl
@[simp] theorem deselect_trace : s.deselect.trace = s.trace := rfl
@[simp] theorem deselect_ee : s.deselect.ee = s.ee := rfl
@[simp] theorem deselect_wel : s.deselect.wel = s.wel := rfl
@[simp] theorem deselect_busyNs : s.deselect.busyNs = s.busyNs := rfl
@[simp] theorem deselect_sel : s.deselect.sel = false := rfl
@[simp] theorem deselect_txs : s.deselect.txs = [] := rfl
@[simp] theorem deselect_idleNs : s.deselect.idleNs = 0 := rfl
@[simp] theorem deselect_setupNs : s.deselect.setupNs = s.setupNs := rfl
@[simp] theorem deselect_dev : s.deselect.dev = s.dev := rfl
@[simp] theorem deselect_opcodes : s.deselect.opcodes = s.opcodes := rfl
@[simp] theorem deselect_secondFrame : s.deselect.secondFrame = false := rfl
@[simp] theorem deselect_sentMarks : s.deselect.sentMarks = [] := rfl
@[simp] theorem deselect_cycleAddr : s.deselect.cycleAddr = s.cycleAddr := rfl
@[simp] theorem deselect_pending : s.deselect.pending = s.pending := rfl
@[simp] theorem deselect_hostWords : s.deselect.hostWords = s.hostWords := rfl
@[simp] theorem deselect_hostText : s.deselect.hostText = s.hostText := rfl
@[simp] theorem deselect_fatalIn : s.deselect.fatalIn = s.fatalIn := rfl
@[simp] theorem deselect_draws : s.deselect.draws = s.draws := rfl

/-! `elapse` -/

@[simp] theorem elapse_phase (t : Nat) : (s.elapse t).phase = s.phase := rfl
@[simp] theorem elapse_op (t : Nat) : (s.elapse t).op = s.op := rfl
@[simp] theorem elapse_addr (t : Nat) : (s.elapse t).addr = s.addr := rfl
@[simp] theorem elapse_wdata (t : Nat) : (s.elapse t).wdata = s.wdata := rfl
@[simp] theorem elapse_owned (t : Nat) : (s.elapse t).owned = s.owned := rfl
@[simp] theorem elapse_rdata (t : Nat) : (s.elapse t).rdata = s.rdata := rfl
@[simp] theorem elapse_txbuf (t : Nat) : (s.elapse t).txbuf = s.txbuf := rfl
@[simp] theorem elapse_txlen (t : Nat) : (s.elapse t).txlen = s.txlen := rfl
@[simp] theorem elapse_rxbuf (t : Nat) : (s.elapse t).rxbuf = s.rxbuf := rfl
@[simp] theorem elapse_csOut (t : Nat) : (s.elapse t).csOut = s.csOut := rfl
@[simp] theorem elapse_cfg (t : Nat) : (s.elapse t).cfg = s.cfg := rfl
@[simp] theorem elapse_trace (t : Nat) : (s.elapse t).trace = s.trace := rfl
@[simp] theorem elapse_ee (t : Nat) : (s.elapse t).ee = s.ee := rfl
@[simp] theorem elapse_wel (t : Nat) : (s.elapse t).wel = s.wel := rfl
@[simp] theorem elapse_busyNs (t : Nat) : (s.elapse t).busyNs = s.busyNs - t := rfl
@[simp] theorem elapse_sel (t : Nat) : (s.elapse t).sel = s.sel := rfl
@[simp] theorem elapse_txs (t : Nat) : (s.elapse t).txs = s.txs := rfl
@[simp] theorem elapse_idleNs (t : Nat) : (s.elapse t).idleNs = (if s.sel then s.idleNs else s.idleNs + t) := rfl
@[simp] theorem elapse_setupNs (t : Nat) : (s.elapse t).setupNs = (if s.sel && s.txs.isEmpty then s.setupNs + t else s.setupNs) := rfl
@[simp] theorem elapse_dev (t : Nat) : (s.elapse t).dev = s.dev := rfl
@[simp] theorem elapse_opcodes (t : Nat) : (s.elapse t).opcodes = s.opcodes := rfl
@[simp] theorem elapse_secondFrame (t : Nat) : (s.elapse t).secondFrame = s.secondFrame := rfl
@[simp] theorem elapse_sentMarks (t : Nat) : (s.elapse t).sentMarks = s.sentMarks := rfl
@[simp] theorem elapse_cycleAddr (t : Nat) : (s.elapse t).cycleAddr = s.cycleAddr := rfl
@[simp] theorem elapse_pending (t : Nat) : (s.elapse t).pending = s.pending := rfl
@[simp] theorem elapse_hostWords (t : Nat) : (s.elapse t).hostWords = s.hostWords := rfl
@[simp] theorem elapse_hostText (t : Nat) : (s.elapse t).hostText = s.hostText := rfl
@[simp] theorem elapse_fatalIn (t : Nat) : (s.elapse t).fatalIn = s.fatalIn := rfl
@[simp] theorem elapse_draws (t : Nat) : (s.elapse t).draws = s.draws := rfl

/-! `clockIn` -/

@[simp] theorem clockIn_phase (tx : List Byte) : (s.clockIn tx).phase = s.phase := rfl
@[simp] theorem clockIn_op (tx : List Byte) : (s.clockIn tx).op = s.op := rfl
@[simp] theorem clockIn_addr (tx : List Byte) : (s.clockIn tx).addr = s.addr := rfl
@[simp] theorem clockIn_wdata (tx : List Byte) : (s.clockIn tx).wdata = s.wdata := rfl
@[simp] theorem clockIn_owned (tx : List Byte) : (s.clockIn tx).owned = s.owned := rfl
@[simp] theorem clockIn_rdata (tx : List Byte) : (s.clockIn tx).rdata = s.rdata := rfl
@[simp] theorem clockIn_txbuf (tx : List Byte) : (s.clockIn tx).txbuf = s.txbuf := rfl
@[simp] theorem clockIn_txlen (tx : List Byte) : (s.clockIn tx).txlen = s.txlen := rfl
@[simp] theorem clockIn_rxbuf (tx : List Byte) : (s.clockIn tx).rxbuf = s.rxbuf := rfl
@[simp] theorem clockIn_csOut (tx : List Byte) : (s.clockIn tx).csOut = s.csOut := rfl
@[simp] theorem clockIn_cfg (tx : List Byte) : (s.clockIn tx).cfg = s.cfg := rfl
@[simp] theorem clockIn_trace (tx : List Byte) : (s.clockIn tx).trace = s.trace := rfl
@[simp] theorem clockIn_ee (tx : List Byte) : (s.clockIn tx).ee = s.ee := rfl
@[simp] theorem clockIn_wel (tx : List Byte) : (s.clockIn tx).wel = s.wel := rfl
@[simp] theorem clockIn_busyNs (tx : List Byte) : (s.clockIn tx).busyNs = s.busyNs := rfl
@[simp] theorem clockIn_sel (tx : List Byte) : (s.clockIn tx).sel = s.sel := rfl
@[simp] theorem clockIn_txs (tx : List Byte) : (s.clockIn tx).txs = (if s.sel then s.txs ++ bitsOfBytes tx else s.txs) := rfl
@[simp] theorem clockIn_idleNs (tx : List Byte) : (s.clockIn tx).idleNs = s.idleNs := rfl
@[simp] theorem clockIn_setupNs (tx : List Byte) : (s.clockIn tx).setupNs = s.setupNs := rfl
@[simp] theorem clockIn_dev (tx : List Byte) : (s.clockIn tx).dev = s.dev := rfl
@[simp] theorem clockIn_opcodes (tx : List Byte) : (s.clockIn tx).opcodes = s.opcodes := rfl
@[simp] theorem clockIn_secondFrame (tx : List Byte) : (s.clockIn tx).secondFrame =
    (s.secondFrame || (s.sel && secondFrameIn s.opcodes (s.sentMarks ++ tx.map (fun b => b != s.cfg.recvFill)) (s.txs ++ bitsOfBytes tx))) := rfl
@[simp] theorem clockIn_sentMarks (tx : List Byte) : (s.clockIn tx).sentMarks =
    (if s.sel then s.sentMarks ++ tx.map (fun b => b != s.cfg.recvFill) else s.sentMarks) := rfl
@[simp] theorem clockIn_cycleAddr (tx : List Byte) : (s.clockIn tx).cycleAddr = s.cycleAddr := rfl
@[simp] theorem clockIn_pending (tx : List Byte) : (s.clockIn tx).pending = s.pending := rfl
@[simp] theorem clockIn_hostWords (tx : List Byte) : (s.clockIn tx).hostWords = s.hostWords := rfl
@[simp] theorem clockIn_hostText (tx : List Byte) : (s.clockIn tx).hostText = s.hostText := rfl
@[simp] theorem clockIn_fatalIn (tx : List Byte) : (s.clockIn tx).fatalIn = s.fatalIn := rfl
@[simp] theorem clockIn_draws (tx : List Byte) : (s.clockIn tx).draws = s.draws := rfl

/-! `storeWord` -/

@[simp] theorem storeWord_phase (a : Addr) (w : Word) (ms : Nat) : (s.storeWord a w ms).phase = s.phase := rfl
@[simp] theorem storeWord_op (a : Addr) (w : Word) (ms : Nat) : (s.storeWord a w ms).op = s.op := rfl
@[simp] theorem storeWord_addr (a : Addr) (w : Word) (ms : Nat) : (s.storeWord a w ms).addr = s.addr := rfl
@[simp] theorem storeWord_wdata (a : Addr) (w : Word) (ms : Nat) : (s.storeWord a w ms).wdata = s.wdata := rfl
@[simp] theorem storeWord_owned (a : Addr) (w : Word) (ms : Nat) : (s.storeWord a w ms).owned = s.owned := rfl
@[simp] theorem storeWord_rdata (a : Addr) (w : Word) (ms : Nat) : (s.storeWord a w ms).rdata = s.rdata := rfl
@[simp] theorem storeWord_txbuf (a : Addr) (w : Word) (ms : Nat) : (s.storeWord a w ms).txbuf = s.txbuf := rfl
@[simp] theorem storeWord_txlen (a : Addr) (w : Word) (ms : Nat) : (s.storeWord a w ms).txlen = s.txlen := rfl
@[simp] theorem storeWord_rxbuf (a : Addr) (w : Word) (ms : Nat) : (s.storeWord a w ms).rxbuf = s.rxbuf := rfl
@[simp] theorem storeWord_csOut (a : Addr) (w : Word) (ms : Nat) : (s.storeWord a w ms).csOut = s.csOut := rfl
@[simp] theorem storeWord_cfg (a : Addr) (w : Word) (ms : Nat) : (s.storeWord a w ms).cfg = s.cfg := rfl
@[simp] theorem storeWord_trace (a : Addr) (w : Word) (ms : Nat) : (s.storeWord a w ms).trace = s.trace := rfl
@[simp] theorem storeWord_ee (a : Addr) (w : Word) (ms : Nat) : (s.storeWord a w ms).ee = memWrite s.ee a w := rfl
@[simp] theorem storeWord_wel (a : Addr) (w : Word) (ms : Nat) : (s.storeWord a w ms).wel = s.wel := rfl
@[simp] theorem storeWord_busyNs (a : Addr) (w : Word) (ms : Nat) : (s.storeWord a w ms).busyNs = 1000000 * ms := rfl
@[simp] theorem storeWord_sel (a : Addr) (w : Word) (ms : Nat) : (s.storeWord a w ms).sel = s.sel := rfl
@[simp] theorem storeWord_txs (a : Addr) (w : Word) (ms : Nat) : (s.storeWord a w ms).txs = s.txs := rfl
@[simp] theorem storeWord_idleNs (a : Addr) (w : Word) (ms : Nat) : (s.storeWord a w ms).idleNs = s.idleNs := rfl
@[simp] theorem storeWord_setupNs (a : Addr) (w : Word) (ms : Nat) : (s.storeWord a w ms).setupNs = s.setupNs := rfl
@[simp] theorem storeWord_dev (a : Addr) (w : Word) (ms : Nat) : (s.storeWord a w ms).dev = s.dev := rfl
@[simp] theorem storeWord_opcodes (a : Addr) (w : Word) (ms : Nat) : (s.storeWord a w ms).opcodes = s.opcodes := rfl
@[simp] theorem storeWord_secondFrame (a : Addr) (w : Word) (ms : Nat) : (s.storeWord a w ms).secondFrame = s.secondFrame := rfl
@[simp] theorem storeWord_sentMarks (a : Addr) (w : Word) (ms : Nat) : (s.storeWord a w ms).sentMarks = s.sentMarks := rfl
@[simp] theorem storeWord_cycleAddr (a : Addr) (w : Word) (ms : Nat) : (s.storeWord a w ms).cycleAddr = a := rfl
@[simp] theorem storeWord_pending (a : Addr) (w : Word) (ms : Nat) : (s.storeWord a w ms).pending = s.pending := rfl
@[simp] theorem storeWord_hostWords (a : Addr) (w : Word) (ms : Nat) : (s.storeWord a w ms).hostWords = s.hostWords := rfl
@[simp] theorem storeWord_hostText (a : Addr) (w : Word) (ms : Nat) : (s.storeWord a w ms).hostText = s.hostText := rfl
@[simp] theorem storeWord_fatalIn (a : Addr) (w : Word) (ms : Nat) : (s.storeWord a w ms).fatalIn = s.fatalIn := rfl
@[simp] theorem storeWord_draws (a : Addr) (w : Word) (ms : Nat) : (s.storeWord a w ms).draws = s.draws := rfl

/-! `setLatch` -/

@[simp] theorem setLatch_phase (b : Bool) : (s.setLatch b).phase = s.phase := rfl
@[simp] theorem setLatch_op (b : Bool) : (s.setLatch b).op = s.op := rfl
@[simp] theorem setLatch_addr (b : Bool) : (s.setLatch b).addr = s.addr := rfl
@[simp] theorem setLatch_wdata (b : Bool) : (s.setLatch b).wdata = s.wdata := rfl
@[simp] theorem setLatch_owned (b : Bool) : (s.setLatch b).owned = s.owned := rfl
@[simp] theorem setLatch_rdata (b : Bool) : (s.setLatch b).rdata = s.rdata := rfl
@[simp] theorem setLatch_txbuf (b : Bool) : (s.setLatch b).txbuf = s.txbuf := rfl
@[simp] theorem setLatch_txlen (b : Bool) : (s.setLatch b).txlen = s.txlen := rfl
@[simp] theorem setLatch_rxbuf (b : Bool) : (s.setLatch b).rxbuf = s.rxbuf := rfl
@[simp] theorem setLatch_csOut (b : Bool) : (s.setLatch b).csOut = s.csOut := rfl
@[simp] theorem setLatch_cfg (b : Bool) : (s.setLatch b).cfg = s.cfg := rfl
@[simp] theorem setLatch_trace (b : Bool) : (s.setLatch b).trace = s.trace := rfl
@[simp] theorem setLatch_ee (b : Bool) : (s.setLatch b).ee = s.ee := rfl
@[simp] theorem setLatch_wel (b : Bool) : (s.setLatch b).wel = b := rfl
@[simp] theorem setLatch_busyNs (b : Bool) : (s.setLatch b).busyNs = s.busyNs := rfl
@[simp] theorem setLatch_sel (b : Bool) : (s.setLatch b).sel = s.sel := rfl
@[simp] theorem setLatch_txs (b : Bool) : (s.setLatch b).txs = s.txs := rfl
@[simp] theorem setLatch_idleNs (b : Bool) : (s.setLatch b).idleNs = s.idleNs := rfl
@[simp] theorem setLatch_setupNs (b : Bool) : (s.setLatch b).setupNs = s.setupNs := rfl
@[simp] theorem setLatch_dev (b : Bool) : (s.setLatch b).dev = s.dev := rfl
@[simp] theorem setLatch_opcodes (b : Bool) : (s.setLatch b).opcodes = s.opcodes := rfl
@[simp] theorem setLatch_secondFrame (b : Bool) : (s.setLatch b).secondFrame = s.secondFrame := rfl
@[simp] theorem setLatch_sentMarks (b : Bool) : (s.setLatch b).sentMarks = s.sentMarks := rfl
@[simp] theorem setLatch_cycleAddr (b : Bool) : (s.setLatch b).cycleAddr = s.cycleAddr := rfl
@[simp] theorem setLatch_pending (b : Bool) : (s.setLatch b).pending = s.pending := rfl
@[simp] theorem setLatch_hostWords (b : Bool) : (s.setLatch b).hostWords = s.hostWords := rfl
@[simp] theorem setLatch_hostText (b : Bool) : (s.setLatch b).hostText = s.hostText := rfl
@[simp] theorem setLatch_fatalIn (b : Bool) : (s.setLatch b).fatalIn = s.fatalIn := rfl
@[simp] theorem setLatch_draws (b : Bool) : (s.setLatch b).draws = s.draws := rfl

/-! `scramble` -/

@[simp] theorem scramble_phase (words : List Addr) : (s.scramble words).phase = s.phase := rfl
@[simp] theorem scramble_op (words : List Addr) : (s.scramble words).op = s.op := rfl
@[simp] theorem scramble_addr (words : List Addr) : (s.scramble words).addr = s.addr := rfl
@[simp] theorem scramble_wdata (words : List Addr) : (s.scramble words).wdata = s.wdata := rfl
@[simp] theorem scramble_owned (words : List Addr) : (s.scramble words).owned = s.owned := rfl
@[simp] theorem scramble_rdata (words : List Addr) : (s.scramble words).rdata = s.rdata := rfl
@[simp] theorem scramble_txbuf (words : List Addr) : (s.scramble words).txbuf = s.txbuf := rfl
@[simp] theorem scramble_txlen (words : List Addr) : (s.scramble words).txlen = s.txlen := rfl
@[simp] theorem scramble_rxbuf (words : List Addr) : (s.scramble words).rxbuf = s.rxbuf := rfl
@[simp] theorem scramble_csOut (words : List Addr) : (s.scramble words).csOut = s.csOut := rfl
@[simp] theorem scramble_cfg (words : List Addr) : (s.scramble words).cfg = s.cfg := rfl
@[simp] theorem scramble_trace (words : List Addr) : (s.scramble words).trace = s.trace := rfl
@[simp] theorem scramble_ee (words : List Addr) : (s.scramble words).ee = scrambleWords words s.draws s.ee := rfl
@[simp] theorem scramble_wel (words : List Addr) : (s.scramble words).wel = s.wel := rfl
@[simp] theorem scramble_busyNs (words : List Addr) : (s.scramble words).busyNs = s.busyNs := rfl
@[simp] theorem scramble_sel (words : List Addr) : (s.scramble words).sel = s.sel := rfl
@[simp] theorem scramble_txs (words : List Addr) : (s.scramble words).txs = s.txs := rfl
@[simp] theorem scramble_idleNs (words : List Addr) : (s.scramble words).idleNs = s.idleNs := rfl
@[simp] theorem scramble_setupNs (words : List Addr) : (s.scramble words).setupNs = s.setupNs := rfl
@[simp] theorem scramble_dev (words : List Addr) : (s.scramble words).dev = s.dev := rfl
@[simp] theorem scramble_opcodes (words : List Addr) : (s.scramble words).opcodes = s.opcodes := rfl
@[simp] theorem scramble_secondFrame (words : List Addr) : (s.scramble words).secondFrame = s.secondFrame := rfl
@[simp] theorem scramble_sentMarks (words : List Addr) : (s.scramble words).sentMarks = s.sentMarks := rfl
@[simp] theorem scramble_cycleAddr (words : List Addr) : (s.scramble words).cycleAddr = s.cycleAddr := rfl
@[simp] theorem scramble_pending (words : List Addr) : (s.scramble words).pending = s.pending := rfl
@[simp] theorem scramble_hostWords (words : List Addr) : (s.scramble words).hostWords = s.hostWords := rfl
@[simp] theorem scramble_hostText (words : List Addr) : (s.scramble words).hostText = s.hostText := rfl
@[simp] theorem scramble_fatalIn (words : List Addr) : (s.scramble words).fatalIn = s.fatalIn := rfl
@[simp] theorem scramble_draws (words : List Addr) : (s.scramble words).draws = s.draws + 16 * words.length := rfl

/-! `freeDevice` -/

@[simp] theorem freeDevice_ee : s.freeDevice.ee = freeArray (s.draws + 3) 1024 := rfl
@[simp] theorem freeDevice_wel : s.freeDevice.wel = Config.drawBit (s.draws + 1) := rfl
@[simp] theorem freeDevice_busyNs : s.freeDevice.busyNs = Config.drawNat (s.draws + 1) := rfl
@[simp] theorem freeDevice_sel : s.freeDevice.sel = Config.drawBit s.draws := rfl
@[simp] theorem freeDevice_txs :
    s.freeDevice.txs = (if Config.drawBit s.draws then drawBits (s.draws + 16387) (Config.drawNat s.draws) else []) := rfl
@[simp] theorem freeDevice_idleNs : s.freeDevice.idleNs = Config.drawNat (s.draws + 2) := rfl
@[simp] theorem freeDevice_setupNs : s.freeDevice.setupNs = Config.drawNat (s.draws + 3) := rfl
theorem freeDevice_secondFrame :
    s.freeDevice.secondFrame = (Config.drawBit (s.draws + 2) && decide (32 ≤ s.freeDevice.txs.length)) := rfl
@[simp] theorem freeDevice_sentMarks : s.freeDevice.sentMarks =
    (if Config.drawBit s.draws then drawBits (s.draws + 16387 + Config.drawNat s.draws) (Config.drawNat (s.draws + 5)) else []) := rfl
@[simp] theorem freeDevice_cycleAddr : s.freeDevice.cycleAddr = BitVec.ofNat 10 (Config.drawNat (s.draws + 4)) := rfl
@[simp] theorem freeDevice_draws : s.freeDevice.draws = s.draws + 16387 + Config.drawNat s.draws + Config.drawNat (s.draws + 5) := rfl
@[simp] theorem freeDevice_phase : s.freeDevice.phase = s.phase := rfl
@[simp] theorem freeDevice_op : s.freeDevice.op = s.op := rfl
@[simp] theorem freeDevice_addr : s.freeDevice.addr = s.addr := rfl
@[simp] theorem freeDevice_wdata : s.freeDevice.wdata = s.wdata := rfl
@[simp] theorem freeDevice_owned : s.freeDevice.owned = s.owned := rfl
@[simp] theorem freeDevice_rdata : s.freeDevice.rdata = s.rdata := rfl
@[simp] theorem freeDevice_txbuf : s.freeDevice.txbuf = s.txbuf := rfl
@[simp] theorem freeDevice_txlen : s.freeDevice.txlen = s.txlen := rfl
@[simp] theorem freeDevice_rxbuf : s.freeDevice.rxbuf = s.rxbuf := rfl
@[simp] theorem freeDevice_csOut : s.freeDevice.csOut = s.csOut := rfl
@[simp] theorem freeDevice_cfg : s.freeDevice.cfg = s.cfg := rfl
@[simp] theorem freeDevice_trace : s.freeDevice.trace = s.trace := rfl
@[simp] theorem freeDevice_dev : s.freeDevice.dev = s.dev := rfl
@[simp] theorem freeDevice_opcodes : s.freeDevice.opcodes = s.opcodes := rfl
@[simp] theorem freeDevice_pending : s.freeDevice.pending = s.pending := rfl
@[simp] theorem freeDevice_hostWords : s.freeDevice.hostWords = s.hostWords := rfl
@[simp] theorem freeDevice_hostText : s.freeDevice.hostText = s.hostText := rfl
@[simp] theorem freeDevice_fatalIn : s.freeDevice.fatalIn = s.fatalIn := rfl

/-! `countTransfer` -/

@[simp] theorem countTransfer_phase : s.countTransfer.phase = s.phase := rfl
@[simp] theorem countTransfer_op : s.countTransfer.op = s.op := rfl
@[simp] theorem countTransfer_addr : s.countTransfer.addr = s.addr := rfl
@[simp] theorem countTransfer_wdata : s.countTransfer.wdata = s.wdata := rfl
@[simp] theorem countTransfer_owned : s.countTransfer.owned = s.owned := rfl
@[simp] theorem countTransfer_rdata : s.countTransfer.rdata = s.rdata := rfl
@[simp] theorem countTransfer_txbuf : s.countTransfer.txbuf = s.txbuf := rfl
@[simp] theorem countTransfer_txlen : s.countTransfer.txlen = s.txlen := rfl
@[simp] theorem countTransfer_rxbuf : s.countTransfer.rxbuf = s.rxbuf := rfl
@[simp] theorem countTransfer_csOut : s.countTransfer.csOut = s.csOut := rfl
@[simp] theorem countTransfer_cfg : s.countTransfer.cfg = s.cfg := rfl
@[simp] theorem countTransfer_trace : s.countTransfer.trace = s.trace := rfl
@[simp] theorem countTransfer_ee : s.countTransfer.ee = s.ee := rfl
@[simp] theorem countTransfer_wel : s.countTransfer.wel = s.wel := rfl
@[simp] theorem countTransfer_busyNs : s.countTransfer.busyNs = s.busyNs := rfl
@[simp] theorem countTransfer_sel : s.countTransfer.sel = s.sel := rfl
@[simp] theorem countTransfer_txs : s.countTransfer.txs = s.txs := rfl
@[simp] theorem countTransfer_idleNs : s.countTransfer.idleNs = s.idleNs := rfl
@[simp] theorem countTransfer_setupNs : s.countTransfer.setupNs = s.setupNs := rfl
@[simp] theorem countTransfer_dev : s.countTransfer.dev = s.dev := rfl
@[simp] theorem countTransfer_opcodes : s.countTransfer.opcodes = s.opcodes := rfl
@[simp] theorem countTransfer_secondFrame : s.countTransfer.secondFrame = s.secondFrame := rfl
@[simp] theorem countTransfer_sentMarks : s.countTransfer.sentMarks = s.sentMarks := rfl
@[simp] theorem countTransfer_cycleAddr : s.countTransfer.cycleAddr = s.cycleAddr := rfl
@[simp] theorem countTransfer_pending : s.countTransfer.pending = s.pending := rfl
@[simp] theorem countTransfer_hostWords : s.countTransfer.hostWords = s.hostWords := rfl
@[simp] theorem countTransfer_hostText : s.countTransfer.hostText = s.hostText := rfl
@[simp] theorem countTransfer_fatalIn : s.countTransfer.fatalIn = s.fatalIn.map (· - 1) := rfl
@[simp] theorem countTransfer_draws : s.countTransfer.draws = s.draws := rfl

/-! `setPending` -/

@[simp] theorem setPending_phase (rs : List Request) : (s.setPending rs).phase = s.phase := rfl
@[simp] theorem setPending_op (rs : List Request) : (s.setPending rs).op = s.op := rfl
@[simp] theorem setPending_addr (rs : List Request) : (s.setPending rs).addr = s.addr := rfl
@[simp] theorem setPending_wdata (rs : List Request) : (s.setPending rs).wdata = s.wdata := rfl
@[simp] theorem setPending_owned (rs : List Request) : (s.setPending rs).owned = s.owned := rfl
@[simp] theorem setPending_rdata (rs : List Request) : (s.setPending rs).rdata = s.rdata := rfl
@[simp] theorem setPending_txbuf (rs : List Request) : (s.setPending rs).txbuf = s.txbuf := rfl
@[simp] theorem setPending_txlen (rs : List Request) : (s.setPending rs).txlen = s.txlen := rfl
@[simp] theorem setPending_rxbuf (rs : List Request) : (s.setPending rs).rxbuf = s.rxbuf := rfl
@[simp] theorem setPending_csOut (rs : List Request) : (s.setPending rs).csOut = s.csOut := rfl
@[simp] theorem setPending_cfg (rs : List Request) : (s.setPending rs).cfg = s.cfg := rfl
@[simp] theorem setPending_trace (rs : List Request) : (s.setPending rs).trace = s.trace := rfl
@[simp] theorem setPending_ee (rs : List Request) : (s.setPending rs).ee = s.ee := rfl
@[simp] theorem setPending_wel (rs : List Request) : (s.setPending rs).wel = s.wel := rfl
@[simp] theorem setPending_busyNs (rs : List Request) : (s.setPending rs).busyNs = s.busyNs := rfl
@[simp] theorem setPending_sel (rs : List Request) : (s.setPending rs).sel = s.sel := rfl
@[simp] theorem setPending_txs (rs : List Request) : (s.setPending rs).txs = s.txs := rfl
@[simp] theorem setPending_idleNs (rs : List Request) : (s.setPending rs).idleNs = s.idleNs := rfl
@[simp] theorem setPending_setupNs (rs : List Request) : (s.setPending rs).setupNs = s.setupNs := rfl
@[simp] theorem setPending_dev (rs : List Request) : (s.setPending rs).dev = s.dev := rfl
@[simp] theorem setPending_opcodes (rs : List Request) : (s.setPending rs).opcodes = s.opcodes := rfl
@[simp] theorem setPending_secondFrame (rs : List Request) : (s.setPending rs).secondFrame = s.secondFrame := rfl
@[simp] theorem setPending_sentMarks (rs : List Request) : (s.setPending rs).sentMarks = s.sentMarks := rfl
@[simp] theorem setPending_cycleAddr (rs : List Request) : (s.setPending rs).cycleAddr = s.cycleAddr := rfl
@[simp] theorem setPending_pending (rs : List Request) : (s.setPending rs).pending = rs := rfl
@[simp] theorem setPending_hostWords (rs : List Request) : (s.setPending rs).hostWords = s.hostWords := rfl
@[simp] theorem setPending_hostText (rs : List Request) : (s.setPending rs).hostText = s.hostText := rfl
@[simp] theorem setPending_fatalIn (rs : List Request) : (s.setPending rs).fatalIn = s.fatalIn := rfl
@[simp] theorem setPending_draws (rs : List Request) : (s.setPending rs).draws = s.draws := rfl

/-! `setHostWords` -/

@[simp] theorem setHostWords_phase (ws : List Word) : (s.setHostWords ws).phase = s.phase := rfl
@[simp] theorem setHostWords_op (ws : List Word) : (s.setHostWords ws).op = s.op := rfl
@[simp] theorem setHostWords_addr (ws : List Word) : (s.setHostWords ws).addr = s.addr := rfl
@[simp] theorem setHostWords_wdata (ws : List Word) : (s.setHostWords ws).wdata = s.wdata := rfl
@[simp] theorem setHostWords_owned (ws : List Word) : (s.setHostWords ws).owned = s.owned := rfl
@[simp] theorem setHostWords_rdata (ws : List Word) : (s.setHostWords ws).rdata = s.rdata := rfl
@[simp] theorem setHostWords_txbuf (ws : List Word) : (s.setHostWords ws).txbuf = s.txbuf := rfl
@[simp] theorem setHostWords_txlen (ws : List Word) : (s.setHostWords ws).txlen = s.txlen := rfl
@[simp] theorem setHostWords_rxbuf (ws : List Word) : (s.setHostWords ws).rxbuf = s.rxbuf := rfl
@[simp] theorem setHostWords_csOut (ws : List Word) : (s.setHostWords ws).csOut = s.csOut := rfl
@[simp] theorem setHostWords_cfg (ws : List Word) : (s.setHostWords ws).cfg = s.cfg := rfl
@[simp] theorem setHostWords_trace (ws : List Word) : (s.setHostWords ws).trace = s.trace := rfl
@[simp] theorem setHostWords_ee (ws : List Word) : (s.setHostWords ws).ee = s.ee := rfl
@[simp] theorem setHostWords_wel (ws : List Word) : (s.setHostWords ws).wel = s.wel := rfl
@[simp] theorem setHostWords_busyNs (ws : List Word) : (s.setHostWords ws).busyNs = s.busyNs := rfl
@[simp] theorem setHostWords_sel (ws : List Word) : (s.setHostWords ws).sel = s.sel := rfl
@[simp] theorem setHostWords_txs (ws : List Word) : (s.setHostWords ws).txs = s.txs := rfl
@[simp] theorem setHostWords_idleNs (ws : List Word) : (s.setHostWords ws).idleNs = s.idleNs := rfl
@[simp] theorem setHostWords_setupNs (ws : List Word) : (s.setHostWords ws).setupNs = s.setupNs := rfl
@[simp] theorem setHostWords_dev (ws : List Word) : (s.setHostWords ws).dev = s.dev := rfl
@[simp] theorem setHostWords_opcodes (ws : List Word) : (s.setHostWords ws).opcodes = s.opcodes := rfl
@[simp] theorem setHostWords_secondFrame (ws : List Word) : (s.setHostWords ws).secondFrame = s.secondFrame := rfl
@[simp] theorem setHostWords_sentMarks (ws : List Word) : (s.setHostWords ws).sentMarks = s.sentMarks := rfl
@[simp] theorem setHostWords_cycleAddr (ws : List Word) : (s.setHostWords ws).cycleAddr = s.cycleAddr := rfl
@[simp] theorem setHostWords_pending (ws : List Word) : (s.setHostWords ws).pending = s.pending := rfl
@[simp] theorem setHostWords_hostWords (ws : List Word) : (s.setHostWords ws).hostWords = ws := rfl
@[simp] theorem setHostWords_hostText (ws : List Word) : (s.setHostWords ws).hostText = s.hostText := rfl
@[simp] theorem setHostWords_fatalIn (ws : List Word) : (s.setHostWords ws).fatalIn = s.fatalIn := rfl
@[simp] theorem setHostWords_draws (ws : List Word) : (s.setHostWords ws).draws = s.draws := rfl

/-! `setHostText` -/

@[simp] theorem setHostText_phase (cs : List Byte) : (s.setHostText cs).phase = s.phase := rfl
@[simp] theorem setHostText_op (cs : List Byte) : (s.setHostText cs).op = s.op := rfl
@[simp] theorem setHostText_addr (cs : List Byte) : (s.setHostText cs).addr = s.addr := rfl
@[simp] theorem setHostText_wdata (cs : List Byte) : (s.setHostText cs).wdata = s.wdata := rfl
@[simp] theorem setHostText_owned (cs : List Byte) : (s.setHostText cs).owned = s.owned := rfl
@[simp] theorem setHostText_rdata (cs : List Byte) : (s.setHostText cs).rdata = s.rdata := rfl
@[simp] theorem setHostText_txbuf (cs : List Byte) : (s.setHostText cs).txbuf = s.txbuf := rfl
@[simp] theorem setHostText_txlen (cs : List Byte) : (s.setHostText cs).txlen = s.txlen := rfl
@[simp] theorem setHostText_rxbuf (cs : List Byte) : (s.setHostText cs).rxbuf = s.rxbuf := rfl
@[simp] theorem setHostText_csOut (cs : List Byte) : (s.setHostText cs).csOut = s.csOut := rfl
@[simp] theorem setHostText_cfg (cs : List Byte) : (s.setHostText cs).cfg = s.cfg := rfl
@[simp] theorem setHostText_trace (cs : List Byte) : (s.setHostText cs).trace = s.trace := rfl
@[simp] theorem setHostText_ee (cs : List Byte) : (s.setHostText cs).ee = s.ee := rfl
@[simp] theorem setHostText_wel (cs : List Byte) : (s.setHostText cs).wel = s.wel := rfl
@[simp] theorem setHostText_busyNs (cs : List Byte) : (s.setHostText cs).busyNs = s.busyNs := rfl
@[simp] theorem setHostText_sel (cs : List Byte) : (s.setHostText cs).sel = s.sel := rfl
@[simp] theorem setHostText_txs (cs : List Byte) : (s.setHostText cs).txs = s.txs := rfl
@[simp] theorem setHostText_idleNs (cs : List Byte) : (s.setHostText cs).idleNs = s.idleNs := rfl
@[simp] theorem setHostText_setupNs (cs : List Byte) : (s.setHostText cs).setupNs = s.setupNs := rfl
@[simp] theorem setHostText_dev (cs : List Byte) : (s.setHostText cs).dev = s.dev := rfl
@[simp] theorem setHostText_opcodes (cs : List Byte) : (s.setHostText cs).opcodes = s.opcodes := rfl
@[simp] theorem setHostText_secondFrame (cs : List Byte) : (s.setHostText cs).secondFrame = s.secondFrame := rfl
@[simp] theorem setHostText_sentMarks (cs : List Byte) : (s.setHostText cs).sentMarks = s.sentMarks := rfl
@[simp] theorem setHostText_cycleAddr (cs : List Byte) : (s.setHostText cs).cycleAddr = s.cycleAddr := rfl
@[simp] theorem setHostText_pending (cs : List Byte) : (s.setHostText cs).pending = s.pending := rfl
@[simp] theorem setHostText_hostWords (cs : List Byte) : (s.setHostText cs).hostWords = s.hostWords := rfl
@[simp] theorem setHostText_hostText (cs : List Byte) : (s.setHostText cs).hostText = cs := rfl
@[simp] theorem setHostText_fatalIn (cs : List Byte) : (s.setHostText cs).fatalIn = s.fatalIn := rfl
@[simp] theorem setHostText_draws (cs : List Byte) : (s.setHostText cs).draws = s.draws := rfl

end Sys2Proof.Machine
end

