-- ==== Sys2Proof/Laws/Device.lean ====
section
/-! SUPPORT. What the device answers and does (R64 to R71): the bits it sends, what a transaction is, and everything each event can do to the
state. -/

namespace Sys2Proof.Machine

/-! ### What the device sends -/

@[simp] theorem responseBits_length (s : State) (txs : List Bool) (d : Nat) (bits : List Bool) :
    (responseBits s txs d bits).length = bits.length := by
  induction bits generalizing txs d with
  | nil => rfl
  | cons b bits ih => simp [responseBits, ih]

/-- A transfer brings back as many bytes as it sends (R241). -/
@[simp] theorem received_length (s : State) (tx : List Byte) : (s.received tx).length = tx.length := by
  rw [State.received]
  split_ifs
  · exact (bitsOfBytes_bytesOfBits _ _ (by simp)).2
  · exact (bitsOfBytes_bytesOfBits _ _ (by simp [drawBits])).2

@[simp] theorem fillBytes_length (s : State) (n : Nat) : (s.fillBytes n).length = n := by simp [State.fillBytes]

/-- What a transfer brings back depends on the device and the draws alone. -/
theorem received_congr {s t : State} (tx : List Byte) (h1 : t.sel = s.sel) (h2 : t.txs = s.txs) (h3 : t.draws = s.draws)
    (h4 : t.opcodes = s.opcodes) (h5 : t.dev = s.dev) (h6 : t.ee = s.ee) : t.received tx = s.received tx := by
  have key : ∀ (bits : List Bool) (txs : List Bool) (d : Nat), responseBits t txs d bits = responseBits s txs d bits := by
    intro bits
    induction bits with
    | nil => intro txs d; rfl
    | cons b bits ih => intro txs d; simp only [responseBits, ih, responseBit, h4, h5, h6]
  simp only [State.received, h1, h2, h3, key]

/-- The bits that follow a READ frame, one by one (R65). -/
theorem responseBits_getElem (s : State) (a : Addr) (bits : List Bool) : ∀ (txs : List Bool) (d i : Nat),
    readAddress s.opcodes txs = some a → 16 ≤ txs.length → ∀ h : i < bits.length,
    (responseBits s txs d bits)[i]'(by simpa using h) =
      if txs.length + i - 16 < s.dev.rxSkew then Config.drawBit (d + i)
      else if txs.length + i - 16 < s.dev.rxSkew + 16 then
        (memRead s.ee a).getLsbD (15 - (txs.length + i - 16 - s.dev.rxSkew))
      else Config.drawBit (d + i) := by
  induction bits with
  | nil => intro txs d i _ _ h; simp at h
  | cons b bits ih =>
    intro txs d i hr hl h
    cases i with
    | zero => simp only [responseBits, List.getElem_cons_zero, responseBit, hr, if_pos hl, Nat.add_zero]
    | succ i =>
      have hr' : readAddress s.opcodes (txs ++ [b]) = some a := by
        rw [readAddress, List.take_append_of_le_length hl]; exact hr
      simp only [responseBits, List.getElem_cons_succ]
      rw [ih _ _ i hr' (by simp; omega) (by simpa using h)]
      simp only [List.length_append, List.length_cons, List.length_nil, show txs.length + (0 + 1) + i = txs.length + (i + 1) by omega,
        show d + 1 + i = d + (i + 1) by omega]

/-- DECODE takes 16 bits after the offset (R150). -/
theorem decodeResponse_bits (off : Nat) (r : List Byte) (h : off + 16 ≤ 8 * r.length) :
    decodeResponse off r = .ok (BitVec.ofNat 16 (natOfBits (((bitsOfBytes r).drop off).take 16))) := by
  rw [decodeResponse, if_neg (by omega), natOfBytes_eq]
  congr 1
  have hb := bitsOfBytes_length r
  obtain ⟨x, y, z, e, hx, hy⟩ : ∃ x y z, bitsOfBytes r = x ++ (y ++ z) ∧ x.length = off ∧ y.length = 16 :=
    ⟨(bitsOfBytes r).take off, ((bitsOfBytes r).drop off).take 16, ((bitsOfBytes r).drop off).drop 16, by simp, by simp; omega,
      by simp; omega⟩
  have hz : z.length = 8 * r.length - off - 16 := by rw [e] at hb; simp at hb; omega
  have ht : List.take 16 (y ++ z) = y := by rw [← hy, List.take_left]
  rw [e, ← hx, List.drop_left, ht, hx, ← hz]
  apply BitVec.eq_of_toNat_eq
  rw [natOfBits_append, natOfBits_append, BitVec.toNat_ofNat, BitVec.toNat_ofNat, Nat.shiftRight_eq_div_pow, List.length_append,
    pow_add, hy]
  have hzl := natOfBits_lt z
  have hyl := natOfBits_lt y
  rw [hy] at hyl
  have split : natOfBits x * (2 ^ 16 * 2 ^ z.length) + (natOfBits y * 2 ^ z.length + natOfBits z)
      = (natOfBits x * 2 ^ 16 + natOfBits y) * 2 ^ z.length + natOfBits z := by ring
  rw [split, Nat.mul_comm, Nat.mul_add_div (by positivity), Nat.div_eq_of_lt hzl]
  omega

/-- Under a legal configuration DECODE of a full buffer answers a word (R170). -/
theorem decodeResponse_ok {c : Cfg} (legal : legalCfg c = true) {r : List Byte} (h : r.length = c.rxBytes) :
    ∃ w, decodeResponse c.rxAlignOffset r = .ok w := by
  simp only [legalCfg, Bool.and_eq_true, decide_eq_true_eq] at legal
  exact ⟨_, decodeResponse_bits _ _ (by rw [h]; exact legal.2)⟩

/-! ### What a transaction is -/

/-- A READ frame is known by its first 16 bits, whatever follows (R65). -/
theorem readAddress_read (ops : Opcodes) (shift A : Nat) (owned : Bool) (rest : List Bool) :
    readAddress ops (bitsOfBytes (encode ops shift (.read A owned)) ++ rest) = some (maskAddr A) := by
  rw [readAddress, List.take_append_of_le_length (by simp [encode]), List.take_of_length_le (by simp [encode])]
  simp only [encode, bitsOfBytes_bytesOf, Nat.reduceMul, decodeBits_sixteen, decode16_read, maskAddr_toNat]

/-- A WRITE frame's first 16 bits are no frame of another command (R82, R88). -/
theorem readAddress_write (ops : Opcodes) (A D : Nat) : readAddress ops (bitsOfBytes (encode ops 3 (.write A D))) = none := by
  rw [encode, bitsOfBytes_bytesOf, readAddress]
  obtain ⟨f, hf⟩ : ∃ f, f = frameF32W 3 (maskAddr A) (maskData D) := ⟨_, rfl⟩
  have h29 : f.extractLsb' 29 3 = Config.opWrite := by rw [hf]; exact (frameF32W_fields _ _).1
  rw [← hf]
  have ht : (bitsOf (8 * 4) f.toNat).take 16 = bitsOf 16 (BitVec.ofNat 16 (f.toNat >>> 16)).toNat := by
    rw [BitVec.toNat_ofNat, bitsOf_mod]
    show (bitsOf (16 + 16) f.toNat).take 16 = _
    rw [bitsOf_append 16 16, List.take_left' (by simp)]
  have top : (BitVec.ofNat 16 (f.toNat >>> 16)).extractLsb' 13 3 = Config.opWrite := by
    rw [← h29]
    apply BitVec.eq_of_getLsbD_eq
    intro i hi
    rw [BitVec.getLsbD_extractLsb', BitVec.getLsbD_extractLsb', BitVec.getLsbD_ofNat, Nat.testBit_shiftRight]
    simp only [hi, decide_true, Bool.true_and, show 13 + i < 16 by omega]
    rw [BitVec.getLsbD]
    congr 1; omega
  have cut : ∀ g : BitVec 16, g.extractLsb' 13 3 = (g.extractLsb' 11 5).extractLsb' 2 3 := by
    intro g; apply BitVec.eq_of_getLsbD_eq; intro i hi; interval_cases i <;> simp
  obtain ⟨a1, a2, a3⟩ := ops.not_write
  rw [ht, decodeBits_sixteen, decode16, if_neg (by rw [top]; exact a1.symm), if_neg (by rw [top]; exact a2.symm), if_neg, if_neg]
  · intro h; apply a3; rw [← ops.apart.2.2.2.1, ← h, ← cut, top]
  · intro h; apply a3; rw [← h, ← cut, top]

/-- Nothing clocked in is no frame. -/
theorem transactionOf_nil (ops : Opcodes) : transactionOf ops [] = none := rfl

theorem transactionOf_read (ops : Opcodes) (shift A : Nat) (owned : Bool) (rest : List Bool) :
    transactionOf ops (bitsOfBytes (encode ops shift (.read A owned)) ++ rest) = some (.read (maskAddr A).toNat false) := by
  rw [transactionOf, readAddress_read]

theorem transactionOf_write (ops : Opcodes) (A D : Nat) :
    transactionOf ops (bitsOfBytes (encode ops 3 (.write A D))) = some (.write (maskAddr A).toNat (maskData D).toNat) := by
  rw [transactionOf, readAddress_write]
  simp only [encode, bitsOfBytes_bytesOf, Nat.reduceMul, decodeBits_thirtyTwo, decode32_write]

/-- A 16-bit frame of no READ is the transaction it decodes to. -/
theorem transactionOf_sixteen (ops : Opcodes) (f : BitVec 16) (i : Instr) (h : decode16 ops f = .ok i) (hr : ∀ a o, i ≠ .read a o) :
    transactionOf ops (bitsOf 16 f.toNat) = some i := by
  have ht : (bitsOf 16 f.toNat).take 16 = bitsOf 16 f.toNat := List.take_of_length_le (by simp)
  rw [transactionOf, readAddress, ht, decodeBits_sixteen, h]
  cases i with
  | read a o => exact absurd rfl (hr a o)
  | erase a => rfl
  | write a d => rfl
  | writeEnable => rfl
  | writeDisable => rfl

theorem transactionOf_erase (ops : Opcodes) (shift A : Nat) :
    transactionOf ops (bitsOfBytes (encode ops shift (.erase A))) = some (.erase (maskAddr A).toNat) := by
  rw [encode, bitsOfBytes_bytesOf]
  exact transactionOf_sixteen ops _ _ (decode16_erase ops _) (by simp)

theorem transactionOf_writeEnable (ops : Opcodes) (shift : Nat) :
    transactionOf ops (bitsOfBytes (encode ops shift .writeEnable)) = some .writeEnable := by
  rw [encode, bitsOfBytes_bytesOf]
  exact transactionOf_sixteen ops _ _ (decode16_writeEnable ops) (by simp)

theorem transactionOf_writeDisable (ops : Opcodes) (shift : Nat) :
    transactionOf ops (bitsOfBytes (encode ops shift .writeDisable)) = some .writeDisable := by
  rw [encode, bitsOfBytes_bytesOf]
  exact transactionOf_sixteen ops _ _ (decode16_writeDisable ops) (by simp)

/-! ### A second frame (R275) -/

/-- A frame has at least two bytes (R80). -/
theorem isSentFrame_length {ops : Opcodes} {marked : List (Byte × Bool)} (h : isSentFrame ops marked = true) : 2 ≤ marked.length := by
  by_contra hl
  have hd : decode ops (marked.map Prod.fst) = .error .badLength := by
    rw [decode, decodeBits, if_neg (by simp; omega), if_neg (by simp; omega)]
  simp [isSentFrame, hd] at h

theorem holdsFrame_length {ops : Opcodes} {marked : List (Byte × Bool)} (h : holdsFrame ops marked = true) : 2 ≤ marked.length := by
  induction marked with
  | nil => cases h
  | cons b rest ih =>
    simp only [holdsFrame, Bool.or_eq_true] at h
    rcases h with (h | h) | h
    · exact (isSentFrame_length h).trans (by simp)
    · exact (isSentFrame_length h).trans (by simp)
    · have := ih h
      simp; omega

/-- Received bytes hold no frame (R278 c). -/
theorem holdsFrame_received (ops : Opcodes) {marked : List (Byte × Bool)} (h : ∀ b ∈ marked, b.2 = false) : holdsFrame ops marked = false := by
  have none_sent : ∀ l : List (Byte × Bool), (∀ b ∈ l, b.2 = false) → isSentFrame ops l = false := by
    intro l hl
    rw [isSentFrame, List.any_eq_false.2 fun b hb => by simp [hl b hb]]
    rfl
  induction marked with
  | nil => rfl
  | cons b rest ih =>
    rw [holdsFrame, none_sent _ fun c hc => h c (List.mem_of_mem_take hc), none_sent _ fun c hc => h c (List.mem_of_mem_take hc),
      ih fun c hc => h c (List.mem_cons_of_mem _ hc)]
    rfl

/-- A frame stays in what more bytes come before. -/
theorem holdsFrame_append {ops : Opcodes} {marked : List (Byte × Bool)} (front : List (Byte × Bool)) (h : holdsFrame ops marked = true) :
    holdsFrame ops (front ++ marked) = true := by
  induction front with
  | nil => exact h
  | cons b front ih => simp [holdsFrame, ih]

/-- Sixteen bits of a first frame and sixteen of a second (R275). -/
theorem secondFrameIn_length {ops : Opcodes} {marks txs : List Bool} (h : secondFrameIn ops marks txs = true) : 32 ≤ txs.length := by
  simp only [secondFrameIn, Bool.and_eq_true] at h
  have h2 := holdsFrame_length h.2
  rw [List.length_zip] at h2
  have h8 : ∀ bits : List Bool, 2 ≤ (bytesOfBits bits).length → 16 ≤ bits.length := by
    intro bits hb
    match bits, hb with
    | _ :: _ :: _ :: _ :: _ :: _ :: _ :: _ :: _ :: _ :: _ :: _ :: _ :: _ :: _ :: _ :: _, _ => simp
  have := h8 _ (h2.trans (Nat.min_le_left _ _))
  simp at this
  omega

/-- A transaction of which every byte after the first two was received holds no second frame (R65, R278 c). -/
theorem secondFrameIn_received (ops : Opcodes) {marks : List Bool} (txs : List Bool) (h : ∀ b ∈ marks.drop 2, b = false) :
    secondFrameIn ops marks txs = false := by
  rw [secondFrameIn, holdsFrame_received, Bool.and_false]
  rintro ⟨b, m⟩ hb
  exact h _ (List.of_mem_zip hb).2

/-- A transaction that does not begin with a READ frame holds no second frame after one. -/
theorem secondFrameIn_of_none {ops : Opcodes} {marks txs : List Bool} (h : readAddress ops txs = none) :
    secondFrameIn ops marks txs = false := by
  simp [secondFrameIn, h]

/-- Clocking bytes in keeps that a second frame has a first before it. -/
theorem clockIn_second {s : State} (tx : List Byte) (deselected : s.sel = false → s.secondFrame = false)
    (h : s.secondFrame = true → 32 ≤ s.txs.length) : (s.clockIn tx).secondFrame = true → 32 ≤ (s.clockIn tx).txs.length := by
  intro h2
  simp only [clockIn_secondFrame, Bool.or_eq_true, Bool.and_eq_true] at h2
  rcases h2 with h2 | ⟨hs, h2⟩
  · by_cases hs : s.sel = true
    · have := h h2
      simp [hs]; omega
    · rw [deselected (by simpa using hs)] at h2; cases h2
  · have := secondFrameIn_length h2
    simpa [hs] using this

/-! ### A transfer of a macro that never returned (R209, R232) -/

@[simp] theorem hang_phase (s : State) (bits : List Bool) : (s.hang bits).phase = s.phase := rfl
@[simp] theorem hang_op (s : State) (bits : List Bool) : (s.hang bits).op = s.op := rfl
@[simp] theorem hang_addr (s : State) (bits : List Bool) : (s.hang bits).addr = s.addr := rfl
@[simp] theorem hang_wdata (s : State) (bits : List Bool) : (s.hang bits).wdata = s.wdata := rfl
@[simp] theorem hang_owned (s : State) (bits : List Bool) : (s.hang bits).owned = s.owned := rfl
@[simp] theorem hang_rdata (s : State) (bits : List Bool) : (s.hang bits).rdata = s.rdata := rfl
@[simp] theorem hang_txbuf (s : State) (bits : List Bool) : (s.hang bits).txbuf = s.txbuf := rfl
@[simp] theorem hang_txlen (s : State) (bits : List Bool) : (s.hang bits).txlen = s.txlen := rfl
@[simp] theorem hang_rxbuf (s : State) (bits : List Bool) : (s.hang bits).rxbuf = s.rxbuf := rfl
@[simp] theorem hang_csOut (s : State) (bits : List Bool) : (s.hang bits).csOut = s.csOut := rfl
@[simp] theorem hang_cfg (s : State) (bits : List Bool) : (s.hang bits).cfg = s.cfg := rfl
@[simp] theorem hang_trace (s : State) (bits : List Bool) : (s.hang bits).trace = s.trace := rfl
@[simp] theorem hang_dev (s : State) (bits : List Bool) : (s.hang bits).dev = s.dev := rfl
@[simp] theorem hang_opcodes (s : State) (bits : List Bool) : (s.hang bits).opcodes = s.opcodes := rfl
@[simp] theorem hang_pending (s : State) (bits : List Bool) : (s.hang bits).pending = s.pending := rfl
@[simp] theorem hang_hostWords (s : State) (bits : List Bool) : (s.hang bits).hostWords = s.hostWords := rfl
@[simp] theorem hang_hostText (s : State) (bits : List Bool) : (s.hang bits).hostText = s.hostText := rfl
@[simp] theorem hang_fatalIn (s : State) (bits : List Bool) : (s.hang bits).fatalIn = s.fatalIn := rfl
@[simp] theorem hang_ee (s : State) (bits : List Bool) : (s.hang bits).ee = scrambleWords s.cutWords s.draws s.ee := rfl
@[simp] theorem hang_sel (s : State) (bits : List Bool) : (s.hang bits).sel = Config.drawBit (s.draws + 16 * s.cutWords.length) := rfl
@[simp] theorem hang_wel (s : State) (bits : List Bool) :
    (s.hang bits).wel = Config.drawBit (s.draws + 16 * s.cutWords.length + 1) := rfl
@[simp] theorem hang_busyNs (s : State) (bits : List Bool) :
    (s.hang bits).busyNs = if s.cutWords.isEmpty then 0 else Config.drawNat (s.draws + 16 * s.cutWords.length + 1) := rfl
@[simp] theorem hang_txs (s : State) (bits : List Bool) :
    (s.hang bits).txs = if (s.hang bits).sel then s.txs ++ bits.take (Config.drawNat (s.draws + 16 * s.cutWords.length)) else [] := rfl
@[simp] theorem hang_idleNs (s : State) (bits : List Bool) :
    (s.hang bits).idleNs = s.idleNs + Config.drawNat (s.draws + 16 * s.cutWords.length + 2) := rfl
@[simp] theorem hang_setupNs (s : State) (bits : List Bool) :
    (s.hang bits).setupNs = s.setupNs + Config.drawNat (s.draws + 16 * s.cutWords.length + 3) := rfl
theorem hang_secondFrame (s : State) (bits : List Bool) :
    (s.hang bits).secondFrame = (Config.drawBit (s.draws + 16 * s.cutWords.length + 2) && decide (32 ≤ (s.hang bits).txs.length)) := rfl
@[simp] theorem hang_sentMarks (s : State) (bits : List Bool) :
    (s.hang bits).sentMarks = if (s.hang bits).sel then s.sentMarks else [] := rfl
@[simp] theorem hang_cycleAddr (s : State) (bits : List Bool) : (s.hang bits).cycleAddr = s.cutWords.headD s.cycleAddr := rfl
@[simp] theorem hang_draws (s : State) (bits : List Bool) : (s.hang bits).draws = s.draws + 16 * s.cutWords.length + 4 := rfl

/-! ### The end of a transaction -/

/-- Everything the end of a transaction can do: nothing, move the latch, or write the word of a WRITE or ERASE with the latch set. -/
theorem endTransaction_next {s t : State} (h : endTransaction s = .next t) :
    t = s
      ∨ (t = s.setLatch true ∧ s.txs ≠ [] ∧ transactionOf s.opcodes s.txs = some .writeEnable)
      ∨ (t = s.setLatch false ∧ s.txs ≠ [] ∧ transactionOf s.opcodes s.txs = some .writeDisable)
      ∨ (∃ a d w ms, t = s.storeWord (maskAddr a) w ms ∧ s.wel = true ∧ s.txs ≠ []
          ∧ (transactionOf s.opcodes s.txs = some (.write a d) ∨ transactionOf s.opcodes s.txs = some (.erase a))) := by
  by_cases hn : s.txs = []
  · rw [endTransaction, if_pos hn] at h
    exact .inl (Host.Outcome.next.inj h).symm
  · rw [endTransaction, if_neg hn] at h
    rcases hT : transactionOf s.opcodes s.txs with _ | i
    · rw [hT] at h; cases h
    · rw [hT] at h
      cases i with
      | read a o =>
        by_cases h2 : s.secondFrame = true
        · simp only [h2, if_true] at h; cases h
        · simp only [h2] at h
          exact .inl (Host.Outcome.next.inj h).symm
      | erase a =>
        obtain rfl := Host.Outcome.next.inj h
        by_cases hw : s.wel = true
        · exact .inr (.inr (.inr ⟨a, 0, _, _, if_pos hw, hw, hn, .inr rfl⟩))
        · exact .inl (if_neg hw)
      | write a d =>
        obtain rfl := Host.Outcome.next.inj h
        by_cases hw : s.wel = true
        · exact .inr (.inr (.inr ⟨a, d, _, _, if_pos hw, hw, hn, .inl rfl⟩))
        · exact .inl (if_neg hw)
      | writeEnable => exact .inr (.inl ⟨(Host.Outcome.next.inj h).symm, hn, rfl⟩)
      | writeDisable => exact .inr (.inr (.inl ⟨(Host.Outcome.next.inj h).symm, hn, rfl⟩))

/-- The end of a READ transaction of one frame does nothing (R65). -/
theorem endTransaction_read {s : State} {a : Addr} (h : readAddress s.opcodes s.txs = some a) (hs : s.secondFrame = false) :
    endTransaction s = .next s := by
  by_cases hn : s.txs = []
  · rw [endTransaction, if_pos hn]
  · rw [endTransaction, if_neg hn, transactionOf, h, hs]
    rfl

/-- The end of a WRITE transaction (R66). -/
theorem endTransaction_write {s : State} {a d : Nat} (hn : s.txs ≠ []) (h : transactionOf s.opcodes s.txs = some (.write a d)) :
    endTransaction s = .next (if s.wel then s.storeWord (maskAddr a) (maskData d) s.dev.tWcMs else s) := by
  rw [endTransaction, if_neg hn, h]

/-- The end of an ERASE transaction (R67). -/
theorem endTransaction_erase {s : State} {a : Nat} (hn : s.txs ≠ []) (h : transactionOf s.opcodes s.txs = some (.erase a)) :
    endTransaction s = .next (if s.wel then s.storeWord (maskAddr a) s.dev.erasedWord s.dev.tEcMs else s) := by
  rw [endTransaction, if_neg hn, h]

/-- The end of a WRITE_ENABLE transaction (R68). -/
theorem endTransaction_writeEnable {s : State} (hn : s.txs ≠ []) (h : transactionOf s.opcodes s.txs = some .writeEnable) :
    endTransaction s = .next (s.setLatch true) := by
  rw [endTransaction, if_neg hn, h]

/-- The end of a WRITE_DISABLE transaction (R69). -/
theorem endTransaction_writeDisable {s : State} (hn : s.txs ≠ []) (h : transactionOf s.opcodes s.txs = some .writeDisable) :
    endTransaction s = .next (s.setLatch false) := by
  rw [endTransaction, if_neg hn, h]

/-- A transaction that is none of the five is refused at its end (R71). -/
theorem endTransaction_unknown {s : State} (hn : s.txs ≠ []) (h : transactionOf s.opcodes s.txs = none) :
    endTransaction s = .refused .unknownTransaction := by
  rw [endTransaction, if_neg hn, h]

/-! ### Everything an event can do -/

/-- CS(1): nothing, or a fresh transaction (R64). -/
theorem deviceRise_next {s t : State} (h : deviceRise s = .next t) :
    t = s ∧ s.sel = true ∨ t = s.select ∧ s.sel = false ∧ s.busyNs = 0 := by
  rw [deviceRise] at h
  split_ifs at h with h1 h2
  · exact .inl ⟨(Host.Outcome.next.inj h).symm, h1⟩
  · exact .inr ⟨(Host.Outcome.next.inj h).symm, by simpa using h1, by omega⟩

/-- CS(0): nothing, or the end of the transaction (R64). -/
theorem deviceFall_next {s t : State} (h : deviceFall s = .next t) :
    t = s ∧ s.sel = false ∨ s.sel = true ∧ ∃ u, endTransaction s = .next u ∧ t = u.deselect := by
  rw [deviceFall] at h
  split_ifs at h with h1
  · refine .inr ⟨h1, ?_⟩
    revert h
    cases endTransaction s with
    | next u => intro h; exact ⟨u, rfl, (Host.Outcome.next.inj h).symm⟩
    | fault f => intro h; cases h
    | refused f => intro h; cases h
  · exact .inl ⟨(Host.Outcome.next.inj h).symm, by simpa using h1⟩

/-- A transfer: the bits clocked in, the draws taken, one more transfer returned (R64). -/
theorem deviceTransfer_next {tx : List Byte} {s t : State} (h : deviceTransfer tx s = .next t) :
    s.setupViolated = false
      ∧ t = ((s.clockIn tx).advanceDraws (8 * tx.length)).countTransfer := by
  rw [deviceTransfer] at h
  split_ifs at h with h1
  exact ⟨by simpa using h1, (Host.Outcome.next.inj h).symm⟩

end Sys2Proof.Machine
end

