-- ==== Sys2Proof/Laws/PerInstr.lean ====
section
/-! SUPPORT. The families of statements made per instruction (LAWS.json). -/

namespace Sys2Proof.Laws

/-- R137: an instruction's frame is four bytes for a WRITE and two otherwise, whatever its operands, the opcode patterns and the shift; and
masking the operands, as the block does when it latches them (R22, R23), makes the instruction well formed without changing its frame. -/
def FrameLength.Statement (i : Instr) : Prop :=
  (∀ (ops : Opcodes) (shift : Nat), (encode ops shift i).length = (match i with
    | .write _ _ => 4
    | .read _ _ => 2
    | .erase _ => 2
    | .writeEnable => 2
    | .writeDisable => 2))
  ∧ WellFormed i.latched = true ∧ ∀ (ops : Opcodes) (shift : Nat), encode ops shift i.latched = encode ops shift i

theorem FrameLength.read (addr : Nat) (owned : Bool) : FrameLength.Statement (.read addr owned) :=
  ⟨fun _ _ => bytesOf_length _ _, decide_eq_true (maskAddr addr).isLt, fun ops shift => encode_latched ops shift _⟩

theorem FrameLength.erase (addr : Nat) : FrameLength.Statement (.erase addr) :=
  ⟨fun _ _ => bytesOf_length _ _, decide_eq_true (maskAddr addr).isLt, fun ops shift => encode_latched ops shift _⟩

theorem FrameLength.write (addr data : Nat) : FrameLength.Statement (.write addr data) :=
  ⟨fun _ _ => bytesOf_length _ _,
    Bool.and_eq_true_iff.2 ⟨decide_eq_true (maskAddr addr).isLt, decide_eq_true (maskData data).isLt⟩,
    fun ops shift => encode_latched ops shift _⟩

theorem FrameLength.writeEnable : FrameLength.Statement .writeEnable :=
  ⟨fun _ _ => bytesOf_length _ _, rfl, fun ops shift => encode_latched ops shift _⟩

theorem FrameLength.writeDisable : FrameLength.Statement .writeDisable :=
  ⟨fun _ _ => bytesOf_length _ _, rfl, fun ops shift => encode_latched ops shift _⟩

end Sys2Proof.Laws
end

