-- ==== Sys2Proof/Laws/Runs.lean ====
section
/-! SUPPORT. What the shared stretches of a command do: opening a transaction, sending a frame, receiving, closing (R110, R111, R178). Each
lemma runs its steps once, so that no later proof unfolds them. -/

namespace Sys2Proof.Machine

/-! ### Sequencing -/

@[simp] theorem andThen_next (s : State) (k : State → Result) : andThen (.next s) k = k s := rfl
@[simp] theorem andThen_fault (f : Fault) (k : State → Result) : andThen (.fault f) k = .fault f := rfl
@[simp] theorem andThen_refused (f : Refusal) (k : State → Result) : andThen (.refused f) k = .refused f := rfl

theorem andThen_eq_next {r : Result} {k : State → Result} {t : State} (h : andThen r k = .next t) :
    ∃ s, r = .next s ∧ k s = .next t := by
  cases r with
  | next s => exact ⟨s, rfl, h⟩
  | fault f => cases h
  | refused f => cases h

/-- A step whose primitive returns: the step acts, and the rest follows. -/
theorem runSteps_cons {p : Phase} {rest : List Phase} {s : State} (h : neverReturns p s = false) :
    runSteps (p :: rest) s = andThen (act p (s.setPhase p)) (runSteps rest) := by
  rw [runSteps, h]; rfl

theorem neverReturns_of_none {p : Phase} {s : State} (h : s.fatalIn = none) : neverReturns p s = false := by
  simp [neverReturns, h]

theorem neverReturns_other {p : Phase} {s : State} (h1 : p ≠ .tx) (h2 : p ≠ .rx) : neverReturns p s = false := by
  simp [neverReturns, h1, h2]

/-! ### Opening a transaction: BEGIN_TXN's steps -/

/-- The state after a deassert with nothing clocked in, and the hold wait. -/
def rested (s : State) : State :=
  { s with
    phase := .b2, csOut := .deasserted, trace := s.trace ++ [.cs false, .waitNs s.cfg.tCshNs], busyNs := s.busyNs - s.cfg.tCshNs
    sel := false, txs := if s.sel then [] else s.txs, idleNs := (if s.sel then 0 else s.idleNs) + s.cfg.tCshNs
    secondFrame := if s.sel then false else s.secondFrame, sentMarks := if s.sel then [] else s.sentMarks }

/-- B1 and B2, with nothing clocked into an open transaction (R110, R71). -/
theorem runSteps_rest (rest : List Phase) (s : State) (line : s.sel = true → s.txs = []) :
    runSteps (.b1 :: .b2 :: rest) s = runSteps rest (rested s) := by
  have fall : deviceFall (s.setPhase .b1) = .next (if s.sel then (s.setPhase .b1).deselect else s.setPhase .b1) := by
    by_cases hs : s.sel = true
    · simp [deviceFall, endTransaction, hs, line hs]
    · simp [deviceFall, hs]
  rw [runSteps_cons (neverReturns_other (by decide) (by decide))]
  simp only [act, emitCs, callCs, Bool.false_eq_true, if_false, fall, andThen_next]
  rw [runSteps_cons (neverReturns_other (by decide) (by decide))]
  simp only [act, callWaitNs, andThen_next]
  congr 1
  by_cases hs : s.sel = true <;>
    simp [State.setPhase, State.record, State.driveCs, State.elapse, State.deselect, rested, hs]

/-- B3 while the device's cycle runs is refused (R64, R70). -/
theorem runSteps_rise_busy (rest : List Phase) (s : State) (sel : s.sel = false) (busy : 0 < s.busyNs) :
    runSteps (.b3 :: rest) s = .refused .deviceBusy := by
  rw [runSteps_cons (neverReturns_other (by decide) (by decide))]
  simp [act, emitCs, callCs, deviceRise, sel, busy]

/-- B3 before the device's hold time has passed is refused (R64, R271). -/
theorem runSteps_rise_early (rest : List Phase) (s : State) (sel : s.sel = false) (busy : s.busyNs = 0)
    (hold : s.idleNs < s.dev.tCshNs) : runSteps (.b3 :: rest) s = .refused .csHoldViolated := by
  rw [runSteps_cons (neverReturns_other (by decide) (by decide))]
  simp [act, emitCs, callCs, deviceRise, sel, busy, hold]

/-- The state after BEGIN_TXN's steps. -/
def opened (s : State) : State :=
  { s with
    phase := .b4, csOut := .asserted, trace := s.trace ++ beginEvents s.cfg, busyNs := 0, sel := true, txs := []
    idleNs := (if s.sel then 0 else s.idleNs) + s.cfg.tCshNs, setupNs := s.cfg.tCssNs, secondFrame := false, sentMarks := [] }

/-- BEGIN_TXN's steps, with nothing clocked into an open transaction, no cycle that outlasts the hold wait, and the hold time kept. -/
theorem runSteps_begin (rest : List Phase) (s : State) (line : s.sel = true → s.txs = []) (busy : s.busyNs ≤ s.cfg.tCshNs)
    (hold : s.dev.tCshNs ≤ (if s.sel then 0 else s.idleNs) + s.cfg.tCshNs) :
    runSteps (.b1 :: .b2 :: .b3 :: .b4 :: rest) s = runSteps rest (opened s) := by
  have h1 : (rested s).busyNs = 0 := by
    show s.busyNs - s.cfg.tCshNs = 0
    omega
  have h2 : ¬ (((rested s).setPhase .b3).idleNs < ((rested s).setPhase .b3).dev.tCshNs) := Nat.not_lt.2 hold
  have rise : deviceRise ((rested s).setPhase .b3) = .next ((rested s).setPhase .b3).select := by
    rw [deviceRise, if_neg (by simp [rested]), if_neg (by simp [h1]), if_neg h2]
  rw [runSteps_rest _ _ line, runSteps_cons (neverReturns_other (by decide) (by decide))]
  simp only [act, emitCs, callCs, if_true, rise, andThen_next]
  rw [runSteps_cons (neverReturns_other (by decide) (by decide))]
  simp only [act, callWaitNs, andThen_next]
  congr 1
  have h3 : s.busyNs - s.cfg.tCshNs - s.cfg.tCssNs = 0 := by omega
  simp [State.setPhase, State.record, State.driveCs, State.elapse, State.select, rested, opened, beginEvents, h3]

/-! ### Sending a frame: ENC and TX -/

/-- The bytes of TXBUF in use after ENCODE loaded a frame of at most four bytes are the frame. -/
theorem txBytes_loadTx (s : State) (bytes : List Byte) (h : bytes.length ≤ 4) : (s.loadTx bytes).txBytes = bytes := by
  match bytes, h with
  | [], _ => rfl
  | [_], _ => rfl
  | [_, _], _ => rfl
  | [_, _, _], _ => rfl
  | [_, _, _, _], _ => rfl

@[simp] theorem setPhase_txBytes (s : State) (p : Phase) : (s.setPhase p).txBytes = s.txBytes := rfl

/-- The state after ENC and TX of a frame into a fresh or running transaction. -/
def sent (s : State) (frame : List Byte) : State :=
  { (((s.loadTx frame).clockIn frame).advanceDraws (8 * frame.length)) with
    phase := .tx, trace := s.trace ++ [.xfer frame ((s.loadTx frame).received frame)] }

/-- ENC and TX, with the device's setup time kept and the transfer returning. -/
theorem runSteps_send (rest : List Phase) (s : State) (i : Instr) (hi : s.opInstr = some i)
    (hl : (encode s.opcodes s.cfg.writeShift i).length ≤ 4) (setup : s.setupViolated = false) (ret : s.fatalIn = none) :
    runSteps (.enc :: .tx :: rest) s = runSteps rest (sent s (encode s.opcodes s.cfg.writeShift i)) := by
  have hi' : (s.setPhase .enc).opInstr = some i := hi
  rw [runSteps_cons (neverReturns_of_none ret)]
  simp only [act, hi', andThen_next, setPhase_opcodes, setPhase_cfg]
  rw [runSteps_cons (neverReturns_of_none (by simpa using ret))]
  have hs : (((s.setPhase .enc).loadTx (encode s.opcodes s.cfg.writeShift i)).setPhase .tx).setupViolated = false := setup
  have hb : ((s.setPhase .enc).loadTx (encode s.opcodes s.cfg.writeShift i)).txBytes = encode s.opcodes s.cfg.writeShift i :=
    txBytes_loadTx _ _ hl
  have hr : (((s.setPhase .enc).loadTx (encode s.opcodes s.cfg.writeShift i)).setPhase .tx).received
      (encode s.opcodes s.cfg.writeShift i)
      = (s.loadTx (encode s.opcodes s.cfg.writeShift i)).received (encode s.opcodes s.cfg.writeShift i) :=
    received_congr _ rfl rfl rfl rfl rfl rfl
  simp only [act, callXfer, setPhase_txBytes, hb, hr, deviceTransfer, hs, Bool.false_eq_true, if_false, andThen_next]
  congr 1
  simp [State.setPhase, State.record, State.loadTx, State.clockIn, State.advanceDraws, State.countTransfer, sent, ret]

/-- A step at which a primitive never returns is the last one (R232). -/
theorem runSteps_stuck {p : Phase} {rest : List Phase} {s : State} (h : neverReturns p s = true) :
    runSteps (p :: rest) s = .next ((s.setPhase p).hang (transferBits p s)) := by
  rw [runSteps, if_pos h]

/-- TX before the device's setup time has passed is refused (R64, R271). -/
theorem runSteps_send_early (rest : List Phase) (s : State) (i : Instr) (hi : s.opInstr = some i) (setup : s.setupViolated = true)
    (ret : s.fatalIn ≠ some 0) : runSteps (.enc :: .tx :: rest) s = .refused .csSetupViolated := by
  have hi' : (s.setPhase .enc).opInstr = some i := hi
  rw [runSteps_cons (neverReturns_other (by decide) (by decide))]
  simp only [act, hi', andThen_next]
  have nr : neverReturns .tx ((s.setPhase .enc).loadTx (encode (s.setPhase .enc).opcodes (s.setPhase .enc).cfg.writeShift i)) = false := by
    simp [neverReturns, ret]
  rw [runSteps_cons nr]
  have hs : ∀ f, (((s.setPhase .enc).loadTx f).setPhase .tx).setupViolated = true := fun _ => setup
  simp only [act, callXfer, deviceTransfer, hs, if_true, andThen_refused]

/-! ### Receiving: RX -/

/-- The state after RX. -/
def receivedInto (s : State) : State :=
  { ((s.clockIn (s.fillBytes s.cfg.rxBytes)).advanceDraws (8 * s.cfg.rxBytes)) with
    phase := .rx
    rxbuf := s.received (s.fillBytes s.cfg.rxBytes)
    trace := s.trace ++ [.recv s.cfg.rxBytes (s.received (s.fillBytes s.cfg.rxBytes))] }

/-- RX, with the device's setup time kept and the transfer returning. -/
theorem runSteps_receive (rest : List Phase) (s : State) (setup : s.setupViolated = false) (ret : s.fatalIn = none) :
    runSteps (.rx :: rest) s = runSteps rest (receivedInto s) := by
  have hs : (s.setPhase .rx).setupViolated = false := setup
  have hf : (s.setPhase .rx).fillBytes s.cfg.rxBytes = s.fillBytes s.cfg.rxBytes := rfl
  have hr : (s.setPhase .rx).received (s.fillBytes s.cfg.rxBytes) = s.received (s.fillBytes s.cfg.rxBytes) :=
    received_congr _ rfl rfl rfl rfl rfl rfl
  rw [runSteps_cons (neverReturns_of_none ret)]
  simp only [act, callRecv, setPhase_cfg, hf, hr, deviceTransfer, hs, Bool.false_eq_true, if_false, andThen_next]
  congr 1
  simp [State.setPhase, State.record, State.clockIn, State.advanceDraws, State.countTransfer, State.setRxbuf, receivedInto, ret,
    State.fillBytes]

/-! ### Closing a transaction: END_TXN's steps -/

/-- The state after END_TXN's steps, from the state `t` in which the transaction's effect has taken place. -/
def closed (t : State) : State :=
  { t with
    phase := .e2, csOut := .deasserted, trace := t.trace ++ endEvents t.cfg, busyNs := t.busyNs - t.cfg.tCshNs, sel := false, txs := []
    idleNs := t.cfg.tCshNs, secondFrame := false, sentMarks := [] }

/-- END_TXN's steps, with the device selected and the effect of its transaction known. -/
theorem runSteps_end (rest : List Phase) (s t : State) (sel : s.sel = true) (he : endTransaction (s.setPhase .e1) = .next t) :
    runSteps (.e1 :: .e2 :: rest) s = runSteps rest (closed t) := by
  rw [runSteps_cons (neverReturns_other (by decide) (by decide))]
  simp only [act, emitCs, callCs, Bool.false_eq_true, if_false, deviceFall, setPhase_sel, sel, if_true, he, andThen_next]
  rw [runSteps_cons (neverReturns_other (by decide) (by decide))]
  simp only [act, callWaitNs, andThen_next]
  congr 1
  simp [State.setPhase, State.record, State.driveCs, State.elapse, State.deselect, closed, endEvents]

/-- A deassert whose transaction is refused ends the run there (R71). -/
theorem runSteps_end_refused {r : Refusal} (rest : List Phase) (s : State) (sel : s.sel = true)
    (he : endTransaction (s.setPhase .e1) = .refused r) : runSteps (.e1 :: rest) s = .refused r := by
  rw [runSteps_cons (neverReturns_other (by decide) (by decide))]
  simp only [act, emitCs, callCs, Bool.false_eq_true, if_false, deviceFall, setPhase_sel, sel, if_true, he, andThen_refused]

/-- END_TXN's steps with the device not selected: two events, no effect (R64, R111). -/
theorem runSteps_end_deselected (rest : List Phase) (s : State) (sel : s.sel = false) :
    runSteps (.e1 :: .e2 :: rest) s = runSteps rest
      { s with
        phase := .e2, csOut := .deasserted, trace := s.trace ++ endEvents s.cfg, busyNs := s.busyNs - s.cfg.tCshNs
        idleNs := s.idleNs + s.cfg.tCshNs } := by
  rw [runSteps_cons (neverReturns_other (by decide) (by decide))]
  simp only [act, emitCs, callCs, Bool.false_eq_true, if_false, deviceFall, setPhase_sel, sel, andThen_next]
  rw [runSteps_cons (neverReturns_other (by decide) (by decide))]
  simp only [act, callWaitNs, andThen_next]
  congr 1
  simp [State.setPhase, State.record, State.driveCs, State.elapse, endEvents, sel]

/-! ### A whole self-framed transaction, up to its deassert -/

/-- BEGIN_TXN's steps, ENC and TX, from a ready line. -/
theorem runSteps_open_send (rest : List Phase) (s : State) (i : Instr) (hi : s.opInstr = some i) (line : LineReady s)
    (ret : s.fatalIn = none) :
    runSteps (.b1 :: .b2 :: .b3 :: .b4 :: .enc :: .tx :: rest) s
      = runSteps rest (sent (opened s) (encode s.opcodes s.cfg.writeShift i)) := by
  rw [runSteps_begin _ _ line.line line.notBusy (line.hold.trans (Nat.le_add_left _ _))]
  have hs : (opened s).setupViolated = false := by
    show (true && true && decide (s.cfg.tCssNs < s.dev.tCssNs)) = false
    have := line.setup
    rw [decide_eq_false (by omega)]
    rfl
  exact runSteps_send rest (opened s) i hi (encode_length_le _ _ _) hs ret

/-- What is clocked in after the frame of a fresh transaction. -/
theorem sent_txs (s : State) (frame : List Byte) (sel : s.sel = true) (empty : s.txs = []) :
    (sent s frame).txs = bitsOfBytes frame := by
  simp [sent, State.clockIn, State.advanceDraws, State.loadTx, sel, empty]

theorem sent_txBytes (s : State) (frame : List Byte) (h : frame.length ≤ 4) : (sent s frame).txBytes = frame :=
  txBytes_loadTx s frame h

/-- The first frame of a transaction, of two bytes, is no second one (R275). -/
theorem sent_secondFrame (s : State) (frame : List Byte) (unmarked : s.sentMarks = []) (h : s.secondFrame = false) (two : frame.length = 2) :
    (sent s frame).secondFrame = false := by
  have hm : ((s.loadTx frame).clockIn frame).secondFrame = false := by
    rw [clockIn_secondFrame, loadTx_secondFrame, h, secondFrameIn_received]
    · simp
    · rw [loadTx_sentMarks, unmarked, List.nil_append, List.drop_of_length_le (by simp [two])]
      simp
  exact hm

/-- After a frame the device's setup time is no matter. -/
theorem sent_setupViolated (s : State) (frame : List Byte) (h : 0 < frame.length) : (sent s frame).setupViolated = false := by
  have hn : (bitsOfBytes frame).isEmpty = false := by simpa using bitsOfBytes_ne_nil h
  by_cases hs : s.sel = true <;> simp [State.setupViolated, sent, State.clockIn, State.advanceDraws, State.loadTx, hs, bitsOfBytes_ne_nil h]

/-- What the block receives is no second frame, whatever the first one of two bytes was (R65, R275). -/
theorem receivedInto_sent_secondFrame (s : State) (frame : List Byte) (sel : s.sel = true) (unmarked : s.sentMarks = [])
    (h : s.secondFrame = false) (two : frame.length = 2) : (receivedInto (sent s frame)).secondFrame = false := by
  have hs : (sent s frame).secondFrame = false := sent_secondFrame s frame unmarked h two
  have hx : (sent s frame).sentMarks = frame.map (fun b => b != s.cfg.recvFill) := by
    simp [sent, State.clockIn, State.advanceDraws, State.loadTx, sel, unmarked]
  show ((sent s frame).clockIn _).secondFrame = false
  rw [clockIn_secondFrame, hs, secondFrameIn_received]
  · simp
  · rw [hx, List.drop_left' (by simp [two]), State.fillBytes]
    simp

/-- What the block receives fills RXBUF (R28). -/
theorem receivedInto_rxbuf_length (s : State) : (receivedInto s).rxbuf.length = s.cfg.rxBytes := by
  show (s.received (s.fillBytes s.cfg.rxBytes)).length = s.cfg.rxBytes
  simp

end Sys2Proof.Machine
end

