-- ==== Sys2Proof/Laws/Steps.lean ====
section
/-! SUPPORT. Everything a step of R178 can do, and everything a stretch of steps can do, whenever it answers a next state: the laws that frames
and invariants follow from. -/

namespace Sys2Proof.Machine

/-! ### The instructions by their steps (R171 to R175, R178) -/

theorem exec_read (addr : Nat) (owned : Bool) (s : State) : exec (.read addr owned) s =
    startCommand (readSteps owned) (latchRead addr owned) s := rfl

theorem exec_erase (addr : Nat) (s : State) : exec (.erase addr) s =
    startCommand [.b1, .b2, .b3, .b4, .enc, .tx, .e1, .e2, .ec] (fun t => (t.latchOp .erase).latchAddr addr) s := rfl

theorem exec_write (addr data : Nat) (s : State) :
    exec (.write addr data) s = startCommand writeSteps (latchWrite addr data) s := rfl

theorem exec_writeEnable (s : State) : exec .writeEnable s =
    startCommand [.b1, .b2, .b3, .b4, .enc, .tx, .e1, .e2] (fun t => t.latchOp .writeEnable) s := rfl

theorem exec_writeDisable (s : State) : exec .writeDisable s =
    startCommand [.b1, .b2, .b3, .b4, .enc, .tx, .e1, .e2] (fun t => t.latchOp .writeDisable) s := rfl

/-! ### Starting -/

/-- Steps that answer a next state could be started, and ran. -/
theorem startSteps_next {steps : List Phase} {latch : State → State} {s t : State} (h : startSteps steps latch s = .next t) :
    Startable s ∧ runSteps steps (latch s) = .next t := by
  rw [startSteps] at h
  split_ifs at h with h1 h2 h3
  exact ⟨⟨by simpa using h1, by simpa using h2, h3⟩, h⟩

/-- Steps that may be started run. -/
theorem startSteps_eq {steps : List Phase} {latch : State → State} {s : State} (h : Startable s) :
    startSteps steps latch s = runSteps steps (latch s) := by
  rw [startSteps, if_neg (by simp [h.idle]), if_neg (by simp [h.order]), if_pos h.legal]

/-- A command that returned is as its steps left it. -/
theorem forgetIfStuck_returned {t : State} (h : t.phase = .idle) : forgetIfStuck (.next t) = .next t := by
  rw [forgetIfStuck, andThen_next, if_pos h]

/-- A command that never returned leaves the device free (R232). -/
theorem forgetIfStuck_stuck {t : State} (h : t.phase ≠ .idle) : forgetIfStuck (.next t) = .next t.freeDevice := by
  rw [forgetIfStuck, andThen_next, if_neg h]

@[simp] theorem forgetIfStuck_refused (r : Refusal) : forgetIfStuck (.refused r) = .refused r := rfl

/-- A command that may be started runs its steps. -/
theorem startCommand_eq {steps : List Phase} {latch : State → State} {s : State} (h : Startable s) :
    startCommand steps latch s = forgetIfStuck (runSteps steps (latch s)) := by
  rw [startCommand, startSteps_eq h]

/-- A command that answers a next state could be started; it came to the end of its steps, or is stuck and the device free (R232). -/
theorem startCommand_next {steps : List Phase} {latch : State → State} {s t : State} (h : startCommand steps latch s = .next t) :
    Startable s ∧ ∃ u, runSteps steps (latch s) = .next u ∧ (u.phase = .idle ∧ t = u ∨ u.phase ≠ .idle ∧ t = u.freeDevice) := by
  obtain ⟨u, hu, ht⟩ := andThen_eq_next h
  obtain ⟨hs, hr⟩ := startSteps_next hu
  refine ⟨hs, u, hr, ?_⟩
  by_cases hp : u.phase = .idle
  · rw [if_pos hp] at ht
    exact .inl ⟨hp, (Host.Outcome.next.inj ht).symm⟩
  · rw [if_neg hp] at ht
    exact .inr ⟨hp, (Host.Outcome.next.inj ht).symm⟩

/-- A command that answers an idle block came to the end of its steps. -/
theorem startCommand_returned {steps : List Phase} {latch : State → State} {s t : State} (h : startCommand steps latch s = .next t)
    (returned : t.phase = .idle) : Startable s ∧ runSteps steps (latch s) = .next t := by
  obtain ⟨hs, u, hu, ⟨_, rfl⟩ | ⟨hp, rfl⟩⟩ := startCommand_next h
  · exact ⟨hs, hu⟩
  · exact absurd returned hp

/-- As a command of a macro and on its own, a command that returns does the same (R200, R209). -/
theorem startCommand_of_startSteps {steps : List Phase} {latch : State → State} {s t : State} (h : startSteps steps latch s = .next t)
    (returned : t.phase = .idle) : startCommand steps latch s = .next t := by
  rw [startCommand, h, forgetIfStuck_returned returned]

/-- The first of the remaining steps: stuck at it, or done and on. -/
theorem runSteps_next {p : Phase} {rest : List Phase} {s t : State} (h : runSteps (p :: rest) s = .next t) :
    (neverReturns p s = true ∧ t = (s.setPhase p).hang (transferBits p s)) ∨ ∃ u, act p (s.setPhase p) = .next u ∧ runSteps rest u = .next t := by
  rw [runSteps] at h
  split_ifs at h with h1
  · exact .inl ⟨h1, (Host.Outcome.next.inj h).symm⟩
  · exact .inr (andThen_eq_next h)

/-- Only at TX and RX can a primitive fail to return, and then no more transfers return (R112, R232). -/
theorem neverReturns_eq_true {p : Phase} {s : State} (h : neverReturns p s = true) : (p = .tx ∨ p = .rx) ∧ s.fatalIn = some 0 := by
  simpa [neverReturns] using h

/-- What holds at the start, and is kept by `PHASE`, by each step of the list and by a transfer that never returns, holds at the end. -/
theorem runSteps_induction {P : State → Prop} (phase : ∀ s p, P s → P (s.setPhase p))
    (hang : ∀ s bits, s.fatalIn = some 0 → P s → P (s.hang bits))
    (steps : List Phase) (step : ∀ p ∈ steps, ∀ s t, P s → act p s = .next t → P t) {s t : State} (start : P s)
    (h : runSteps steps s = .next t) : P t := by
  induction steps generalizing s with
  | nil => rw [runSteps] at h; obtain rfl := Host.Outcome.next.inj h; exact phase _ _ start
  | cons p rest ih =>
    rcases runSteps_next h with ⟨hn, rfl⟩ | ⟨u, hu, hr⟩
    · exact hang _ _ (neverReturns_eq_true hn).2 (phase _ _ start)
    · exact ih (fun q hq => step q (by simp [hq])) (step p (by simp) _ _ (phase _ _ start) hu) hr

/-- Steps with no transfer come to their end (R112). -/
theorem runSteps_returns {steps : List Phase} {s t : State} (h : runSteps steps s = .next t) (tx : .tx ∉ steps) (rx : .rx ∉ steps) :
    t.phase = .idle := by
  induction steps generalizing s with
  | nil => rw [runSteps] at h; obtain rfl := Host.Outcome.next.inj h; rfl
  | cons p rest ih =>
    simp only [List.mem_cons, not_or] at tx rx
    rcases runSteps_next h with ⟨hn, _⟩ | ⟨u, _, hr⟩
    · rw [neverReturns_other (Ne.symm tx.1) (Ne.symm rx.1)] at hn; cases hn
    · exact ih hr tx.2 rx.2

/-- The same for a list of steps that came to its end, whatever a transfer that never returns would leave (R232). -/
theorem runSteps_induction_returned {P : State → Prop} (phase : ∀ s p, P s → P (s.setPhase p)) (steps : List Phase)
    (step : ∀ p ∈ steps, ∀ s t, P s → act p s = .next t → P t) {s t : State} (start : P s) (h : runSteps steps s = .next t)
    (returned : t.phase = .idle) : P t := by
  induction steps generalizing s with
  | nil => rw [runSteps] at h; obtain rfl := Host.Outcome.next.inj h; exact phase _ _ start
  | cons p rest ih =>
    rcases runSteps_next h with ⟨hn, rfl⟩ | ⟨u, hu, hr⟩
    · have hp : p = .idle := returned
      rcases (neverReturns_eq_true hn).1 with rfl | rfl <;> cases hp
    · exact ih (fun q hq => step q (by simp [hq])) (step p (by simp) _ _ (phase _ _ start) hu) hr

/-! ### One step -/

theorem andThen_next_next {r : Result} {f : State → State} {t : State} (h : andThen r (fun s => .next (f s)) = .next t) :
    ∃ s, r = .next s ∧ t = f s := by
  obtain ⟨s, hs, ht⟩ := andThen_eq_next h
  exact ⟨s, hs, (Host.Outcome.next.inj ht).symm⟩

theorem emitCs_false_next {s t : State} (h : emitCs false s = .next t) :
    ∃ u, (u = s ∧ s.sel = false ∨ s.sel = true ∧ ∃ v, endTransaction s = .next v ∧ u = v.deselect)
      ∧ t = (u.record (.cs false)).driveCs false := by
  obtain ⟨v, hv, rfl⟩ := andThen_next_next h
  obtain ⟨u, hu, rfl⟩ := andThen_next_next hv
  simp only [Bool.false_eq_true, if_false] at hu
  exact ⟨u, deviceFall_next hu, rfl⟩

theorem emitCs_true_next {s t : State} (h : emitCs true s = .next t) :
    ∃ u, (u = s ∧ s.sel = true ∨ u = s.select ∧ s.sel = false ∧ s.busyNs = 0) ∧ t = (u.record (.cs true)).driveCs true := by
  obtain ⟨v, hv, rfl⟩ := andThen_next_next h
  obtain ⟨u, hu, rfl⟩ := andThen_next_next hv
  simp only [if_true] at hu
  exact ⟨u, deviceRise_next hu, rfl⟩

theorem callXfer_next {tx : List Byte} {s t : State} (h : callXfer tx s = .next t) :
    s.setupViolated = false
      ∧ t = (((s.clockIn tx).advanceDraws (8 * tx.length)).countTransfer).record (.xfer tx (s.received tx)) := by
  obtain ⟨u, hu, rfl⟩ := andThen_next_next h
  obtain ⟨hv, rfl⟩ := deviceTransfer_next hu
  exact ⟨hv, rfl⟩

theorem callRecv_next {n : Nat} {s t : State} (h : callRecv n s = .next t) :
    s.setupViolated = false
      ∧ t = (((s.clockIn (s.fillBytes n)).advanceDraws (8 * (s.fillBytes n).length)).countTransfer).record
          (.recv n (s.received (s.fillBytes n))) := by
  obtain ⟨u, hu, rfl⟩ := andThen_next_next h
  obtain ⟨hv, rfl⟩ := deviceTransfer_next hu
  exact ⟨hv, rfl⟩

/-- ENC loads a frame, or does nothing under a tag that has none. -/
theorem act_enc_next {s t : State} (h : act .enc s = .next t) :
    t = s ∨ ∃ i, s.opInstr = some i ∧ t = s.loadTx (encode s.opcodes s.cfg.writeShift i) := by
  rw [act] at h
  cases hi : s.opInstr with
  | none => rw [hi] at h; exact .inl (Host.Outcome.next.inj h).symm
  | some i => rw [hi] at h; exact .inr ⟨i, rfl, (Host.Outcome.next.inj h).symm⟩

theorem act_rx_next {s t : State} (h : act .rx s = .next t) :
    ∃ u, callRecv s.cfg.rxBytes s = .next u ∧ t = u.setRxbuf (s.received (s.fillBytes s.cfg.rxBytes)) := by
  obtain ⟨u, hu, rfl⟩ := andThen_next_next h
  exact ⟨u, hu, rfl⟩

theorem act_dec_next {s t : State} (h : act .dec s = .next t) : ∃ w, t = s.setRdata w := by
  rw [act] at h
  cases hd : decodeResponse s.cfg.rxAlignOffset s.rxbuf with
  | error r => rw [hd] at h; cases h
  | ok w => rw [hd] at h; exact ⟨w, (Host.Outcome.next.inj h).symm⟩

/-! ### What no step changes -/

/-- The fields that no step of any command writes. -/
structure Kept (s t : State) : Prop where
  op : t.op = s.op
  addr : t.addr = s.addr
  wdata : t.wdata = s.wdata
  owned : t.owned = s.owned
  cfg : t.cfg = s.cfg
  dev : t.dev = s.dev
  opcodes : t.opcodes = s.opcodes
  pending : t.pending = s.pending
  hostWords : t.hostWords = s.hostWords
  hostText : t.hostText = s.hostText

theorem Kept.refl (s : State) : Kept s s := ⟨rfl, rfl, rfl, rfl, rfl, rfl, rfl, rfl, rfl, rfl⟩

theorem Kept.trans {s t u : State} (h : Kept s t) (k : Kept t u) : Kept s u :=
  ⟨k.op.trans h.op, k.addr.trans h.addr, k.wdata.trans h.wdata, k.owned.trans h.owned, k.cfg.trans h.cfg, k.dev.trans h.dev,
    k.opcodes.trans h.opcodes, k.pending.trans h.pending, k.hostWords.trans h.hostWords, k.hostText.trans h.hostText⟩

theorem Kept.opInstr {s t : State} (h : Kept s t) : t.opInstr = s.opInstr := by
  simp only [State.opInstr, h.op, h.addr, h.wdata, h.owned]

theorem endTransaction_kept {s t : State} (h : endTransaction s = .next t) :
    Kept s t ∧ t.phase = s.phase ∧ t.rdata = s.rdata ∧ t.rxbuf = s.rxbuf ∧ t.txbuf = s.txbuf ∧ t.txlen = s.txlen ∧ t.csOut = s.csOut
      ∧ t.fatalIn = s.fatalIn ∧ t.draws = s.draws ∧ t.sel = s.sel ∧ t.txs = s.txs ∧ t.trace = s.trace ∧ t.setupNs = s.setupNs := by
  rcases endTransaction_next h with rfl | ⟨rfl, _⟩ | ⟨rfl, _⟩ | ⟨a, d, w, ms, rfl, _⟩ <;>
    exact ⟨⟨rfl, rfl, rfl, rfl, rfl, rfl, rfl, rfl, rfl, rfl⟩, rfl, rfl, rfl, rfl, rfl, rfl, rfl, rfl, rfl, rfl, rfl, rfl⟩

/-- The end of a transaction changes no byte outside the word of a WRITE or ERASE frame, and keeps the canonical form. -/
theorem endTransaction_ee {s t : State} (h : endTransaction s = .next t) :
    (∀ k, (∀ a d, transactionOf s.opcodes s.txs = some (.write a d) ∨ transactionOf s.opcodes s.txs = some (.erase a) →
        Outside [maskAddr a] k) → Memory.read t.ee k = Memory.read s.ee k)
      ∧ (Memory.wf s.ee → Memory.wf t.ee) ∧ (s.wel = false → t.ee = s.ee) := by
  rcases endTransaction_next h with rfl | ⟨rfl, _⟩ | ⟨rfl, _⟩ | ⟨a, d, w, ms, rfl, hw, _, ht⟩
  · exact ⟨fun _ _ => rfl, id, fun _ => rfl⟩
  · exact ⟨fun _ _ => rfl, id, fun _ => rfl⟩
  · exact ⟨fun _ _ => rfl, id, fun _ => rfl⟩
  · refine ⟨fun k hk => ?_, fun hm => memWrite_wf _ _ _ hm, fun hn => by rw [hw] at hn; cases hn⟩
    obtain ⟨h1, h2⟩ := hk a d ht (maskAddr a) (by simp)
    rw [storeWord_ee, Memory.read_memWrite, if_neg h1, if_neg h2]

/-- What a step leaves, by its name: the fields no step writes; each other register is written by its own steps only (R178). -/
structure StepKept (p : Phase) (s t : State) : Prop where
  kept : Kept s t
  phase : t.phase = s.phase
  rdata : p ≠ .dec → t.rdata = s.rdata
  rxbuf : p ≠ .rx → t.rxbuf = s.rxbuf
  txbuf : p ≠ .enc → t.txbuf = s.txbuf ∧ t.txlen = s.txlen
  line : p ≠ .b1 → p ≠ .b3 → p ≠ .e1 → t.csOut = s.csOut ∧ t.sel = s.sel
  array : p ≠ .b1 → p ≠ .e1 → t.ee = s.ee ∧ t.wel = s.wel ∧ t.cycleAddr = s.cycleAddr
  fatalIn : p ≠ .tx → p ≠ .rx → t.fatalIn = s.fatalIn

theorem emitCs_false_kept {p : Phase} {s t : State} (hp : p = .b1 ∨ p = .e1) (h : emitCs false s = .next t) : StepKept p s t := by
  obtain ⟨u, ⟨rfl, _⟩ | ⟨_, v, hv, rfl⟩, rfl⟩ := emitCs_false_next h
  · rcases hp with rfl | rfl <;>
      exact ⟨⟨rfl, rfl, rfl, rfl, rfl, rfl, rfl, rfl, rfl, rfl⟩, rfl, fun _ => rfl, fun _ => rfl, fun _ => ⟨rfl, rfl⟩, by simp, by simp,
        fun _ _ => rfl⟩
  · obtain ⟨k, h1, h2, h3, h4, h5, h6, h7, h8, h9, h10, h11⟩ := endTransaction_kept hv
    rcases hp with rfl | rfl <;>
      exact ⟨k.trans ⟨rfl, rfl, rfl, rfl, rfl, rfl, rfl, rfl, rfl, rfl⟩, h1, fun _ => h2, fun _ => h3, fun _ => ⟨h4, h5⟩, by simp, by simp,
        fun _ _ => h7⟩

theorem emitCs_true_kept {s t : State} (h : emitCs true s = .next t) : StepKept .b3 s t := by
  obtain ⟨u, ⟨rfl, _⟩ | ⟨rfl, _⟩, rfl⟩ := emitCs_true_next h <;>
    exact ⟨⟨rfl, rfl, rfl, rfl, rfl, rfl, rfl, rfl, rfl, rfl⟩, rfl, fun _ => rfl, fun _ => rfl, fun _ => ⟨rfl, rfl⟩, by simp,
      fun _ _ => ⟨rfl, rfl, rfl⟩, fun _ _ => rfl⟩

theorem wait_kept (p : Phase) (s : State) (n : Nat) (e : Event) : StepKept p s ((s.elapse n).record e) :=
  ⟨⟨rfl, rfl, rfl, rfl, rfl, rfl, rfl, rfl, rfl, rfl⟩, rfl, fun _ => rfl, fun _ => rfl, fun _ => ⟨rfl, rfl⟩, fun _ _ _ => ⟨rfl, rfl⟩,
    fun _ _ => ⟨rfl, rfl, rfl⟩, fun _ _ => rfl⟩

theorem callXfer_kept {tx : List Byte} {s t : State} (h : callXfer tx s = .next t) : StepKept .tx s t := by
  obtain ⟨_, rfl⟩ := callXfer_next h
  constructor
  case kept => constructor <;> simp
  all_goals simp

theorem callRecv_kept {n : Nat} {s t : State} (h : callRecv n s = .next t) : StepKept .rx s t := by
  obtain ⟨_, rfl⟩ := callRecv_next h
  constructor
  case kept => constructor <;> simp
  all_goals simp

theorem StepKept.refl (p : Phase) (s : State) : StepKept p s s :=
  ⟨.refl s, rfl, fun _ => rfl, fun _ => rfl, fun _ => ⟨rfl, rfl⟩, fun _ _ _ => ⟨rfl, rfl⟩, fun _ _ => ⟨rfl, rfl, rfl⟩, fun _ _ => rfl⟩

/-- Every step keeps what `StepKept` says of it. -/
theorem act_kept {p : Phase} {s t : State} (h : act p s = .next t) : StepKept p s t := by
  cases p with
  | idle => obtain rfl := Host.Outcome.next.inj h; exact .refl _ _
  | b1 => exact emitCs_false_kept (.inl rfl) h
  | e1 => exact emitCs_false_kept (.inr rfl) h
  | b3 => exact emitCs_true_kept h
  | b2 => obtain rfl := Host.Outcome.next.inj h; exact wait_kept _ _ _ _
  | b4 => obtain rfl := Host.Outcome.next.inj h; exact wait_kept _ _ _ _
  | e2 => obtain rfl := Host.Outcome.next.inj h; exact wait_kept _ _ _ _
  | wc => obtain rfl := Host.Outcome.next.inj h; exact wait_kept _ _ _ _
  | ec => obtain rfl := Host.Outcome.next.inj h; exact wait_kept _ _ _ _
  | enc =>
    rcases act_enc_next h with rfl | ⟨i, _, rfl⟩
    · exact .refl _ _
    · exact ⟨⟨rfl, rfl, rfl, rfl, rfl, rfl, rfl, rfl, rfl, rfl⟩, rfl, fun _ => rfl, fun _ => rfl, by simp, fun _ _ _ => ⟨rfl, rfl⟩,
        fun _ _ => ⟨rfl, rfl, rfl⟩, fun _ _ => rfl⟩
  | tx => exact callXfer_kept h
  | rx =>
    obtain ⟨u, hu, rfl⟩ := act_rx_next h
    have k := callRecv_kept hu
    exact ⟨k.kept.trans ⟨rfl, rfl, rfl, rfl, rfl, rfl, rfl, rfl, rfl, rfl⟩, k.phase, k.rdata, by simp, k.txbuf, k.line, k.array, by simp⟩
  | dec =>
    obtain ⟨w, rfl⟩ := act_dec_next h
    exact ⟨⟨rfl, rfl, rfl, rfl, rfl, rfl, rfl, rfl, rfl, rfl⟩, rfl, by simp, fun _ => rfl, fun _ => ⟨rfl, rfl⟩, fun _ _ _ => ⟨rfl, rfl⟩,
      fun _ _ => ⟨rfl, rfl, rfl⟩, fun _ _ => rfl⟩

/-- Every list of steps: the fields no step writes; RDATA without a DEC, RXBUF without an RX, TXBUF and TXLEN without an ENC, CS_OUT without
an event of chip-select. -/
theorem runSteps_kept {steps : List Phase} {s t : State} (h : runSteps steps s = .next t) :
    Kept s t ∧ (.dec ∉ steps → t.rdata = s.rdata) ∧ (.rx ∉ steps → t.rxbuf = s.rxbuf)
      ∧ (.enc ∉ steps → t.txbuf = s.txbuf ∧ t.txlen = s.txlen)
      ∧ (.b1 ∉ steps → .b3 ∉ steps → .e1 ∉ steps → t.csOut = s.csOut) := by
  refine runSteps_induction (P := fun t => Kept s t ∧ (.dec ∉ steps → t.rdata = s.rdata) ∧ (.rx ∉ steps → t.rxbuf = s.rxbuf)
      ∧ (.enc ∉ steps → t.txbuf = s.txbuf ∧ t.txlen = s.txlen)
      ∧ (.b1 ∉ steps → .b3 ∉ steps → .e1 ∉ steps → t.csOut = s.csOut)) ?_ ?_ steps ?_ ?_ h
  · rintro u p ⟨k, hk⟩
    exact ⟨k.trans ⟨rfl, rfl, rfl, rfl, rfl, rfl, rfl, rfl, rfl, rfl⟩, hk⟩
  · rintro u _ _ ⟨k, hk⟩
    exact ⟨k.trans ⟨rfl, rfl, rfl, rfl, rfl, rfl, rfl, rfl, rfl, rfl⟩, hk⟩
  · rintro p hp u v ⟨k, k1, k2, k3, k4⟩ hv
    obtain ⟨l, _, l1, l2, l3, l4, _⟩ := act_kept hv
    have ne : ∀ q, q ∉ steps → p ≠ q := by rintro q hq rfl; exact hq hp
    refine ⟨k.trans l, fun n => (l1 (ne _ n)).trans (k1 n), fun n => (l2 (ne _ n)).trans (k2 n), fun n => ?_, fun n1 n2 n3 => ?_⟩
    · obtain ⟨x, y⟩ := l3 (ne _ n)
      exact ⟨x.trans (k3 n).1, y.trans (k3 n).2⟩
    · exact (l4 (ne _ n1) (ne _ n2) (ne _ n3)).1.trans (k4 n1 n2 n3)
  · exact ⟨.refl s, by simp⟩

/-- The same for a whole command, returned or not. -/
theorem startCommand_kept {steps : List Phase} {latch : State → State} {s t : State} (h : startCommand steps latch s = .next t) :
    Kept (latch s) t ∧ (.dec ∉ steps → t.rdata = (latch s).rdata) ∧ (.rx ∉ steps → t.rxbuf = (latch s).rxbuf)
      ∧ (.enc ∉ steps → t.txbuf = (latch s).txbuf ∧ t.txlen = (latch s).txlen)
      ∧ (.b1 ∉ steps → .b3 ∉ steps → .e1 ∉ steps → t.csOut = (latch s).csOut) := by
  obtain ⟨_, u, hu, ⟨_, rfl⟩ | ⟨_, rfl⟩⟩ := startCommand_next h
  · exact runSteps_kept hu
  · obtain ⟨k, hk⟩ := runSteps_kept hu
    exact ⟨k.trans ⟨rfl, rfl, rfl, rfl, rfl, rfl, rfl, rfl, rfl, rfl⟩, hk⟩

/-- A transfer of a macro that never returned changes no byte outside the words it cuts off, and keeps the canonical form (R209, R281). -/
theorem hang_array (s : State) (bits : List Bool) :
    (∀ k, Outside s.cutWords k → Memory.read (s.hang bits).ee k = Memory.read s.ee k) ∧ (Memory.wf s.ee → Memory.wf (s.hang bits).ee) :=
  ⟨fun k hk => read_scrambleWords _ _ _ k hk, scrambleWords_wf _ _ _⟩

/-- A list of steps that came to its end: DEV.SEL without an event of chip-select, the array and the latch without a deassert. -/
theorem runSteps_returned_kept {steps : List Phase} {s t : State} (h : runSteps steps s = .next t) (returned : t.phase = .idle) :
    (.b1 ∉ steps → .b3 ∉ steps → .e1 ∉ steps → t.sel = s.sel)
      ∧ (.b1 ∉ steps → .e1 ∉ steps → t.ee = s.ee ∧ t.wel = s.wel ∧ t.cycleAddr = s.cycleAddr) := by
  refine runSteps_induction_returned (P := fun t => (.b1 ∉ steps → .b3 ∉ steps → .e1 ∉ steps → t.sel = s.sel)
      ∧ (.b1 ∉ steps → .e1 ∉ steps → t.ee = s.ee ∧ t.wel = s.wel ∧ t.cycleAddr = s.cycleAddr)) (fun _ _ h => h) steps ?_ (by simp) h returned
  rintro p hp u v ⟨k4, k5⟩ hv
  have l := act_kept hv
  have ne : ∀ q, q ∉ steps → p ≠ q := by rintro q hq rfl; exact hq hp
  refine ⟨fun n1 n2 n3 => (l.line (ne _ n1) (ne _ n2) (ne _ n3)).2.trans (k4 n1 n2 n3), fun n1 n2 => ?_⟩
  obtain ⟨x, y, z⟩ := l.array (ne _ n1) (ne _ n2)
  obtain ⟨x', y', z'⟩ := k5 n1 n2
  exact ⟨x.trans x', y.trans y', z.trans z'⟩

/-! ### Stretches of steps -/

/-- The first deassert of BEGIN_TXN: the words of an open transaction may be written, no other byte changes; with nothing clocked in, nothing
changes (R110, R71). -/
theorem emitCs_false_array {s t : State} (h : emitCs false s = .next t) :
    t.sel = false ∧ (s.sel = true → t.txs = []) ∧ (s.sel = true → t.secondFrame = false ∧ t.sentMarks = []) ∧ (s.sel = false → t.txs = s.txs)
      ∧ (s.sel = false → t.secondFrame = s.secondFrame)
      ∧ (∀ k, Outside s.transactionWord k → Memory.read t.ee k = Memory.read s.ee k)
      ∧ (Memory.wf s.ee → Memory.wf t.ee)
      ∧ ((s.sel = true → s.txs = []) → t.ee = s.ee ∧ t.wel = s.wel) := by
  obtain ⟨u, ⟨rfl, hs⟩ | ⟨hs, v, hv, rfl⟩, rfl⟩ := emitCs_false_next h
  · simp [hs]
  · obtain ⟨h1, h2, h3⟩ := endTransaction_ee hv
    refine ⟨rfl, fun _ => rfl, fun _ => ⟨rfl, rfl⟩, by simp [hs], by simp [hs], fun k hk => h1 k fun a d ht => ?_, h2, fun hn => ?_⟩
    · rw [State.transactionWord, if_pos hs] at hk
      rcases ht with ht | ht <;> rw [ht] at hk <;> exact hk
    · rw [endTransaction, if_pos (hn hs)] at hv
      obtain rfl := Host.Outcome.next.inj hv
      exact ⟨rfl, rfl⟩

/-- BEGIN_TXN's steps, whenever what follows them answers a next state: a fresh transaction is open. -/
theorem runSteps_begin_next {rest : List Phase} {s t : State} (h : runSteps (.b1 :: .b2 :: .b3 :: .b4 :: rest) s = .next t) :
    ∃ u, runSteps rest u = .next t ∧ Kept s u ∧ u.sel = true ∧ u.txs = [] ∧ u.secondFrame = false ∧ u.sentMarks = [] ∧ u.busyNs = 0
      ∧ u.fatalIn = s.fatalIn
      ∧ (∀ k, Outside s.transactionWord k → Memory.read u.ee k = Memory.read s.ee k)
      ∧ (Memory.wf s.ee → Memory.wf u.ee)
      ∧ ((s.sel = true → s.txs = []) → u.ee = s.ee ∧ u.wel = s.wel) := by
  have other : ∀ {p : Phase} {x : State}, p ≠ .tx → p ≠ .rx → ¬ (neverReturns p x = true ∧ t = (x.setPhase p).hang (transferBits p x)) := by
    rintro p x h1 h2 ⟨h3, _⟩
    rw [neverReturns_other h1 h2] at h3
    cases h3
  obtain ⟨a, ha, h⟩ := (runSteps_next h).resolve_left (other (by decide) (by decide))
  obtain ⟨b, hb, h⟩ := (runSteps_next h).resolve_left (other (by decide) (by decide))
  obtain ⟨c, hc, h⟩ := (runSteps_next h).resolve_left (other (by decide) (by decide))
  obtain ⟨d, hd, h⟩ := (runSteps_next h).resolve_left (other (by decide) (by decide))
  have ka := act_kept ha
  have kc := act_kept hc
  obtain ⟨a1, a2, a3, a4, a5, a6, a7, a8⟩ := emitCs_false_array ha
  obtain rfl := Host.Outcome.next.inj hb
  obtain ⟨v, hv, rfl⟩ := emitCs_true_next hc
  obtain rfl := Host.Outcome.next.inj hd
  obtain ⟨_, h1⟩ | ⟨rfl, _, hb⟩ := hv
  · rw [setPhase_sel, record_sel, elapse_sel, setPhase_sel, a1] at h1; cases h1
  refine ⟨_, h, ?_, rfl, rfl, rfl, rfl, ?_, ka.fatalIn (by decide) (by decide), a6, a7, a8⟩
  have k : Kept s a := Kept.trans (t := s.setPhase .b1) ⟨rfl, rfl, rfl, rfl, rfl, rfl, rfl, rfl, rfl, rfl⟩ ka.kept
  · exact k.trans ⟨rfl, rfl, rfl, rfl, rfl, rfl, rfl, rfl, rfl, rfl⟩
  · show State.busyNs _ - _ = 0
    rw [setPhase_busyNs, driveCs_busyNs, record_busyNs, select_busyNs, hb, Nat.zero_sub]

/-- Where a transfer that never returned left the machine: at step `p`, from a state that differs from `s` in the block's transfer registers only
(R232, R209). -/
def StuckAt (p : Phase) (s t : State) : Prop :=
  ∃ u bits, t = u.hang bits ∧ u.phase = p ∧ Kept s u ∧ u.ee = s.ee ∧ u.busyNs = s.busyNs ∧ u.sel = s.sel ∧ u.txs = s.txs

theorem StuckAt.phase {p : Phase} {s t : State} (h : StuckAt p s t) : t.phase = p := by
  obtain ⟨u, bits, rfl, hp, _⟩ := h
  exact hp

/-- ENC and TX, whenever what follows them answers a next state: stuck at the transfer, or the frame is clocked in (R171 to R175). -/
theorem runSteps_send_next {rest : List Phase} {s t : State} {i : Instr} (hi : s.opInstr = some i)
    (h : runSteps (.enc :: .tx :: rest) s = .next t) :
    StuckAt .tx s t
      ∨ ∃ u, runSteps rest u = .next t ∧ Kept s u ∧ u.ee = s.ee ∧ u.wel = s.wel ∧ u.sel = s.sel
          ∧ u.txs = (if s.sel then s.txs ++ bitsOfBytes (encode s.opcodes s.cfg.writeShift i) else s.txs)
          ∧ u.busyNs = s.busyNs ∧ u.secondFrame = (s.clockIn (encode s.opcodes s.cfg.writeShift i)).secondFrame
          ∧ u.sentMarks = (s.clockIn (encode s.opcodes s.cfg.writeShift i)).sentMarks := by
  rcases runSteps_next h with ⟨h1, _⟩ | ⟨a, ha, h⟩
  · rw [neverReturns_other (by decide) (by decide)] at h1; cases h1
  · have ha' : a = (s.setPhase .enc).loadTx (encode s.opcodes s.cfg.writeShift i) := by
      have hi' : (s.setPhase .enc).opInstr = some i := hi
      simp only [act, hi'] at ha
      exact (Host.Outcome.next.inj ha).symm
    subst ha'
    rcases runSteps_next h with ⟨_, rfl⟩ | ⟨b, hb, h⟩
    · exact .inl ⟨_, _, rfl, rfl, ⟨rfl, rfl, rfl, rfl, rfl, rfl, rfl, rfl, rfl, rfl⟩, rfl, rfl, rfl, rfl⟩
    · right
      have kb := act_kept hb
      have hx : callXfer (((s.setPhase .enc).loadTx (encode s.opcodes s.cfg.writeShift i)).setPhase .tx).txBytes
          (((s.setPhase .enc).loadTx (encode s.opcodes s.cfg.writeShift i)).setPhase .tx) = .next b := hb
      rw [setPhase_txBytes, txBytes_loadTx _ _ (encode_length_le _ _ _)] at hx
      obtain ⟨_, rfl⟩ := callXfer_next hx
      refine ⟨_, h, Kept.trans (t := ((s.setPhase .enc).loadTx (encode s.opcodes s.cfg.writeShift i)).setPhase .tx)
        ⟨rfl, rfl, rfl, rfl, rfl, rfl, rfl, rfl, rfl, rfl⟩ kb.kept, ?_, ?_, ?_, ?_, rfl, ?_, ?_⟩
      · simp
      · simp
      · simp
      · simp; rfl
      · rfl
      · rfl

/-- RX, whenever what follows it answers a next state: stuck at it, or the fill bits are clocked in (R171). -/
theorem runSteps_receive_next {rest : List Phase} {s t : State} (h : runSteps (.rx :: rest) s = .next t) :
    (StuckAt .rx s t ∧ t.rxbuf = s.rxbuf)
      ∨ ∃ u, runSteps rest u = .next t ∧ Kept s u ∧ u.ee = s.ee ∧ u.wel = s.wel ∧ u.sel = s.sel
          ∧ u.txs = (if s.sel then s.txs ++ bitsOfBytes (s.fillBytes s.cfg.rxBytes) else s.txs)
          ∧ u.secondFrame = (s.clockIn (s.fillBytes s.cfg.rxBytes)).secondFrame ∧ u.rxbuf.length = s.cfg.rxBytes := by
  rcases runSteps_next h with ⟨_, rfl⟩ | ⟨a, ha, h⟩
  · exact .inl ⟨⟨_, _, rfl, rfl, ⟨rfl, rfl, rfl, rfl, rfl, rfl, rfl, rfl, rfl, rfl⟩, rfl, rfl, rfl, rfl⟩, rfl⟩
  · right
    obtain ⟨b, hb, rfl⟩ := act_rx_next ha
    have kb := callRecv_kept hb
    obtain ⟨_, rfl⟩ := callRecv_next hb
    refine ⟨_, h, Kept.trans (t := s.setPhase .rx) ⟨rfl, rfl, rfl, rfl, rfl, rfl, rfl, rfl, rfl, rfl⟩
      (kb.kept.trans ⟨rfl, rfl, rfl, rfl, rfl, rfl, rfl, rfl, rfl, rfl⟩), ?_, ?_, ?_, ?_, ?_, ?_⟩
    · simp
    · simp
    · simp
    · simp [State.fillBytes]; rfl
    · rfl
    · simp

/-- END_TXN's steps, whenever what follows them answers a next state: the transaction had its effect, if one was open. -/
theorem runSteps_end_next {rest : List Phase} {s t : State} (h : runSteps (.e1 :: .e2 :: rest) s = .next t) :
    ∃ u v, runSteps rest u = .next t ∧ Kept s u ∧ u.sel = false ∧ (s.sel = true → u.txs = []) ∧ (s.sel = false → u.txs = s.txs)
      ∧ u.rxbuf = s.rxbuf
      ∧ (if s.sel then endTransaction (s.setPhase .e1) = .next v else v = s.setPhase .e1) ∧ u.ee = v.ee ∧ u.wel = v.wel
      ∧ u.secondFrame = (if s.sel then false else s.secondFrame) := by
  rcases runSteps_next h with ⟨h1, _⟩ | ⟨a, ha, h⟩
  · rw [neverReturns_other (by decide) (by decide)] at h1; cases h1
  rcases runSteps_next h with ⟨h1, _⟩ | ⟨b, hb, h⟩
  · rw [neverReturns_other (by decide) (by decide)] at h1; cases h1
  have ka := act_kept ha
  obtain rfl := Host.Outcome.next.inj hb
  have k : Kept s a := Kept.trans (t := s.setPhase .e1) ⟨rfl, rfl, rfl, rfl, rfl, rfl, rfl, rfl, rfl, rfl⟩ ka.kept
  have hr : a.rxbuf = s.rxbuf := ka.rxbuf (by decide)
  obtain ⟨u, ⟨rfl, hs⟩ | ⟨hs, v, hv, rfl⟩, rfl⟩ := emitCs_false_next ha
  · have hs' : s.sel = false := hs
    exact ⟨_, s.setPhase .e1, h, k.trans ⟨rfl, rfl, rfl, rfl, rfl, rfl, rfl, rfl, rfl, rfl⟩, hs', by simp [hs'], fun _ => rfl, hr, by simp [hs'],
      rfl, rfl, by rw [hs']; rfl⟩
  · have hs' : s.sel = true := hs
    exact ⟨_, v, h, k.trans ⟨rfl, rfl, rfl, rfl, rfl, rfl, rfl, rfl, rfl, rfl⟩, rfl, fun _ => rfl, by simp [hs'], hr, by rw [hs']; exact hv,
      rfl, rfl, by rw [hs']; rfl⟩

end Sys2Proof.Machine
end

