-- ==== Sys2Proof/Laws/Requests.lean ====
section
/-! SUPPORT. One step of the machine by the request it serves, the seven commands in one form, and a command of a macro. -/

namespace Sys2Proof.Machine

/-! ### A step serves a request -/

/-- The next request is carried out, with the others still to come. -/
theorem step_serves {s : State} {r : Request} {rest : List Request} (h : s.pending = r :: rest) (hc : s.canServe r = true) :
    step s = runRequest r (s.setPending rest) := by
  rw [step, serveNext, h]
  exact if_pos hc

/-- A request that may not happen now leaves the machine as it is. -/
theorem step_waits {s : State} {r : Request} {rest : List Request} (h : s.pending = r :: rest) (hc : s.canServe r = false) :
    step s = .next s := by
  rw [step, serveNext, h]
  exact if_neg (by simp [hc])

theorem step_of_nil {s : State} (h : s.pending = []) : step s = .next s := by
  rw [step, serveNext, h]

/-- A command may be served exactly while the block is idle (R26). -/
theorem canServe_command (s : State) (c : Command) : s.canServe (.command c) = decide (s.phase = .idle) := by
  simp [State.canServe, fromOutside]

/-- A run of one more step, when that step answers a next state. -/
theorem run_succ_of_next (M : Host.Core) {n : Nat} {s t : M.State} (h : M.step s = .next t) : M.run (n + 1) s = M.run n t := by
  simp only [Host.Core.run, h]

theorem run_succ {n : Nat} {s t : State} (h : step s = .next t) : Sys2Proof.core.run (n + 1) s = Sys2Proof.core.run n t :=
  run_succ_of_next Sys2Proof.core h

/-! ### The seven commands in one form -/

/-- The steps of a command (R178). -/
def commandSteps : Command → List Phase
  | .beginTxn => [.b1, .b2, .b3, .b4]
  | .endTxn => [.e1, .e2]
  | .instr (.read _ owned) => readSteps owned
  | .instr (.erase _) => [.b1, .b2, .b3, .b4, .enc, .tx, .e1, .e2, .ec]
  | .instr (.write _ _) => writeSteps
  | .instr .writeEnable => [.b1, .b2, .b3, .b4, .enc, .tx, .e1, .e2]
  | .instr .writeDisable => [.b1, .b2, .b3, .b4, .enc, .tx, .e1, .e2]

/-- What a command latches (R21 to R24). -/
def commandLatch : Command → State → State
  | .beginTxn, t => t.latchOp .beginTxn
  | .endTxn, t => t.latchOp .endTxn
  | .instr (.read a owned), t => latchRead a owned t
  | .instr (.erase a), t => (t.latchOp .erase).latchAddr a
  | .instr (.write a d), t => latchWrite a d t
  | .instr .writeEnable, t => t.latchOp .writeEnable
  | .instr .writeDisable, t => t.latchOp .writeDisable

theorem runCommand_eq (c : Command) (s : State) : runCommand c s = startCommand (commandSteps c) (commandLatch c) s := by
  rcases c with _ | _ | i
  · rfl
  · rfl
  · cases i <;> rfl

theorem exec_eq (i : Instr) (s : State) : exec i s = startCommand (commandSteps (.instr i)) (commandLatch (.instr i)) s :=
  runCommand_eq (.instr i) s

/-- Latching writes OP and the operand registers only. -/
theorem commandLatch_kept (c : Command) (s : State) :
    (commandLatch c s).phase = s.phase ∧ (commandLatch c s).rdata = s.rdata ∧ (commandLatch c s).txbuf = s.txbuf ∧ (commandLatch c s).txlen = s.txlen
      ∧ (commandLatch c s).rxbuf = s.rxbuf ∧ (commandLatch c s).csOut = s.csOut ∧ (commandLatch c s).cfg = s.cfg ∧ (commandLatch c s).trace = s.trace
      ∧ (commandLatch c s).ee = s.ee ∧ (commandLatch c s).wel = s.wel ∧ (commandLatch c s).busyNs = s.busyNs ∧ (commandLatch c s).sel = s.sel
      ∧ (commandLatch c s).txs = s.txs ∧ (commandLatch c s).idleNs = s.idleNs ∧ (commandLatch c s).setupNs = s.setupNs ∧ (commandLatch c s).dev = s.dev
      ∧ (commandLatch c s).opcodes = s.opcodes ∧ (commandLatch c s).secondFrame = s.secondFrame ∧ (commandLatch c s).sentMarks = s.sentMarks ∧ (commandLatch c s).pending = s.pending
      ∧ (commandLatch c s).fatalIn = s.fatalIn := by
  rcases c with _ | _ | i
  · simp [commandLatch]
  · simp [commandLatch]
  · cases i <;> simp [commandLatch, latchRead, latchWrite]

/-! ### A command of a macro (R200, R209) -/

/-- A WRITE of a macro does what WRITE does, when WRITE returns (R200). -/
theorem macroWrite_of_exec {addr data : Nat} {s t : State} (h : exec (.write addr data) s = .next t) (returned : t.phase = .idle) :
    macroWrite addr data s = .next t := by
  obtain ⟨hs, hr⟩ := startCommand_returned h returned
  exact (startSteps_eq hs).trans hr

/-- A READ of a macro does what a self-framed READ does, when READ returns (R200). -/
theorem macroRead_of_exec {addr : Nat} {s t : State} (h : exec (.read addr false) s = .next t) (returned : t.phase = .idle) :
    macroRead addr s = .next t := by
  obtain ⟨hs, hr⟩ := startCommand_returned h returned
  exact (startSteps_eq hs).trans hr

/-! ### A command of a macro that never returns (R209, R277, U13) -/

/-- A stuck transfer in a fresh transaction, or after a frame that is no WRITE or ERASE, frees at most the word its command addresses. -/
theorem StuckAt.array {p : Phase} {s t : State} (h : StuckAt p s t) (busy : s.busyNs = 0) (word : s.transactionWord = []) {k : Nat}
    (hk : (s.op = .write ∨ s.op = .erase) → Outside [s.addr] k) : Memory.read t.ee k = Memory.read s.ee k := by
  obtain ⟨u, bits, rfl, _, ku, hee, hb, hsel, htxs⟩ := h
  rw [← hee]
  refine (hang_array u bits).1 k fun a ha => ?_
  have hw : u.transactionWord = s.transactionWord := by simp only [State.transactionWord, hsel, htxs, ku.opcodes]
  simp only [State.cutWords, State.cycleWord, hw, word, hb, busy, lt_irrefl, if_false, List.append_nil, State.commandWord, ku.op, ku.addr] at ha
  split_ifs at ha with hc
  · exact hk hc.2 a ha
  · cases ha

/-- A WRITE of a macro that never returns leaves every byte but those of the word it addresses, and of the word of a transaction that was open
before. -/
theorem macroWrite_stuck {addr data : Nat} {s t : State} (h : macroWrite addr data s = .next t) (stuck : t.phase ≠ .idle) {k : Nat}
    (hk : Outside (maskAddr addr :: s.transactionWord) k) : Memory.read t.ee k = Memory.read s.ee k := by
  obtain ⟨u, h, ku, _, u2, _, _, u5, _, u6, _⟩ := runSteps_begin_next (startSteps_next h).2
  have hi : u.opInstr = some (.write (maskAddr addr).toNat (maskData data).toNat) := by rw [ku.opInstr]; rfl
  have hu : Memory.read u.ee k = Memory.read s.ee k := u6 k fun a ha => hk a (List.mem_cons_of_mem _ ha)
  rcases runSteps_send_next hi h with hs | ⟨v, h, _⟩
  · rw [← hu]
    refine hs.array u5 (by simp [State.transactionWord, u2, transactionOf_nil]) fun _ => ?_
    rw [ku.addr]
    exact fun a ha => hk a (by simpa using .inl (List.mem_singleton.1 ha))
  · exact absurd (runSteps_returns h (by decide) (by decide)) stuck

/-- A READ of a macro that never returns leaves every byte but those of the word of a transaction that was open before. -/
theorem macroRead_stuck {addr : Nat} {s t : State} (h : macroRead addr s = .next t) (stuck : t.phase ≠ .idle) {k : Nat}
    (hk : Outside s.transactionWord k) : Memory.read t.ee k = Memory.read s.ee k := by
  obtain ⟨u, h, ku, u1, u2, _, _, u5, _, u6, _⟩ := runSteps_begin_next (startSteps_next h).2
  have hi : u.opInstr = some (.read (maskAddr addr).toNat false) := by rw [ku.opInstr]; rfl
  have hop : ¬ (u.op = .write ∨ u.op = .erase) := by rw [ku.op]; simp [latchRead]
  have hu : Memory.read u.ee k = Memory.read s.ee k := u6 k hk
  rcases runSteps_send_next hi h with hs | ⟨v, h, kv, v1, _, v3, v4, v5, _⟩
  · rw [← hu]
    exact hs.array u5 (by simp [State.transactionWord, u2, transactionOf_nil]) fun ho => absurd ho hop
  · rcases runSteps_receive_next h with ⟨hs, _⟩ | ⟨w, h, _⟩
    · rw [← hu, ← v1]
      refine hs.array (v5.trans u5) ?_ fun ho => absurd (by rwa [kv.op] at ho) hop
      have ht := transactionOf_read u.opcodes u.cfg.writeShift (maskAddr addr).toNat false []
      rw [List.append_nil] at ht
      rw [u1, if_pos rfl, u2, List.nil_append] at v4
      simp [State.transactionWord, v3, u1, v4, kv.opcodes, ht]
    · exact absurd (runSteps_returns h (by decide) (by decide)) stuck

end Sys2Proof.Machine
end

