-- ==== Sys2Proof/Tests/Slice0.lean ====
section
/-! SUPPORT. Tests with expected results from spec/95_test_vectors.md, and for every statement with hypotheses a state that meets them. -/

namespace Sys2Proof.Tests

open Sys2Proof Sys2Proof.Machine

/-! ### Helpers -/

def isNext : Result → Bool
  | .next _ => true
  | .fault _ => false
  | .refused _ => false

/-- The refusal of a result. -/
def refusalOf : Result → Option Refusal
  | .next _ => none
  | .fault _ => none
  | .refused r => some r

/-- The event without what a transfer brought back, which draws decide. -/
def shape : Event → Event
  | .cs b => .cs b
  | .waitNs t => .waitNs t
  | .waitMs t => .waitMs t
  | .xfer tx _ => .xfer tx []
  | .recv n _ => .recv n []

/-- A field of the next state. -/
def after {α : Type} (r : Result) (f : State → α) : Option α :=
  match r with
  | .next t => some (f t)
  | .fault _ => none
  | .refused _ => none

/-- The event groups `B` and `E` of 95_test_vectors.md, V-S. -/
def groupB : List Event := [.cs false, .waitNs 250, .cs true, .waitNs 250]
def groupE : List Event := [.cs false, .waitNs 250]

/-- The device selected, its setup time passed, these bits clocked in at the default fill. -/
def openWith (bits : List Bool) : State :=
  { State.reset with
    sel := true, csOut := .asserted, setupNs := 250, txs := bits, sentMarks := (bytesOfBits bits).map (fun b => b != 0x00) }

/-- Reset with the latch set. -/
def enabled : State := { State.reset with wel := true }

theorem exists_next {r : Result} (h : isNext r = true) : ∃ t, r = .next t := by
  cases r with
  | next t => exact ⟨t, rfl⟩
  | fault f => cases h
  | refused f => cases h

theorem exists_idle {r : Result} (h : after r State.phase = some .idle) : ∃ t, r = .next t ∧ t.phase = .idle := by
  cases r with
  | next t => exact ⟨t, rfl, Option.some.inj h⟩
  | fault f => cases h
  | refused f => cases h

/-! ### WellFormed refuses an operand outside its field -/

theorem test_wf_read : WellFormed (.read 0x400 false) = false ∧ WellFormed (.read 0x3FF false) = true := by decide
theorem test_wf_erase : WellFormed (.erase 0x400) = false ∧ WellFormed (.erase 0x3FF) = true := by decide
theorem test_wf_write_addr : WellFormed (.write 0x400 0) = false ∧ WellFormed (.write 0x3FF 0xFFFF) = true := by decide
theorem test_wf_write_data : WellFormed (.write 0 0x10000) = false := by decide

/-! ### Decoding, from words written out by R89's patterns -/

/-- READ `110aaaaaaaaaa000` with the address 0000010000 (VC3). -/
theorem test_decode_read : decodeTableWord 16 0b1100000010000000 = some (.read 0x010 false) := by decide
/-- ERASE `111aaaaaaaaaa000` with the address 1000110100. -/
theorem test_decode_erase : decodeTableWord 16 0b1111000110100000 = some (.erase 0x234) := by decide
/-- WRITE `101aaaaaaaaaadddddddddddddddd000` with 0000010000 and 1101111010101101 (R82). -/
theorem test_decode_write : decodeTableWord 32 0b10100000100001101111010101101000 = some (.write 0x010 0xDEAD) := by decide
/-- WRITE_ENABLE `1001100000000000`. -/
theorem test_decode_writeEnable : decodeTableWord 16 0b1001100000000000 = some .writeEnable := by decide
/-- WRITE_DISABLE `1000000000000000`. -/
theorem test_decode_writeDisable : decodeTableWord 16 0b1000000000000000 = some .writeDisable := by decide
/-- R91: padding bits, a control pattern that is none, a zero top bit, and a 32-bit frame that is no WRITE. -/
theorem test_decode_refuses :
    decode Opcodes.standard [0xC0, 0x81] = .error .nonzeroPadding ∧ decode Opcodes.standard [0xE0, 0x84] = .error .nonzeroPadding
      ∧ decode Opcodes.standard [0x98, 0x01] = .error .nonzeroPadding ∧ decode Opcodes.standard [0x90, 0x00] = .error .unknownOpcode
      ∧ decode Opcodes.standard [0x40, 0x80] = .error .unknownOpcode ∧ decode Opcodes.standard [0xA0, 0x86, 0xF5, 0x69] = .error .nonzeroPadding
      ∧ decode Opcodes.standard [0xC0, 0x80, 0x00, 0x00] = .error .unknownOpcode ∧ decode Opcodes.standard [0x98] = .error .badLength
      ∧ decode Opcodes.standard [] = .error .badLength := by decide

/-! ### Encoding (V-C) -/

theorem test_encode_read : encode Opcodes.standard 3 (.read 0x3FF false) = [0xDF, 0xF8] ∧ encode Opcodes.standard 3 (.read 0x400 false) = [0xC0, 0x00] := by
  decide
theorem test_encode_erase : encode Opcodes.standard 3 (.erase 0x010) = [0xE0, 0x80] ∧ encode Opcodes.standard 3 (.erase 0x7FF) = [0xFF, 0xF8] := by decide
theorem test_encode_write :
    encode Opcodes.standard 3 (.write 0x410 0x1DEAD) = [0xA0, 0x86, 0xF5, 0x68] ∧ encode Opcodes.standard 3 (.write 0x3FF 0xFFFF) = [0xBF, 0xFF, 0xFF, 0xF8] := by
  decide
/-- R93. -/
theorem test_encode_write_shifted :
    encode Opcodes.standard 0 (.write 0x010 0xDEAD) = [0x14, 0x10, 0xDE, 0xAD] ∧ encode Opcodes.standard 1 (.write 0x010 0xDEAD) = [0x28, 0x21, 0xBD, 0x5A]
      ∧ encode Opcodes.standard 2 (.write 0x010 0xDEAD) = [0x50, 0x43, 0x7A, 0xB4] := by decide
theorem test_encode_control : encode Opcodes.standard 3 .writeEnable = [0x98, 0x00] ∧ encode Opcodes.standard 3 .writeDisable = [0x80, 0x00] := by decide

/-! ### The Response Decoder (VD1, VD8, VD10, VD11, and the other offsets) -/

theorem test_decode_response :
    decodeResponse 1 [0xAA, 0x55, 0x80] = .ok 0x54AB ∧ decodeResponse 1 [0x6F, 0x56, 0x80] = .ok 0xDEAD
      ∧ decodeResponse 1 [0x00, 0x00, 0x80] = .ok 0x0001 ∧ decodeResponse 1 [0x40, 0x00, 0x00] = .ok 0x8000 := by decide
theorem test_decode_response_offsets :
    decodeResponse 0 [0xAA, 0x55, 0x80] = .ok 0xAA55 ∧ decodeResponse 2 [0xAA, 0x55, 0x80] = .ok 0xA956
      ∧ decodeResponse 8 [0xAA, 0x55, 0x80] = .ok 0x5580 ∧ decodeResponse 0 [0xDE, 0xAD] = .ok 0xDEAD
      ∧ decodeResponse 1 [0xDE, 0xAD] = .error .rxTooShort := by decide

/-! ### The device's answer (VR1): after the dummy bit the word, high bit first -/

theorem test_response_bits :
    let s : State := { openWith (bitsOfBytes [0xC0, 0x80]) with ee := [(0x20, 0xDE), (0x21, 0xAD)] }
    ((List.range 16).map fun k => responseBit s (s.txs ++ List.replicate (1 + k) false) false) = bitsOf 16 0xDEAD := by decide

/-! ### One step per instruction (V-S) -/

/-- VS2: the address is masked; the events of VS1. -/
theorem test_read_events :
    after (exec (.read 0x410 false) State.reset) (fun t => t.trace.map shape)
      = some (groupB ++ [.xfer [0xC0, 0x80] [], .recv 3 []] ++ groupE) := by decide
/-- VS11: a caller-framed READ emits the two transfers only. -/
theorem test_read_owned_events :
    after (exec (.read 0x005 true) (openWith [])) (fun t => (t.trace.map shape, t.sel)) = some ([.xfer [0xC0, 0x28] [], .recv 3 []], true) := by decide
/-- VS3: the write's own wait outlasts the device's cycle. -/
theorem test_write_events :
    after (exec (.write 0x010 0xDEAD) enabled) (fun t => (t.trace.map shape, t.busyNs, t.wel))
      = some (groupB ++ [.xfer [0xA0, 0x86, 0xF5, 0x68] []] ++ groupE ++ [.waitMs 7], 0, true) := by decide
/-- VS4: the latch clear, nothing written. -/
theorem test_write_latch_clear : after (exec (.write 0x010 0xDEAD) State.reset) (fun t => (t.ee, t.trace.length)) = some ([], 8) := by decide
/-- VS5 with a host that does not wait for the cycle: 4 ms less the hold wait are left. -/
theorem test_erase_cycle :
    after (exec (.erase 0x010) { enabled with cfg := { Cfg.standard with tEcMs := 0 } }) (fun t => t.busyNs) = some 3999750 := by decide
/-- VS6. -/
theorem test_erase_events :
    after (exec (.erase 0x010) State.reset) (fun t => (t.trace.map shape, t.ee))
      = some (groupB ++ [.xfer [0xE0, 0x80] []] ++ groupE ++ [.waitMs 4], []) := by decide
/-- VS7 and VS8. -/
theorem test_writeEnable :
    after (exec .writeEnable State.reset) (fun t => (t.trace.map shape, t.wel)) = some (groupB ++ [.xfer [0x98, 0x00] []] ++ groupE, true)
      ∧ after (exec .writeEnable enabled) State.wel = some true := by decide
/-- VS9 and VS10. -/
theorem test_writeDisable :
    after (exec .writeDisable enabled) (fun t => (t.trace.map shape, t.wel)) = some (groupB ++ [.xfer [0x80, 0x00] []] ++ groupE, false)
      ∧ after (exec .writeDisable State.reset) State.wel = some false := by decide

/-! ### Hazards (V-H), by the host's own calls -/

def calls : List BusCall → State → Result
  | [], s => .next s
  | c :: rest, s => andThen (runCall c s) (calls rest)

def callsB : List BusCall := [.cs false, .waitNs 250, .cs true, .waitNs 250]

/-- VH1: a command while the device's cycle runs. -/
theorem test_vh1 :
    refusalOf (andThen (calls (callsB ++ [.xfer [0xA0, 0x28, 0x00, 0x10], .cs false, .waitNs 250]) enabled) (exec (.read 0x005 false)))
      = some .deviceBusy := by decide
theorem test_vh2 : refusalOf (calls [.cs false, .waitNs 100, .cs true] State.reset) = some .csHoldViolated := by decide
theorem test_vh3 : refusalOf (calls [.cs false, .waitNs 250, .cs true, .waitNs 100, .xfer [0x98, 0x00]] State.reset) = some .csSetupViolated := by decide
theorem test_vh4 :
    refusalOf (calls (callsB ++ [.xfer [0x98, 0x00], .xfer [0xA0, 0x86, 0xF5, 0x68], .cs false]) State.reset) = some .unknownTransaction := by decide
theorem test_vh5 : refusalOf (calls (callsB ++ [.xfer [0x98], .cs false]) State.reset) = some .unknownTransaction := by decide
theorem test_vh7 : refusalOf (calls (callsB ++ [.xfer [0xC0, 0x81], .recv 3, .cs false]) State.reset) = some .unknownTransaction := by decide
/-- VH8 and VH10: more bytes received in a READ transaction, and an empty transaction, end without a refusal. -/
theorem test_vh8_vh10 :
    isNext (calls (callsB ++ [.xfer [0xC0, 0x28], .recv 3, .recv 2, .cs false, .waitNs 250] ++ callsB ++ [.cs false]) State.reset) = true := by decide
/-- R275, R278 c: a second frame in the XFER of the READ frame itself. -/
theorem test_second_frame_in_one_transfer :
    refusalOf (calls (callsB ++ [.xfer [0xC0, 0x28, 0xC0, 0x30], .cs false]) State.reset) = some .unknownTransaction := by decide
/-- R64, R65: an XFER of fill bytes after a READ frame receives as a RECV does, in the same transfer or in another. -/
theorem test_fill_bytes_are_received_bytes :
    isNext (calls (callsB ++ [.xfer [0xC0, 0x28], .xfer [0, 0, 0], .cs false]) State.reset) = true
      ∧ isNext (calls (callsB ++ [.xfer [0xC0, 0x28, 0, 0, 0], .recv 1, .cs false]) State.reset) = true := by decide
/-- The host's calls with `CFG.RECV_FILL` set between them. -/
def callsAtFills : List (Byte × List BusCall) → State → Result
  | [], s => .next s
  | (fill, cs) :: rest, s => andThen (calls cs (s.setCfg { s.cfg with recvFill := fill })) (callsAtFills rest)

/-- R65, R278 c: bytes received at fills of which a READ or a WRITE_ENABLE frame can consist, before the host sets another fill, stay received bytes. -/
theorem test_fill_is_the_one_of_its_transfer :
    isNext (callsAtFills [(0xC0, callsB ++ [.xfer [0xC0, 0x28], .recv 3]), (0x00, [.recv 1, .cs false])] State.reset) = true
      ∧ isNext (callsAtFills [(0x98, callsB ++ [.xfer [0xC0, 0x28], .recv 3]), (0x00, [.recv 1, .cs false])] State.reset) = true := by decide
/-- R275: a frame sent stays one when the host then sets the fill to its bytes, and so does one of which half was sent before. -/
theorem test_sent_frame_stays_sent :
    refusalOf (callsAtFills [(0x00, callsB ++ [.xfer [0xC0, 0x28], .xfer [0xC0]]), (0xC0, [.xfer [0xC0], .cs false])] State.reset)
      = some .unknownTransaction := by decide
/-- VH11. -/
theorem test_vh11 :
    refusalOf (exec (.write 0x010 0xDEAD) { State.reset with cfg := { Cfg.standard with writeShift := 1 } }) = some .unknownTransaction := by decide

/-! ### Strings (VM5 to VM8) -/

theorem test_pack_text :
    packText [0x48, 0x69, 0x20, 0x4E, 0x43] = [0x4869, 0x204E, 0x4300] ∧ packText [0x41, 0x42, 0x43, 0x44] = [0x4142, 0x4344, 0x0000]
      ∧ packText [] = [0x0000] ∧ packText (([0x41, 0x00, 0x42] : List Byte).takeWhile (· ≠ 0x00)) = [0x4100] := by decide
/-- VM12 and VM13: room for the terminator only, and none at all. -/
theorem test_read_string_room :
    after (execReadString 0x011 1 State.reset) (fun t => (t.trace.length, t.textBuffer)) = some (0, [0x00])
      ∧ refusalOf (execReadString 0x011 0 State.reset) = some .noRoomForTerminator := by decide

/-! ### Interruptions -/

/-- R209: power lost after the first of three commands: one WRITE's eight events, and the latch cleared. -/
theorem test_macro_cut_by_power_loss :
    after (step { enabled with pending := [.bulkCutByPowerLoss (.writeBuffer 0x010 [1, 2, 3]) 1] })
      (fun t => (t.trace.map shape, t.wel, t.phase)) =
      some (groupB ++ [.xfer [0xA0, 0x80, 0x00, 0x08] []] ++ groupE ++ [.waitMs 7], false, .idle) := by decide
/-- R209: the second WRITE of a macro never returns: one WRITE's events and a BEGIN_TXN's, the block stuck at TX. -/
theorem test_macro_stuck_in_its_second_command :
    after (step { enabled with fatalIn := some 1, pending := [.bulk (.writeBuffer 0x010 [1, 2, 3])] })
      (fun t => (t.trace.map shape, t.phase, t.addr)) =
      some (groupB ++ [.xfer [0xA0, 0x80, 0x00, 0x08] []] ++ groupE ++ [.waitMs 7] ++ groupB, .tx, 0x011) := by decide
/-- R209, R277: and the word written before it stays. -/
theorem test_macro_stuck_keeps_the_words_written (t : State) (stuck : t.phase ≠ .idle)
    (h : macroWrite 0x011 2 { enabled with fatalIn := some 0, ee := [(0x20, 0xDE), (0x21, 0xAD)] } = .next t) :
    Memory.read t.ee 0x20 = 0xDE ∧ Memory.read t.ee 0x21 = 0xAD :=
  ⟨macroWrite_stuck h stuck (show ∀ a ∈ [0x011], _ by decide), macroWrite_stuck h stuck (show ∀ a ∈ [0x011], _ by decide)⟩
/-- R232: after its own call that never returned the host asks for nothing more until a reset of the block. -/
theorem test_host_call_never_returns :
    after (step { State.reset with
        fatalIn := some 0, pending := [.bus (.recv 1), .command .endTxn, .powerCycle, .blockReset Cfg.standard, .command .endTxn] })
      (fun t => (t.pending, t.trace)) = some ([.powerCycle, .blockReset Cfg.standard, .command .endTxn], []) := by decide

/-! ### The step and the table's words -/

theorem test_step_runs_table_words :
    isNext (step (State.reset.withFetchWord 16 0xC000)) = true ∧ isNext (step (State.reset.withFetchWord 16 0xE000)) = true
      ∧ isNext (step (State.reset.withFetchWord 32 0xA0000000)) = true ∧ isNext (step (State.reset.withFetchWord 16 0x9800)) = true
      ∧ isNext (step (State.reset.withFetchWord 16 0x8000)) = true := by decide

theorem test_reset_memory_wf : Memory.wf State.reset.ee := by decide

/-! ### Witnesses: for every statement with hypotheses, a state and operands that meet them all -/

/-- The configuration with one field changed. -/
def resetWith (cfg : Cfg) : State := { State.reset with cfg := cfg }

/-- The word 0xDEAD at 0x010. -/
def holding : State := { openWith (bitsOfBytes [0xC0, 0x80]) with ee := [(0x20, 0xDE), (0x21, 0xAD)] }

theorem reset_startable : Startable State.reset := ⟨rfl, rfl, by decide⟩
theorem reset_lineReady : LineReady State.reset := ⟨by decide, by decide, by decide, by decide⟩
theorem reset_ready : Ready State.reset := ⟨reset_startable, reset_lineReady, rfl⟩
theorem enabled_ready : Ready enabled := ⟨⟨rfl, rfl, by decide⟩, ⟨by decide, by decide, by decide, by decide⟩, rfl⟩
theorem reset_calibrated : Calibrated State.reset := ⟨rfl, rfl, by decide, by decide⟩
theorem enabled_calibrated : Calibrated enabled := ⟨rfl, rfl, by decide, by decide⟩
theorem open_fresh : Startable (openWith []) ∧ (openWith []).fatalIn = none ∧ FreshTransaction (openWith []) :=
  ⟨⟨rfl, rfl, by decide⟩, rfl, ⟨rfl, rfl, rfl, by decide⟩⟩

/-- The line is ready too with the device selected by an earlier, empty transaction (VS12), and with a cycle that the hold wait outlasts. -/
theorem stale_ready : Ready { openWith [] with busyNs := 250 } :=
  ⟨⟨rfl, rfl, by decide⟩, ⟨by decide, by decide, by decide, by decide⟩, rfl⟩

theorem witness_EncodedInstructionDecodesBack : WellFormed (.write 0x3FF 0xFFFF) = true ∧ WellFormed (.read 0x3FF true) = true := by decide

theorem witness_DecodedFrameEncodesBack : decode Opcodes.standard [0xFF, 0xF8] = .ok (.erase 0x3FF) := by decide

theorem witness_ShiftedWriteFrame :
    (0 ≤ 3 ∧ transactionOf Opcodes.standard (bitsOfBytes (encode Opcodes.standard 0 (.write 0x010 0xDEAD))) = none)
      ∧ (2 ≤ 3 ∧ transactionOf Opcodes.standard (bitsOfBytes (encode Opcodes.standard 2 (.write 0x3FF 0xFFFF))) = none)
      ∧ transactionOf Opcodes.standard (bitsOfBytes (encode Opcodes.standard 3 (.write 0x010 0xDEAD))) = some (.write 0x010 0xDEAD) := by decide

theorem witness_DistinctInstructionsHaveDistinctFrames :
    WellFormed (.read 5 true) = true ∧ WellFormed (.read 5 false) = true
      ∧ encode Opcodes.standard 3 (.read 5 true) = encode Opcodes.standard 3 (.read 5 false) := by decide

theorem witness_DecodeIgnoresDummyAndGarbageBits :
    ([0xAA, 0x55, 0x80] : List Byte).length = ([0x2A, 0x55, 0xFF] : List Byte).length ∧ 1 + 16 ≤ 8 * ([0xAA, 0x55, 0x80] : List Byte).length
      ∧ ((bitsOfBytes [0xAA, 0x55, 0x80]).drop 1).take 16 = ((bitsOfBytes [0x2A, 0x55, 0xFF]).drop 1).take 16 := by decide

theorem witness_DecodeRecoversTheWordTheDeviceSends :
    holding.sel = true ∧ holding.txs.length = 16 ∧ readAddress holding.opcodes holding.txs = some 0x010
      ∧ holding.dev.rxSkew + 16 ≤ 8 * ([0, 0, 0] : List Byte).length ∧ memRead holding.ee 0x010 = 0xDEAD := by decide

theorem witness_BitsAfterTheWordDoNotShowTheArray :
    16 + State.reset.dev.rxSkew + 16 ≤ (openWith (bitsOfBytes [0xC0, 0x80, 0, 0, 0])).txs.length := by decide

theorem witness_DeselectedTransferShowsOnlyDraws : State.reset.sel = false := rfl

/-- R133's frame of the last word with all ones, with the latch clear and set. -/
theorem witness_WriteTransactionAtTheDevice :
    let s := openWith (bitsOfBytes [0xBF, 0xFF, 0xFF, 0xF8])
    s.sel = true ∧ s.txs.length = 32 ∧ natOfBits s.txs / 2 ^ 29 = 0b101 ∧ natOfBits s.txs % 2 ^ 3 = 0 ∧ s.wel = false
      ∧ ({ s with wel := true } : State).wel = true := by decide

theorem witness_EraseAndLatchTransactionsAtTheDevice :
    (let s := openWith (bitsOfBytes [0xFF, 0xF8]);
      s.sel = true ∧ s.txs.length = 16 ∧ natOfBits s.txs / 2 ^ 13 = s.opcodes.erase.toNat ∧ natOfBits s.txs % 2 ^ 3 = 0)
    ∧ (let s := openWith (bitsOfBytes [0x98, 0x00]);
      s.sel = true ∧ s.txs.length = 16 ∧ natOfBits s.txs = s.opcodes.writeEnable.toNat * 2 ^ 11)
    ∧ (let s := openWith (bitsOfBytes [0x80, 0x00]);
      s.sel = true ∧ s.txs.length = 16 ∧ natOfBits s.txs = s.opcodes.writeDisable.toNat * 2 ^ 11) := by decide

theorem witness_BeginTxnOpensATransaction : Startable State.reset ∧ LineReady State.reset := ⟨reset_startable, reset_lineReady⟩

/-- No transaction open, and an empty one open. -/
theorem witness_EndTxnOfAnEmptyTransaction :
    (Startable State.reset ∧ (State.reset.sel = true → State.reset.txs = []))
      ∧ (Startable (openWith []) ∧ (openWith []).sel = true ∧ (openWith []).txs = []) :=
  ⟨⟨reset_startable, by decide⟩, open_fresh.1, rfl, rfl⟩

/-- With the receive offset the device's, and with another. -/
theorem witness_ReadReturnsTheAddressedWord :
    (Ready State.reset ∧ State.reset.cfg.rxAlignOffset = State.reset.dev.rxSkew)
      ∧ Ready (resetWith { Cfg.standard with rxAlignOffset := 8 }) :=
  ⟨⟨reset_ready, rfl⟩, ⟨rfl, rfl, by decide⟩, ⟨by decide, by decide, by decide, by decide⟩, rfl⟩

theorem witness_CallerFramedReadReturnsTheWord :
    Startable (openWith []) ∧ (openWith []).fatalIn = none ∧ FreshTransaction (openWith [])
      ∧ (openWith []).cfg.rxAlignOffset = (openWith []).dev.rxSkew :=
  ⟨open_fresh.1, rfl, open_fresh.2.2, rfl⟩

theorem witness_CallerFramedReadWithoutATransaction : Startable State.reset ∧ State.reset.fatalIn = none ∧ State.reset.sel = false :=
  ⟨reset_startable, rfl, rfl⟩

theorem witness_CallerFramedTraceEqualsSelfFramedTrace : Ready State.reset := reset_ready

/-- The latch clear and set. -/
theorem witness_WriteStoresTheWordIfTheLatchIsSet :
    (Ready State.reset ∧ State.reset.cfg.writeShift = 3 ∧ State.reset.wel = false) ∧ Ready enabled ∧ enabled.cfg.writeShift = 3 ∧ enabled.wel = true :=
  ⟨⟨reset_ready, rfl, rfl⟩, enabled_ready, rfl, rfl⟩

theorem witness_EraseSetsTheErasedWordIfTheLatchIsSet : (Ready State.reset ∧ State.reset.wel = false) ∧ Ready enabled ∧ enabled.wel = true :=
  ⟨⟨reset_ready, rfl⟩, enabled_ready, rfl⟩

theorem witness_WriteEnableSetsTheLatch : Ready State.reset ∧ Ready { openWith [] with busyNs := 250 } := ⟨reset_ready, stale_ready⟩
theorem witness_WriteDisableClearsTheLatch : Ready enabled := enabled_ready

/-- Self-framed and caller-framed. -/
theorem witness_ReadLeavesTheRest :
    (∃ t, exec (.read 0x3FF false) State.reset = .next t ∧ t.phase = .idle) ∧ ∃ t, exec (.read 0x3FF true) (openWith []) = .next t ∧ t.phase = .idle :=
  ⟨exists_idle (by decide), exists_idle (by decide)⟩

theorem witness_WriteLeavesTheRest :
    (∃ t, exec (.write 0x3FF 0xFFFF) State.reset = .next t ∧ t.phase = .idle) ∧ ∃ t, exec (.write 0x3FF 0xFFFF) enabled = .next t ∧ t.phase = .idle :=
  ⟨exists_idle (by decide), exists_idle (by decide)⟩

theorem witness_EraseLeavesTheRest :
    (∃ t, exec (.erase 0x3FF) State.reset = .next t ∧ t.phase = .idle) ∧ ∃ t, exec (.erase 0x3FF) enabled = .next t ∧ t.phase = .idle :=
  ⟨exists_idle (by decide), exists_idle (by decide)⟩

theorem witness_LatchCommandsLeaveTheRest :
    (∃ t, exec .writeEnable State.reset = .next t ∧ t.phase = .idle) ∧ ∃ t, exec .writeDisable State.reset = .next t ∧ t.phase = .idle :=
  ⟨exists_idle (by decide), exists_idle (by decide)⟩

/-- A frame's own commit by the next command's first deassert: a WRITE of word 5 stands in the open transaction, and the device has no cycle. -/
theorem witness_ReadAfterAnOpenWrite :
    (∃ t, exec (.read 0 false)
      { openWith (bitsOfBytes [0xA0, 0x28, 0x00, 0x10]) with wel := true, dev := { DevCfg.standard with tWcMs := 0 } } = .next t)
      ∧ State.transactionWord (openWith (bitsOfBytes [0xA0, 0x28, 0x00, 0x10])) = [5] :=
  ⟨exists_next (by decide), by decide⟩

theorem witness_OtherBitOrderIsRefused :
    let s := resetWith { Cfg.standard with bitOrder := .lsbFirst }
    s.phase = .idle ∧ s.cfg.bitOrder ≠ .msbFirst := by decide

/-- Each way to be illegal, at its boundary; and the legal values beside them. -/
theorem witness_IllegalConfigurationIsRefused :
    (let s := resetWith { Cfg.standard with writeShift := 4 };
      s.phase = .idle ∧ s.cfg.bitOrder = .msbFirst ∧ 3 < s.cfg.writeShift)
    ∧ (let s := resetWith { Cfg.standard with rxBytes := 1, rxAlignOffset := 0 };
      s.phase = .idle ∧ s.cfg.bitOrder = .msbFirst ∧ s.cfg.rxBytes ≠ 2 ∧ s.cfg.rxBytes ≠ 3)
    ∧ (let s := resetWith { Cfg.standard with rxBytes := 4 };
      s.phase = .idle ∧ s.cfg.bitOrder = .msbFirst ∧ s.cfg.rxBytes ≠ 2 ∧ s.cfg.rxBytes ≠ 3)
    ∧ (let s := resetWith { Cfg.standard with rxAlignOffset := 9 };
      s.phase = .idle ∧ s.cfg.bitOrder = .msbFirst ∧ 8 * s.cfg.rxBytes < s.cfg.rxAlignOffset + 16)
    ∧ (let s := resetWith { Cfg.standard with rxBytes := 2 };
      s.phase = .idle ∧ s.cfg.bitOrder = .msbFirst ∧ 8 * s.cfg.rxBytes < s.cfg.rxAlignOffset + 16)
    ∧ legalCfg { Cfg.standard with rxAlignOffset := 8, writeShift := 0 } = true
    ∧ legalCfg { Cfg.standard with rxBytes := 2, rxAlignOffset := 0 } = true := by decide

theorem witness_CommandInProgressRefusesAnother : ({ State.reset with phase := .tx } : State).phase ≠ .idle := by decide

theorem witness_ShiftedWriteIsUnknown :
    Ready (resetWith { Cfg.standard with writeShift := 2 }) ∧ (resetWith { Cfg.standard with writeShift := 2 }).cfg.writeShift ≠ 3 :=
  ⟨⟨⟨rfl, rfl, by decide⟩, ⟨by decide, by decide, by decide, by decide⟩, rfl⟩, by decide⟩

theorem witness_BusyDeviceIsRefused :
    let s : State := { State.reset with busyNs := 251 }
    Startable s ∧ (s.sel = true → s.txs = []) ∧ s.cfg.tCshNs < s.busyNs :=
  ⟨⟨rfl, rfl, by decide⟩, by decide, by decide⟩

/-- Each clause, one nanosecond short. -/
theorem witness_ShortWaitsAreRefused :
    (let s := resetWith { Cfg.standard with tCshNs := 249 };
      Startable s ∧ (s.sel = true → s.txs = []) ∧ s.busyNs ≤ s.cfg.tCshNs
        ∧ (if s.sel then 0 else s.idleNs) + s.cfg.tCshNs < s.dev.tCshNs)
    ∧ (let s := resetWith { Cfg.standard with tCssNs := 249 };
      Startable s ∧ (s.sel = true → s.txs = []) ∧ s.busyNs ≤ s.cfg.tCshNs
        ∧ s.dev.tCshNs ≤ (if s.sel then 0 else s.idleNs) + s.cfg.tCshNs ∧ s.cfg.tCssNs < s.dev.tCssNs ∧ s.fatalIn = none) :=
  ⟨⟨⟨rfl, rfl, by decide⟩, by decide, by decide, by decide⟩, ⟨rfl, rfl, by decide⟩, by decide, by decide, by decide, by decide, rfl⟩

/-- At the default fill, and at a fill of which a READ frame can consist. -/
theorem witness_SecondFrameInATransactionIsRefused :
    (Startable (openWith []) ∧ (openWith []).fatalIn = none ∧ FreshTransaction (openWith [])
      ∧ ∃ b ∈ encode (openWith []).opcodes (openWith []).cfg.writeShift (.read 0x018 true), b ≠ (openWith []).cfg.recvFill)
    ∧ (let s : State := { openWith [] with cfg := { Cfg.standard with recvFill := 0xC0 } };
      Startable s ∧ s.fatalIn = none ∧ FreshTransaction s ∧ s.secondFrame = false
        ∧ ∀ b ∈ encode s.opcodes s.cfg.writeShift (.read 0x018 true), b = s.cfg.recvFill) :=
  ⟨⟨open_fresh.1, rfl, open_fresh.2.2, by decide⟩, ⟨rfl, rfl, by decide⟩, rfl, ⟨rfl, rfl, rfl, by decide⟩, rfl, by decide⟩

/-- With more for the host to ask, and with nothing. -/
theorem witness_CommandStuckAtItsTransfer :
    (let s : State := { State.reset with fatalIn := some 0, pending := [.command .endTxn, .powerCycle] };
      Startable s ∧ LineReady s ∧ s.fatalIn = some 0 ∧ ∀ r rest, s.pending = r :: rest → fromOutside r = false)
    ∧ (let s : State := { State.reset with fatalIn := some 0 };
      Startable s ∧ LineReady s ∧ s.fatalIn = some 0 ∧ ∀ r rest, s.pending = r :: rest → fromOutside r = false) :=
  ⟨⟨⟨rfl, rfl, by decide⟩, ⟨by decide, by decide, by decide, by decide⟩, rfl, by rintro r rest h; cases h; rfl⟩,
    ⟨rfl, rfl, by decide⟩, ⟨by decide, by decide, by decide, by decide⟩, rfl, by rintro r rest h; cases h⟩

theorem witness_WriteThenReadReturnsTheWord : Ready enabled ∧ Calibrated enabled ∧ enabled.wel = true := ⟨enabled_ready, enabled_calibrated, rfl⟩
theorem witness_EraseThenReadReturnsTheErasedWord : Ready enabled ∧ Calibrated enabled ∧ enabled.wel = true :=
  ⟨enabled_ready, enabled_calibrated, rfl⟩

/-- P1's commands: enable, write, read back. -/
def commandsP1 : List Instr := [.writeEnable, .write 0x010 0xDEAD, .read 0x010 false]

theorem witness_SelfFramedCommandsMeetNoRefusal :
    let s : State := { State.reset with pending := commandsP1.map fun i => .command (.instr i.selfFramed) }
    Ready s ∧ Calibrated s ∧ s.pending = commandsP1.map (fun i => .command (.instr i.selfFramed)) :=
  ⟨⟨⟨rfl, rfl, by decide⟩, ⟨by decide, by decide, by decide, by decide⟩, rfl⟩, ⟨rfl, rfl, by decide, by decide⟩, rfl⟩

theorem witness_CommandsRefineTheArrayWithALatch :
    let s : State := { State.reset with pending := (commandsP1 ++ [Instr.read 0x010 false]).map fun i => .command (.instr i.selfFramed) }
    Ready s ∧ Calibrated s ∧ s.pending = (commandsP1 ++ [Instr.read 0x010 false]).map (fun i => .command (.instr i.selfFramed)) :=
  ⟨⟨⟨rfl, rfl, by decide⟩, ⟨by decide, by decide, by decide, by decide⟩, rfl⟩, ⟨rfl, rfl, by decide, by decide⟩, rfl⟩

theorem witness_OnlyTheLatchCommandsMoveTheLatch :
    ((State.reset.sel = true → State.reset.txs = []) ∧ ∃ t, runCommand (.instr .writeEnable) State.reset = .next t ∧ t.phase = .idle)
      ∧ (enabled.sel = true → enabled.txs = []) ∧ ∃ t, runCommand (.instr .writeDisable) enabled = .next t ∧ t.phase = .idle :=
  ⟨⟨by decide, exists_idle (by decide)⟩, by decide, exists_idle (by decide)⟩

theorem witness_StepRunsTheDecodedInstruction : decodeTableWord 32 0xBFFFFFF8 = some (.write 0x3FF 0xFFFF) := by decide

/-- An idle block, a command in progress, and no request. -/
theorem witness_StepServesTheNextCommand :
    (let s : State := { State.reset with pending := [.command .beginTxn, .command .endTxn] };
      s.pending = .command .beginTxn :: [.command .endTxn] ∧ s.phase = .idle)
    ∧ (let s : State := { State.reset with phase := .rx, pending := [.command .beginTxn] };
      s.pending = .command .beginTxn :: [] ∧ s.phase ≠ .idle) := by decide

theorem witness_StepSetsTheConfiguration :
    let s : State := { State.reset with pending := [.configure Cfg.standard] }
    s.pending = .configure Cfg.standard :: [] ∧ s.phase = .idle := by decide

theorem witness_StepsOnlyAppendToTheTrace :
    let s : State := { State.reset with pending := [.command (.instr .writeEnable)] }
    (∃ t, step s = .next t) ∧ ∀ cfg rest, s.pending ≠ .blockReset cfg :: rest :=
  ⟨exists_next (by decide), by simp⟩

theorem witness_BlockResetChangesNothingInTheDevice :
    let s : State := { enabled with pending := [.blockReset Cfg.standard] }
    s.pending = .blockReset Cfg.standard :: [] ∧ s.phase = .idle := by decide

/-- Between commands, and with a WRITE of word 5 stuck, a cycle of word 6 running and an ERASE of word 0x3FF open. -/
theorem witness_PowerCycleClearsTheLatchAndKeepsTheArray :
    (let s : State := { enabled with pending := [.powerCycle] };
      s.pending = .powerCycle :: [] ∧ s.commandWord ++ s.cycleWord ++ s.transactionWord = [])
    ∧ (let s : State :=
        { openWith (bitsOfBytes [0xFF, 0xF8]) with pending := [.powerCycle], phase := .tx, op := .write, addr := 5, busyNs := 1, cycleAddr := 6 };
      s.pending = .powerCycle :: [] ∧ s.commandWord ++ s.cycleWord ++ s.transactionWord = [5, 6, 0x3FF]) := by decide

theorem reset_invariant : Invariant State.reset := ⟨by decide, by decide, by decide, by decide, by decide, by decide, by decide, by decide⟩

theorem witness_EveryStepKeepsTheInvariant :
    let s : State := { State.reset with pending := [.command (.instr (.write 0x3FF 0xFFFF))] }
    Invariant s ∧ ∃ t, step s = .next t :=
  ⟨⟨by decide, by decide, by decide, by decide, by decide, by decide, by decide, by decide⟩, exists_next (by decide)⟩

/-- The longest buffer. -/
theorem witness_WriteBufferWritesEveryWord :
    Ready enabled ∧ Calibrated enabled ∧ enabled.wel = true ∧ (List.replicate 1024 (0 : Word)).length ≤ 1024 :=
  ⟨enabled_ready, enabled_calibrated, rfl, List.length_replicate.le⟩

theorem witness_ReadRangeReturnsTheWords : Ready State.reset ∧ Calibrated State.reset := ⟨reset_ready, reset_calibrated⟩

theorem witness_CopyOutThenCopyInRestoresTheArray : Ready enabled ∧ Calibrated enabled ∧ enabled.wel = true :=
  ⟨enabled_ready, enabled_calibrated, rfl⟩

/-- "Hi NC" with just the room it needs, and the empty text. -/
theorem witness_ReadStringReturnsWhatWriteStringWrote :
    (Ready enabled ∧ Calibrated enabled ∧ enabled.wel = true)
      ∧ ((∀ c ∈ ([0x48, 0x69, 0x20, 0x4E, 0x43] : List Byte), c ≠ 0x00) ∧ ([0x48, 0x69, 0x20, 0x4E, 0x43] : List Byte).length < 2048
        ∧ ([0x48, 0x69, 0x20, 0x4E, 0x43] : List Byte).length < 6)
      ∧ (∀ c ∈ ([] : List Byte), c ≠ 0x00) ∧ ([] : List Byte).length < 2048 ∧ ([] : List Byte).length < 1 :=
  ⟨⟨enabled_ready, enabled_calibrated, rfl⟩, by decide, by decide, by decide, by decide⟩

theorem witness_ReadStringNeverOverrunsItsBuffer : Ready State.reset ∧ Calibrated State.reset ∧ 0 < 1 := ⟨reset_ready, reset_calibrated, by decide⟩

end Sys2Proof.Tests
end

/-! # Scope (00_scope.md): a step runs the decoded instruction, and only a reset of the block takes anything out of the trace -/

namespace Sys2Proof.Machine

/-! ### One step, by the request it serves -/

/-- A table word that decodes is placed as the next request of a block that waits for it. -/
theorem withFetchWord_of_decode {s : State} {nbits w : Nat} {i : Instr} (h : decodeTableWord nbits w = some i) :
    s.withFetchWord nbits w = (s.setPending (.command (.instr i) :: s.pending)).setPhase .idle := by
  rw [State.withFetchWord, h]

/-- A step that answers a next state waited, or carried out the next request. -/
theorem step_next {s t : State} (h : step s = .next t) :
    t = s ∨ ∃ r rest, s.pending = r :: rest ∧ runRequest r (s.setPending rest) = .next t := by
  cases hp : s.pending with
  | nil => exact .inl (Host.Outcome.next.inj ((step_of_nil hp).symm.trans h)).symm
  | cons r rest =>
    cases hc : s.canServe r with
    | true => exact .inr ⟨r, rest, rfl, (step_serves hp hc).symm.trans h⟩
    | false => exact .inl (Host.Outcome.next.inj ((step_waits hp hc).symm.trans h)).symm

/-! ### What every command of the bulk operations keeps, they keep (R200, R209) -/

/-- A bulk operation goes on where its command returned, and stops where it never does. -/
theorem whenReturned_next {r : Result} {k : State → Result} {t : State} (h : whenReturned r k = .next t) :
    ∃ u, r = .next u ∧ (k u = .next t ∨ t = u) := by
  obtain ⟨u, hu, ht⟩ := andThen_eq_next h
  split_ifs at ht
  · exact ⟨u, hu, .inl ht⟩
  · exact ⟨u, hu, .inr (Host.Outcome.next.inj ht).symm⟩

/-- `P` is kept by the commands of the bulk operations and does not read the host's buffers. -/
structure KeptInMacros (P : State → Prop) : Prop where
  write : ∀ {addr data s t}, P s → macroWrite addr data s = .next t → P t
  read : ∀ {addr s t}, P s → macroRead addr s = .next t → P t
  words : ∀ {s} ws, P s → P (s.setHostWords ws)
  text : ∀ {s} cs, P s → P (s.setHostText cs)

section
variable {P : State → Prop} (kept : KeptInMacros P)
include kept

theorem KeptInMacros.of_writeWords {words : List Word} {start : Nat} {s t : State} (hs : P s) (h : writeWords start words s = .next t) : P t := by
  induction words generalizing start s with
  | nil => obtain rfl := Host.Outcome.next.inj h; exact hs
  | cons w rest ih =>
    obtain ⟨u, hu, h | rfl⟩ := whenReturned_next h
    · exact ih (kept.write hs hu) h
    · exact kept.write hs hu

theorem KeptInMacros.of_readWords {count start : Nat} {s t : State} (hs : P s) (h : readWords start count s = .next t) : P t := by
  induction count generalizing start s with
  | zero => obtain rfl := Host.Outcome.next.inj h; exact hs
  | succ count ih =>
    obtain ⟨u, hu, h | rfl⟩ := whenReturned_next h
    · exact ih (kept.words _ (kept.read hs hu)) h
    · exact kept.read hs hu

theorem KeptInMacros.of_readChars {room start : Nat} {s t : State} (hs : P s) (h : readChars start room s = .next t) : P t := by
  induction room using Nat.twoStepInduction generalizing start s with
  | zero => obtain rfl := Host.Outcome.next.inj h; exact hs
  | one =>
    obtain ⟨u, hu, h | rfl⟩ := whenReturned_next h
    · have hP := kept.read hs hu
      dsimp only at h
      split_ifs at h <;> obtain rfl := Host.Outcome.next.inj h
      · exact hP
      · exact kept.text _ hP
    · exact kept.read hs hu
  | more room ih _ =>
    obtain ⟨u, hu, h | rfl⟩ := whenReturned_next h
    · have hP := kept.read hs hu
      dsimp only at h
      split_ifs at h
      · obtain rfl := Host.Outcome.next.inj h; exact hP
      · obtain rfl := Host.Outcome.next.inj h; exact kept.text _ hP
      · exact ih (kept.text _ hP) h
    · exact kept.read hs hu

/-- A bulk operation run to its end. -/
theorem KeptInMacros.of_runMacro {m : Macro} {s t : State} (hs : P s) (h : runMacro m s = .next t) : P t := by
  cases m with
  | writeBuffer start words => exact kept.of_writeWords hs h
  | readRange start count => exact kept.of_readWords (kept.words _ hs) h
  | copyOut => exact kept.of_readWords (kept.words _ hs) h
  | copyIn buffer => exact kept.of_writeWords hs h
  | writeString start text => exact kept.of_writeWords hs h
  | readString start maxLength =>
    rw [runMacro, execReadString] at h
    split_ifs at h
    exact kept.of_readChars (kept.text _ hs) h

/-- The part of a bulk operation before a power loss. -/
theorem KeptInMacros.of_runMacroPart {m : Macro} {n : Nat} {s t : State} (hs : P s) (h : runMacroPart n m s = .next t) : P t := by
  cases m with
  | writeBuffer start words => exact kept.of_writeWords hs h
  | readRange start count => exact kept.of_readWords (kept.words _ hs) h
  | copyOut => exact kept.of_readWords (kept.words _ hs) h
  | copyIn buffer => exact kept.of_writeWords hs h
  | writeString start text => exact kept.of_writeWords hs h
  | readString start maxLength =>
    rw [runMacroPart] at h
    split_ifs at h
    exact kept.of_readChars (kept.text _ hs) h

end

/-! ### What each operation does to the trace (R13) -/

theorem endTransaction_trace {s t : State} (h : endTransaction s = .next t) : t.trace = s.trace := by
  rcases endTransaction_next h with rfl | ⟨rfl, _⟩ | ⟨rfl, _⟩ | ⟨a, d, w, ms, rfl, _⟩ <;> rfl

theorem callCs_trace {asserted : Bool} {s t : State} (h : callCs asserted s = .next t) : t.trace = s.trace ++ [.cs asserted] := by
  obtain ⟨u, hu, rfl⟩ := andThen_next_next h
  suffices u.trace = s.trace by rw [record_trace, this]
  cases asserted with
  | true => obtain ⟨rfl, _⟩ | ⟨rfl, _⟩ := deviceRise_next hu <;> rfl
  | false =>
    obtain ⟨rfl, _⟩ | ⟨_, v, hv, rfl⟩ := deviceFall_next hu
    · rfl
    · rw [deselect_trace, endTransaction_trace hv]

theorem callXfer_trace {tx : List Byte} {s t : State} (h : callXfer tx s = .next t) :
    t.trace = s.trace ++ [.xfer tx (s.received tx)] := by
  obtain ⟨_, rfl⟩ := callXfer_next h
  rfl

theorem callRecv_trace {n : Nat} {s t : State} (h : callRecv n s = .next t) :
    t.trace = s.trace ++ [.recv n (s.received (s.fillBytes n))] := by
  obtain ⟨_, rfl⟩ := callRecv_next h
  rfl

theorem emitCs_trace {asserted : Bool} {s t : State} (h : emitCs asserted s = .next t) : t.trace = s.trace ++ [.cs asserted] := by
  obtain ⟨u, hu, rfl⟩ := andThen_next_next h
  rw [driveCs_trace, callCs_trace hu]

theorem powerCycleDevice_trace (s : State) : (powerCycleDevice s).trace = s.trace := rfl

/-! ### The trace before is how the trace after begins (R13, R177) -/

/-- A trace with one more call. -/
theorem trace_prefix_of_call {s t : State} {e : Event} (h : t.trace = s.trace ++ [e]) : s.trace <+: t.trace :=
  h ▸ List.prefix_append _ _

theorem wait_trace_prefix {s t : State} {n : Nat} {e : Event} (h : Host.Outcome.next ((s.elapse n).record e) = (.next t : Result)) :
    s.trace <+: t.trace := by
  obtain rfl := Host.Outcome.next.inj h
  exact List.prefix_append _ _

/-- Every step of R178 appends the call it makes, if it makes one. -/
theorem act_trace_prefix {p : Phase} {s t : State} (h : act p s = .next t) : s.trace <+: t.trace := by
  cases p with
  | idle => obtain rfl := Host.Outcome.next.inj h; exact List.prefix_rfl
  | b1 => exact trace_prefix_of_call (emitCs_trace h)
  | b3 => exact trace_prefix_of_call (emitCs_trace h)
  | e1 => exact trace_prefix_of_call (emitCs_trace h)
  | b2 => exact wait_trace_prefix h
  | b4 => exact wait_trace_prefix h
  | e2 => exact wait_trace_prefix h
  | wc => exact wait_trace_prefix h
  | ec => exact wait_trace_prefix h
  | enc => obtain rfl | ⟨i, _, rfl⟩ := act_enc_next h <;> exact List.prefix_rfl
  | tx => exact trace_prefix_of_call (callXfer_trace h)
  | rx =>
    obtain ⟨u, hu, rfl⟩ := act_rx_next h
    exact trace_prefix_of_call (t := u) (callRecv_trace hu)
  | dec => obtain ⟨w, rfl⟩ := act_dec_next h; exact List.prefix_rfl

/-- The steps of a command, whether they come to their end or are stuck at a transfer. -/
theorem runSteps_trace_prefix {steps : List Phase} {s t : State} (h : runSteps steps s = .next t) : s.trace <+: t.trace :=
  runSteps_induction (P := fun u => s.trace <+: u.trace) (fun _ _ hu => hu) (fun _ _ _ hu => hu) steps
    (fun _ _ _ _ hu hv => hu.trans (act_trace_prefix hv)) List.prefix_rfl h

theorem startSteps_trace_prefix {steps : List Phase} {latch : State → State} {s t : State} (h : startSteps steps latch s = .next t) :
    (latch s).trace <+: t.trace :=
  runSteps_trace_prefix (startSteps_next h).2

theorem startCommand_trace_prefix {steps : List Phase} {latch : State → State} {s t : State}
    (h : startCommand steps latch s = .next t) : (latch s).trace <+: t.trace := by
  obtain ⟨_, u, hu, ⟨_, rfl⟩ | ⟨_, rfl⟩⟩ := startCommand_next h
  · exact runSteps_trace_prefix hu
  · rw [freeDevice_trace]
    exact runSteps_trace_prefix hu

theorem commandLatch_trace (c : Command) (s : State) : (commandLatch c s).trace = s.trace := by
  obtain ⟨_, _, _, _, _, _, _, h, _⟩ := commandLatch_kept c s
  exact h

theorem runCommand_trace_prefix {c : Command} {s t : State} (h : runCommand c s = .next t) : s.trace <+: t.trace := by
  rw [runCommand_eq] at h
  exact commandLatch_trace c s ▸ startCommand_trace_prefix h

/-- A call of the host appends itself if it returns; one that never returns is not traced (log 22). -/
theorem runCall_trace_prefix {c : BusCall} {s t : State} (h : runCall c s = .next t) : s.trace <+: t.trace := by
  rw [runCall] at h
  split_ifs at h
  · obtain rfl := Host.Outcome.next.inj h; exact List.prefix_rfl
  cases c with
  | cs asserted => exact trace_prefix_of_call (callCs_trace h)
  | waitNs n => exact wait_trace_prefix h
  | waitMs n => exact wait_trace_prefix h
  | xfer tx =>
    rw [runReturningCall] at h
    split_ifs at h
    exact trace_prefix_of_call (callXfer_trace h)
  | recv n =>
    rw [runReturningCall] at h
    split_ifs at h
    exact trace_prefix_of_call (callRecv_trace h)

/-- That the trace begins with given calls is kept by every bulk operation. -/
theorem keptInMacros_trace_prefix (before : List Event) : KeptInMacros fun t => before <+: t.trace where
  write hs h := hs.trans (startSteps_trace_prefix h)
  read hs h := hs.trans (startSteps_trace_prefix h)
  words _ hs := hs
  text _ hs := hs

theorem runCutMacro_trace_prefix {m : Macro} {n : Nat} {s t : State} (h : runCutMacro m n s = .next t) : s.trace <+: t.trace := by
  obtain ⟨u, hu, rfl⟩ := andThen_next_next h
  rw [powerCycleDevice_trace]
  exact (keptInMacros_trace_prefix s.trace).of_runMacroPart List.prefix_rfl hu

/-- Every request but a reset of the block. -/
theorem runRequest_trace_prefix {r : Request} {s t : State} (h : runRequest r s = .next t) (noReset : ∀ cfg, r ≠ .blockReset cfg) :
    s.trace <+: t.trace := by
  cases r with
  | command c => exact runCommand_trace_prefix h
  | configure cfg => obtain rfl := Host.Outcome.next.inj h; exact List.prefix_rfl
  | bus c => exact runCall_trace_prefix h
  | bulk m => exact (keptInMacros_trace_prefix s.trace).of_runMacro List.prefix_rfl h
  | bulkCutByPowerLoss m n => exact runCutMacro_trace_prefix h
  | seqRead start count => cases h
  | blockReset cfg => exact absurd rfl (noReset cfg)
  | powerCycle =>
    obtain rfl := Host.Outcome.next.inj h
    rw [powerCycleDevice_trace]

end Sys2Proof.Machine

section
open Sys2Proof Sys2Proof.Machine

/-- Settles O48: a step waits, or carries out a request, and every request but a reset of the block only appends to the trace. -/
theorem stepsOnlyAppendToTheTrace : Obligations.StepsOnlyAppendToTheTrace := by
  intro s t h noReset
  suffices s.trace <+: t.trace from this.imp fun _ => Eq.symm
  obtain rfl | ⟨r, rest, hp, hr⟩ := step_next h
  · exact List.prefix_rfl
  · exact runRequest_trace_prefix (s := s.setPending rest) hr fun cfg hc => noReset cfg rest (hc ▸ hp)

/-- Settles O45: the placed instruction is the next request, and the block, idle, may serve it. -/
theorem stepRunsTheDecodedInstruction : Obligations.StepRunsTheDecodedInstruction := by
  intro s nbits w i h
  rw [withFetchWord_of_decode h, step_serves (r := .command (.instr i)) (rest := s.pending) rfl (by simp [canServe_command])]
  rfl

end

/-! # State (10_state.md): what reset leaves, which commands are refused before their first step, and what every step keeps -/

namespace Sys2Proof.Machine

/-! ### Refusals before the first step (R26, R33) -/

/-- The illegal configurations of R33. -/
theorem legalCfg_eq_false_iff (c : Cfg) :
    legalCfg c = false ↔ 3 < c.writeShift ∨ (c.rxBytes ≠ 2 ∧ c.rxBytes ≠ 3) ∨ 8 * c.rxBytes < c.rxAlignOffset + 16 := by
  simp only [legalCfg, Bool.and_eq_false_iff, Bool.or_eq_false_iff, decide_eq_false_iff_not, Nat.not_le, or_assoc]

/-- A legal configuration receives two or three bytes (R33). -/
theorem rxBytes_of_legalCfg {c : Cfg} (h : legalCfg c = true) : c.rxBytes = 2 ∨ c.rxBytes = 3 := by
  simp only [legalCfg, Bool.and_eq_true, Bool.or_eq_true, decide_eq_true_eq] at h
  exact h.1.2

/-- No command starts while another is in progress (R26). -/
theorem runCommand_busy (c : Command) {s : State} (busy : s.phase ≠ .idle) : runCommand c s = .refused .busyBlock := by
  rw [runCommand_eq, startCommand, startSteps, if_pos busy, forgetIfStuck_refused]

/-- No command starts under an illegal configuration (R33). -/
theorem runCommand_badConfig (c : Command) {s : State} (idle : s.phase = .idle) (order : s.cfg.bitOrder = .msbFirst)
    (illegal : legalCfg s.cfg = false) : runCommand c s = .refused .badConfig := by
  rw [runCommand_eq, startCommand, startSteps, if_neg (not_not.2 idle), if_neg (not_not.2 order), if_neg (by simp [illegal]),
    forgetIfStuck_refused]

/-! ### The invariant within a command -/

/-- The clauses of `Invariant` but the one on PHASE: they hold also between two steps of R178. -/
structure RegisterInvariant (s : State) : Prop where
  memory : Memory.wf s.ee
  deselected : s.sel = false → s.txs = [] ∧ s.secondFrame = false ∧ s.sentMarks = []
  wholeBytes : s.fatalIn ≠ some 0 → s.txs.length % 8 = 0
  marks : s.fatalIn ≠ some 0 → s.txs.length = 8 * s.sentMarks.length
  txlen : s.txlen = 2 ∨ s.txlen = 4
  rxlen : s.rxbuf.length = 2 ∨ s.rxbuf.length = 3
  second : s.secondFrame = true → 32 ≤ s.txs.length

theorem Invariant.registers {s : State} (h : Invariant s) : RegisterInvariant s := { h with }

/-- PHASE is as between two steps of the machine: IDLE, or at a transfer that never returned (R26, R232). -/
def RestingPhase (s : State) : Prop := s.phase = .idle ∨ ((s.phase = .tx ∨ s.phase = .rx) ∧ s.fatalIn = some 0)

theorem RegisterInvariant.resting {s : State} (h : RegisterInvariant s) (phase : RestingPhase s) : Invariant s := { h with phase }

/-! ### Events of the device keep it (R64) -/

/-- With nothing clocked in, only the array matters. -/
theorem RegisterInvariant.emptied {s t : State} (h : RegisterInvariant s) (memory : Memory.wf t.ee) (txs : t.txs = [])
    (second : t.secondFrame = false) (marks : t.sentMarks = []) (txlen : t.txlen = s.txlen) (rxbuf : t.rxbuf = s.rxbuf) :
    RegisterInvariant t where
  memory := memory
  deselected _ := ⟨txs, second, marks⟩
  wholeBytes _ := by rw [txs]; rfl
  marks _ := by rw [txs, marks]; rfl
  txlen := txlen ▸ h.txlen
  rxlen := rxbuf ▸ h.rxlen
  second h2 := by rw [second] at h2; cases h2

theorem RegisterInvariant.deviceRise {s t : State} (h : RegisterInvariant s) (hr : deviceRise s = .next t) : RegisterInvariant t := by
  obtain ⟨rfl, _⟩ | ⟨rfl, _⟩ := deviceRise_next hr
  · exact h
  · exact h.emptied h.memory rfl rfl rfl rfl rfl

theorem RegisterInvariant.deviceFall {s t : State} (h : RegisterInvariant s) (hf : deviceFall s = .next t) : RegisterInvariant t := by
  obtain ⟨rfl, _⟩ | ⟨_, u, hu, rfl⟩ := deviceFall_next hf
  · exact h
  · obtain ⟨_, _, _, rxbuf, _, txlen, _⟩ := endTransaction_kept hu
    exact h.emptied ((endTransaction_ee hu).2.1 h.memory) rfl rfl rfl txlen rxbuf

theorem RegisterInvariant.clockIn {s : State} (h : RegisterInvariant s) (tx : List Byte) : RegisterInvariant (s.clockIn tx) := by
  have second := clockIn_second tx (fun hs => (h.deselected hs).2.1) h.second
  cases hs : s.sel with
  | true =>
    refine { h with second, deselected := ?_, wholeBytes := fun hf => ?_, marks := fun hf => ?_ }
    · simp [hs]
    · have := h.wholeBytes hf
      simp [hs]; omega
    · have := h.marks hf
      simp [hs]; omega
  | false =>
    obtain ⟨txs, no_second, marks⟩ := h.deselected hs
    exact h.emptied h.memory (by simp [hs, txs]) (by simp [hs, no_second]) (by simp [hs, marks]) rfl rfl

/-- Once no more transfers return, none ever does (R232). -/
theorem countTransfer_fatalIn_zero {s : State} (h : s.fatalIn = some 0) : s.countTransfer.fatalIn = some 0 := by simp [h]

theorem RegisterInvariant.deviceTransfer {tx : List Byte} {s t : State} (h : RegisterInvariant s) (ht : deviceTransfer tx s = .next t) :
    RegisterInvariant t := by
  obtain ⟨_, rfl⟩ := deviceTransfer_next ht
  have hc := h.clockIn tx
  exact { hc with
    wholeBytes := fun hf => hc.wholeBytes (mt countTransfer_fatalIn_zero hf)
    marks := fun hf => hc.marks (mt countTransfer_fatalIn_zero hf) }

/-- A device of which nothing is known but R37 and that two frames are at least 32 bits, after a transfer that never returned (R232). -/
theorem RegisterInvariant.stuck {s t : State} (h : RegisterInvariant s) (fatal : t.fatalIn = some 0) (memory : Memory.wf t.ee)
    (deselected : t.sel = false → t.txs = [] ∧ t.sentMarks = []) (second : t.secondFrame = true → 32 ≤ t.txs.length)
    (txlen : t.txlen = s.txlen) (rxbuf : t.rxbuf = s.rxbuf) : RegisterInvariant t where
  memory := memory
  deselected hs := by
    obtain ⟨txs, marks⟩ := deselected hs
    exact ⟨txs, Bool.eq_false_iff.2 fun h2 => by simpa [txs] using second h2, marks⟩
  wholeBytes hf := absurd fatal hf
  marks hf := absurd fatal hf
  txlen := txlen ▸ h.txlen
  rxlen := rxbuf ▸ h.rxlen
  second := second

theorem RegisterInvariant.hang {s : State} (h : RegisterInvariant s) (bits : List Bool) (fatal : s.fatalIn = some 0) :
    RegisterInvariant (s.hang bits) := by
  refine h.stuck fatal ((hang_array s bits).2 h.memory) (fun hs => ?_) (fun h2 => ?_) rfl rfl
  · rw [hang_txs, hang_sentMarks, hs]; exact ⟨rfl, rfl⟩
  · rw [hang_secondFrame, Bool.and_eq_true, decide_eq_true_eq] at h2
    exact h2.2

theorem RegisterInvariant.freeDevice {s : State} (h : RegisterInvariant s) (fatal : s.fatalIn = some 0) :
    RegisterInvariant s.freeDevice := by
  refine h.stuck fatal (freeArray_wf _ _) (fun hs => ?_) (fun h2 => ?_) rfl rfl
  · rw [freeDevice_sel] at hs
    rw [freeDevice_txs, freeDevice_sentMarks, hs]; exact ⟨rfl, rfl⟩
  · rw [freeDevice_secondFrame, Bool.and_eq_true, decide_eq_true_eq] at h2
    exact h2.2

/-! ### Calls of a primitive keep it (R13) -/

theorem RegisterInvariant.callCs {asserted : Bool} {s t : State} (h : RegisterInvariant s) (hc : callCs asserted s = .next t) :
    RegisterInvariant t := by
  obtain ⟨u, hu, rfl⟩ := andThen_next_next hc
  cases asserted with
  | true => exact { h.deviceRise hu with }
  | false => exact { h.deviceFall hu with }

theorem RegisterInvariant.wait {s : State} (h : RegisterInvariant s) (n : Nat) (e : Event) :
    RegisterInvariant ((s.elapse n).record e) := { h with }

theorem RegisterInvariant.callXfer {tx : List Byte} {s t : State} (h : RegisterInvariant s) (hx : callXfer tx s = .next t) :
    RegisterInvariant t := by
  obtain ⟨u, hu, rfl⟩ := andThen_next_next hx
  exact { h.deviceTransfer hu with }

theorem RegisterInvariant.callRecv {n : Nat} {s t : State} (h : RegisterInvariant s) (hr : callRecv n s = .next t) :
    RegisterInvariant t := by
  obtain ⟨u, hu, rfl⟩ := andThen_next_next hr
  exact { h.deviceTransfer hu with }

/-! ### The steps of a command keep it (R178) -/

/-- A frame is two bytes or four (R80, R137). -/
theorem encode_length_eq (ops : Opcodes) (shift : Nat) (i : Instr) : (encode ops shift i).length = 2 ∨ (encode ops shift i).length = 4 := by
  cases i <;> simp [encode]

theorem RegisterInvariant.emitCs {asserted : Bool} {s t : State} (h : RegisterInvariant s) (he : emitCs asserted s = .next t) :
    RegisterInvariant t := by
  obtain ⟨u, hu, rfl⟩ := andThen_next_next he
  exact { h.callCs hu with }

theorem RegisterInvariant.act {p : Phase} {s t : State} (h : RegisterInvariant s) (legal : s.cfg.rxBytes = 2 ∨ s.cfg.rxBytes = 3)
    (ha : act p s = .next t) : RegisterInvariant t := by
  cases p with
  | idle => obtain rfl := Host.Outcome.next.inj ha; exact h
  | b1 | b3 | e1 => exact h.emitCs ha
  | b2 | b4 | e2 | wc | ec => obtain rfl := Host.Outcome.next.inj ha; exact h.wait _ _
  | enc =>
    obtain rfl | ⟨i, _, rfl⟩ := act_enc_next ha
    · exact h
    · exact { h with txlen := encode_length_eq _ _ i }
  | tx => exact h.callXfer ha
  | rx =>
    obtain ⟨u, hu, rfl⟩ := act_rx_next ha
    exact { h.callRecv hu with rxlen := by simpa using legal }
  | dec => obtain ⟨w, rfl⟩ := act_dec_next ha; exact { h with }

/-- The steps of a command, run to their end or to a transfer that never returns, end in the invariant. -/
theorem RegisterInvariant.runSteps {steps : List Phase} {s t : State} (h : RegisterInvariant s)
    (legal : s.cfg.rxBytes = 2 ∨ s.cfg.rxBytes = 3) (hr : runSteps steps s = .next t) : Invariant t := by
  induction steps generalizing s with
  | nil =>
    rw [Machine.runSteps] at hr
    obtain rfl := Host.Outcome.next.inj hr
    exact { h with phase := .inl rfl }
  | cons p rest ih =>
    have hp : RegisterInvariant (s.setPhase p) := { h with }
    obtain ⟨hn, rfl⟩ | ⟨u, hu, hr⟩ := runSteps_next hr
    · obtain ⟨transfer, fatal⟩ := neverReturns_eq_true hn
      exact (hp.hang _ fatal).resting (.inr ⟨transfer, fatal⟩)
    · exact ih (hp.act legal hu) (by rw [(act_kept hu).kept.cfg]; exact legal) hr

/-! ### Requests keep the invariant -/

theorem RegisterInvariant.commandLatch {s : State} (h : RegisterInvariant s) (c : Command) : RegisterInvariant (commandLatch c s) := by
  rcases c with _ | _ | i
  · exact { h with }
  · exact { h with }
  · cases i <;> exact { h with }

theorem Invariant.startSteps {c : Command} {s t : State} (h : Invariant s)
    (hc : startSteps (commandSteps c) (commandLatch c) s = .next t) : Invariant t := by
  obtain ⟨startable, hr⟩ := startSteps_next hc
  obtain ⟨_, _, _, _, _, _, cfg, _⟩ := commandLatch_kept c s
  exact (h.registers.commandLatch c).runSteps (by rw [cfg]; exact rxBytes_of_legalCfg startable.legal) hr

/-- Of the device nothing is known once a transfer has not returned (R232). -/
theorem Invariant.freeDevice {s : State} (h : Invariant s) (fatal : s.fatalIn = some 0) : Invariant s.freeDevice :=
  (h.registers.freeDevice fatal).resting h.phase

theorem Invariant.runCommand {c : Command} {s t : State} (h : Invariant s) (hc : runCommand c s = .next t) : Invariant t := by
  rw [runCommand_eq] at hc
  obtain ⟨u, hu, ht⟩ := andThen_eq_next hc
  have hI := h.startSteps hu
  split_ifs at ht with hp
  · exact Host.Outcome.next.inj ht ▸ hI
  · exact Host.Outcome.next.inj ht ▸ hI.freeDevice (hI.phase.resolve_left hp).2

theorem keptInMacros_invariant : KeptInMacros Invariant where
  write {addr data _ _} hs h := hs.startSteps (c := .instr (.write addr data)) h
  read {addr _ _} hs h := hs.startSteps (c := .instr (.read addr false)) h
  words _ hs := { hs with }
  text _ hs := { hs with }

/-- An event of chip-select leaves PHASE and what transfers still return. -/
theorem callCs_phase {asserted : Bool} {s t : State} (h : callCs asserted s = .next t) : t.phase = s.phase ∧ t.fatalIn = s.fatalIn := by
  obtain ⟨u, hu, rfl⟩ := andThen_next_next h
  cases asserted with
  | true => obtain ⟨rfl, _⟩ | ⟨rfl, _⟩ := deviceRise_next hu <;> exact ⟨rfl, rfl⟩
  | false =>
    obtain ⟨rfl, _⟩ | ⟨_, v, hv, rfl⟩ := deviceFall_next hu
    · exact ⟨rfl, rfl⟩
    · obtain ⟨_, phase, _, _, _, _, _, fatalIn, _⟩ := endTransaction_kept hv
      exact ⟨phase, fatalIn⟩

theorem Invariant.deviceTransfer {tx : List Byte} {s t : State} (h : Invariant s) (ht : deviceTransfer tx s = .next t) : Invariant t := by
  refine (h.registers.deviceTransfer ht).resting ?_
  obtain ⟨_, rfl⟩ := deviceTransfer_next ht
  exact h.phase.imp_right (And.imp_right countTransfer_fatalIn_zero)

theorem Invariant.runReturningCall {c : BusCall} {s t : State} (h : Invariant s) (hc : runReturningCall c s = .next t) : Invariant t := by
  cases c with
  | cs asserted =>
    obtain ⟨phase, fatalIn⟩ := callCs_phase hc
    exact (h.registers.callCs hc).resting (by rw [RestingPhase, phase, fatalIn]; exact h.phase)
  | waitNs n | waitMs n => obtain rfl := Host.Outcome.next.inj hc; exact { h with }
  | xfer _ | recv _ =>
    rw [Machine.runReturningCall] at hc
    split_ifs at hc
    obtain ⟨u, hu, rfl⟩ := andThen_next_next hc
    exact { h.deviceTransfer hu with }

theorem fatalIn_of_hostHangs {c : BusCall} {s : State} (h : hostHangs c s = true) : s.fatalIn = some 0 := by
  cases c with
  | xfer tx | recv n => exact of_decide_eq_true h
  | cs asserted | waitNs n | waitMs n => cases h

theorem Invariant.runCall {c : BusCall} {s t : State} (h : Invariant s) (hc : runCall c s = .next t) : Invariant t := by
  rw [Machine.runCall] at hc
  split_ifs at hc with hangs
  · obtain rfl := Host.Outcome.next.inj hc
    exact { h.freeDevice (fatalIn_of_hostHangs hangs) with }
  · exact h.runReturningCall hc

theorem Invariant.resetBlock {s : State} (h : Invariant s) (cfg : Cfg) : Invariant (resetBlock cfg s) :=
  { h with memory := scrambleWords_wf _ _ _ h.memory, txlen := .inl rfl, rxlen := .inr rfl, phase := .inl rfl }

theorem Invariant.powerCycleDevice {s : State} (h : Invariant s) : Invariant (powerCycleDevice s) := by
  have hr : RegisterInvariant (Machine.powerCycleDevice s) := h.registers.emptied (scrambleWords_wf _ _ _ h.memory) rfl rfl rfl rfl rfl
  exact hr.resting h.phase

theorem Invariant.runRequest {r : Request} {s t : State} (h : Invariant s) (hr : runRequest r s = .next t) : Invariant t := by
  cases r with
  | command c => exact h.runCommand hr
  | configure cfg => obtain rfl := Host.Outcome.next.inj hr; exact { h with }
  | bus c => exact h.runCall hr
  | bulk m => exact keptInMacros_invariant.of_runMacro h hr
  | bulkCutByPowerLoss m n =>
    obtain ⟨u, hu, rfl⟩ := andThen_next_next hr
    exact (keptInMacros_invariant.of_runMacroPart h hu).powerCycleDevice
  | seqRead start count => cases hr
  | blockReset cfg => obtain rfl := Host.Outcome.next.inj hr; exact h.resetBlock cfg
  | powerCycle => obtain rfl := Host.Outcome.next.inj hr; exact h.powerCycleDevice

end Sys2Proof.Machine

section
open Sys2Proof Sys2Proof.Machine

/-- Settles O53: a step waits, or carries out a request; a command's steps keep every clause but the one on PHASE, and end where it holds. -/
theorem everyStepKeepsTheInvariant : Obligations.EveryStepKeepsTheInvariant := by
  intro s t h hs
  obtain rfl | ⟨r, rest, _, hr⟩ := step_next hs
  · exact h
  · have hp : Invariant (s.setPending rest) := { h with }
    exact hp.runRequest hr

/-- Settles O33: the three clauses are what makes a configuration illegal, and that is asked before the first step. -/
theorem illegalConfigurationIsRefused : Obligations.IllegalConfigurationIsRefused :=
  fun s c idle order illegal => runCommand_badConfig c idle order ((legalCfg_eq_false_iff s.cfg).2 illegal)

/-- Settles O34: PHASE is asked first. -/
theorem commandInProgressRefusesAnother : Obligations.CommandInProgressRefusesAnother :=
  fun _ c busy => runCommand_busy c busy

/-- Settles O46: a command may be served exactly while the block is idle. -/
theorem stepServesTheNextCommand : Obligations.StepServesTheNextCommand := by
  intro s c rest hp
  refine ⟨fun idle => ?_, fun busy => ?_, step_of_nil rfl⟩
  · exact step_serves hp (by simp [canServe_command, idle])
  · exact step_waits hp (by simp [canServe_command, busy])

/-- Settles O47: an idle block serves the request, which is one update of CFG. -/
theorem stepSetsTheConfiguration : Obligations.StepSetsTheConfiguration := by
  intro s cfg rest hp idle
  exact step_serves hp (by simp [State.canServe, idle])

/-- Settles O49: each value is read off `State.reset`. -/
theorem resetLeavesTheStatedValues : Obligations.ResetLeavesTheStatedValues :=
  ⟨rfl, rfl, rfl, rfl, rfl, rfl, rfl, rfl, rfl, rfl, rfl, rfl⟩

/-- Settles O52: nothing is listed or clocked in, TXLEN is 2, RXBUF has three bytes and PHASE is IDLE. -/
theorem resetMeetsTheInvariant : Obligations.ResetMeetsTheInvariant where
  memory := ⟨.nil, by simp [State.reset], by simp [State.reset]⟩
  deselected _ := ⟨rfl, rfl, rfl⟩
  wholeBytes _ := rfl
  marks _ := rfl
  txlen := .inl rfl
  rxlen := .inr rfl
  second h := by cases h
  phase := .inl rfl

end

/-! # Memory (20_memory.md): what the device sends, what CS(0) does with a transaction, and the commands as operations on an array with a latch -/

namespace Sys2Proof.Machine

/-! ### What the device sends past the word of a READ, or deselected (R64, R65) -/

/-- Past the word of a READ the device sends draws (R65). -/
theorem responseBit_past_word {s : State} {txs : List Bool} (past : 16 + s.dev.rxSkew + 16 ≤ txs.length) (draw : Bool) :
    responseBit s txs draw = draw := by
  rw [responseBit]
  cases readAddress s.opcodes txs with
  | none => rfl
  | some a => simp only [if_pos (show 16 ≤ txs.length by omega), if_neg (show ¬ txs.length - 16 < s.dev.rxSkew by omega),
      if_neg (show ¬ txs.length - 16 < s.dev.rxSkew + 16 by omega)]

theorem drawBits_succ (d n : Nat) : drawBits d (n + 1) = Config.drawBit d :: drawBits (d + 1) n := by
  simp only [drawBits, List.range_succ_eq_map, List.map_cons, List.map_map, Nat.add_zero, Function.comp_def, Nat.succ_eq_add_one,
    Nat.add_assoc, Nat.add_comm 1]

theorem responseBits_past_word (s : State) (bits : List Bool) : ∀ (txs : List Bool) (d : Nat), 16 + s.dev.rxSkew + 16 ≤ txs.length →
    responseBits s txs d bits = drawBits d bits.length := by
  induction bits with
  | nil => intro txs d _; rfl
  | cons b bits ih =>
    intro txs d past
    rw [responseBits, responseBit_past_word past, ih _ _ (by simp; omega), List.length_cons, drawBits_succ]

theorem received_deselected {s : State} (tx : List Byte) (h : s.sel = false) :
    s.received tx = bytesOfBits (drawBits s.draws (8 * tx.length)) := by
  rw [State.received, if_neg (by simp [h])]

/-- A transfer past the word of a READ brings back what it would bring back from a deselected device (R65, R207). -/
theorem received_past_word {s : State} (tx : List Byte) (past : 16 + s.dev.rxSkew + 16 ≤ s.txs.length) :
    s.received tx = bytesOfBits (drawBits s.draws (8 * tx.length)) := by
  rw [State.received, responseBits_past_word s _ _ _ past, bitsOfBytes_length, ite_self]

/-! ### What CS(0) does with a transaction (R66 to R69) -/

theorem deviceFall_selected {s u : State} (sel : s.sel = true) (he : endTransaction s = .next u) : deviceFall s = .next u.deselect := by
  rw [deviceFall, if_pos sel, he, andThen_next]

/-- A field of a frame, from the frame's number (R10). -/
theorem extractLsb'_ofNat {w T : Nat} (h : T < 2 ^ w) (start len : Nat) :
    (BitVec.ofNat w T).extractLsb' start len = BitVec.ofNat len (T / 2 ^ start) := by
  apply BitVec.eq_of_toNat_eq
  rw [BitVec.extractLsb'_toNat, BitVec.toNat_ofNat, BitVec.toNat_ofNat, Nat.mod_eq_of_lt h, Nat.shiftRight_eq_div_pow]

theorem bitsOf_ofNat_natOfBits {w : Nat} {bits : List Bool} (h : bits.length = w) : bitsOf w (BitVec.ofNat w (natOfBits bits)).toNat = bits := by
  rw [BitVec.toNat_ofNat, bitsOf_mod, ← h, bitsOf_natOfBits]

/-- 32 bits are known by the four fields of F32W (R82). -/
theorem eq_of_f32w_fields {f g : BitVec 32} (op : f.extractLsb' 29 3 = g.extractLsb' 29 3) (addr : f.extractLsb' 19 10 = g.extractLsb' 19 10)
    (data : f.extractLsb' 3 16 = g.extractLsb' 3 16) (pad : f.extractLsb' 0 3 = g.extractLsb' 0 3) : f = g := by
  have op' := congrArg BitVec.toNat op
  have addr' := congrArg BitVec.toNat addr
  have data' := congrArg BitVec.toNat data
  have pad' := congrArg BitVec.toNat pad
  simp only [BitVec.extractLsb'_toNat, Nat.shiftRight_eq_div_pow] at op' addr' data' pad'
  apply BitVec.eq_of_toNat_eq
  omega

/-- 32 bits with the opcode of WRITE over zero padding are the frame of their fields (R66, R82). -/
theorem frameF32W_of_fields {f : BitVec 32} (op : f.extractLsb' 29 3 = Config.opWrite) (pad : f.extractLsb' 0 3 = 0) :
    frameF32W 3 (f.extractLsb' 19 10) (f.extractLsb' 3 16) = f := by
  obtain ⟨op', addr', data', pad'⟩ := frameF32W_fields (f.extractLsb' 19 10) (f.extractLsb' 3 16)
  exact eq_of_f32w_fields (op'.trans op.symm) addr' data' (pad'.trans pad.symm)

/-- A transaction of 32 bits with the opcode of WRITE over zero padding is a WRITE of its fields (R66). -/
theorem transactionOf_writeFields (ops : Opcodes) {txs : List Bool} (len : txs.length = 32) (op : natOfBits txs / 2 ^ 29 = 0b101)
    (pad : natOfBits txs % 2 ^ 3 = 0) : transactionOf ops txs =
      some (.write (BitVec.ofNat 10 (natOfBits txs / 2 ^ 19)).toNat (BitVec.ofNat 16 (natOfBits txs / 2 ^ 3)).toNat) := by
  have field := extractLsb'_ofNat (len ▸ natOfBits_lt txs)
  have frame := frameF32W_of_fields (f := BitVec.ofNat 32 (natOfBits txs)) (by rw [field, op]; rfl) (by
    rw [field, pow_zero, Nat.div_one]; exact BitVec.eq_of_toNat_eq pad)
  have ht := transactionOf_write ops (BitVec.ofNat 10 (natOfBits txs / 2 ^ 19)).toNat (BitVec.ofNat 16 (natOfBits txs / 2 ^ 3)).toNat
  rw [field, field] at frame
  rwa [encode, bitsOfBytes_bytesOf, maskAddr_toNat, maskData_toNat, frame, bitsOf_ofNat_natOfBits len] at ht

/-- A transaction of 16 bits with the opcode of ERASE over zero padding is an ERASE of its address field (R67). -/
theorem transactionOf_eraseFields {ops : Opcodes} {txs : List Bool} (len : txs.length = 16)
    (op : natOfBits txs / 2 ^ 13 = ops.erase.toNat) (pad : natOfBits txs % 2 ^ 3 = 0) :
    transactionOf ops txs = some (.erase (BitVec.ofNat 10 (natOfBits txs / 2 ^ 3)).toNat) := by
  have field := extractLsb'_ofNat (len ▸ natOfBits_lt txs)
  have top : (BitVec.ofNat 16 (natOfBits txs)).extractLsb' 13 3 = ops.erase := by rw [field, op, BitVec.ofNat_toNat, BitVec.setWidth_eq]
  have low : (BitVec.ofNat 16 (natOfBits txs)).extractLsb' 0 3 = 0 := by
    rw [field, pow_zero, Nat.div_one]; exact BitVec.eq_of_toNat_eq pad
  conv_lhs => rw [← bitsOf_ofNat_natOfBits len]
  refine transactionOf_sixteen ops _ _ ?_ (by simp)
  rw [decode16, top, if_neg ops.apart.1, if_pos rfl, if_pos low, field]

/-- A control pattern over eleven zero bits is the frame F16C (R83). -/
theorem bitsOf_frameF16C {txs : List Bool} {ctl : BitVec 5} (len : txs.length = 16) (h : natOfBits txs = ctl.toNat * 2 ^ 11) :
    bitsOf 16 (frameF16C ctl).toNat = txs := by
  have frame : frameF16C ctl = BitVec.ofNat 16 (natOfBits txs) := by
    apply BitVec.eq_of_toNat_eq
    rw [h, frameF16C, BitVec.toNat_shiftLeft, BitVec.toNat_ofNat, Nat.shiftLeft_eq, BitVec.zeroExtend, BitVec.toNat_setWidth_of_le (by decide)]
  rw [frame, bitsOf_ofNat_natOfBits len]

/-! ### A self-framed command before its transfer (R110, R178) -/

/-- Every self-framed command opens with BEGIN_TXN's steps (R178). -/
theorem commandSteps_selfFramed (i : Instr) : ∃ rest, commandSteps (.instr i.selfFramed) = .b1 :: .b2 :: .b3 :: rest := by
  cases i <;> exact ⟨_, rfl⟩

/-- A self-framed command that meets the device's cycle is refused (R64, R70). -/
theorem exec_selfFramed_busy (i : Instr) {s : State} (startable : Startable s) (line : s.sel = true → s.txs = [])
    (busy : s.cfg.tCshNs < s.busyNs) : exec i.selfFramed s = .refused .deviceBusy := by
  obtain ⟨rest, steps⟩ := commandSteps_selfFramed i
  obtain ⟨_, _, _, _, _, _, cfg, _, _, _, busyNs, sel, txs, _⟩ := commandLatch_kept (.instr i.selfFramed) s
  have still_busy : 0 < (rested (commandLatch (.instr i.selfFramed) s)).busyNs := by
    show 0 < State.busyNs _ - Cfg.tCshNs _
    rw [busyNs, cfg]; omega
  rw [exec_eq, startCommand_eq startable, steps, runSteps_rest _ _ (by rwa [sel, txs]), runSteps_rise_busy _ _ rfl still_busy,
    forgetIfStuck_refused]

/-! ### What the device sends for a READ (R65, R157) -/

/-- The word, once the skew bits are through (R65). -/
theorem responseBits_word {s : State} {a : Addr} {bits : List Bool} (d : Nat) (len : s.txs.length = 16)
    (ha : readAddress s.opcodes s.txs = some a) (room : s.dev.rxSkew + 16 ≤ bits.length) :
    ((responseBits s s.txs d bits).drop s.dev.rxSkew).take 16 = bitsOf 16 (memRead s.ee a).toNat := by
  apply List.ext_getElem
  · simp; omega
  intro k hk _
  have hk16 : k < 16 := by simp at hk; omega
  rw [List.getElem_take, List.getElem_drop, responseBits_getElem s a bits _ _ _ ha len.ge (by omega), getElem_bitsOf _ _ _ hk16,
    if_neg (by omega), if_pos (by omega), BitVec.testBit_toNat]
  congr 1
  omega

/-- DECODE of what the device sends after the frame of a READ is the word addressed (R157). -/
theorem decodeResponse_received {s : State} {a : Addr} {tx : List Byte} (sel : s.sel = true) (len : s.txs.length = 16)
    (ha : readAddress s.opcodes s.txs = some a) (room : s.dev.rxSkew + 16 ≤ 8 * tx.length) :
    decodeResponse s.dev.rxSkew (s.received tx) = .ok (memRead s.ee a) := by
  have bits : bitsOfBytes (s.received tx) = responseBits s s.txs s.draws (bitsOfBytes tx) := by
    rw [State.received, if_pos sel]
    exact (bitsOfBytes_bytesOfBits _ tx.length (by simp)).1
  rw [decodeResponse_bits _ _ (by rwa [received_length]), bits, responseBits_word _ len ha (by rwa [bitsOfBytes_length]),
    ofNat_natOfBits_bitsOf]

/-! ### Self-framed commands from a ready state, run to their end (R171 to R175) -/

/-- The state of a self-framed command once its frame is sent. -/
def transmitted (i : Instr) (s : State) : State := sent (opened (commandLatch (.instr i) s)) (encode s.opcodes s.cfg.writeShift i)

/-- A command's tag and operands stand in the registers once latched (R21 to R24). -/
theorem opInstr_commandLatch (i : Instr) (s : State) : (commandLatch (.instr i) s).opInstr = some i.latched := by
  cases i <;> rfl

theorem LineReady.commandLatch {s : State} (h : LineReady s) (c : Command) : LineReady (commandLatch c s) := by
  obtain ⟨_, _, _, _, _, _, cfg, _, _, _, busyNs, sel, txs, _, _, dev, _⟩ := commandLatch_kept c s
  exact ⟨by rw [sel, txs]; exact h.line, by rw [busyNs, cfg]; exact h.notBusy, by rw [dev, cfg]; exact h.hold, by rw [dev, cfg]; exact h.setup⟩

/-- From a ready state a self-framed command comes to what follows its frame. -/
theorem exec_transmits {i : Instr} {s : State} {rest : List Phase} (ready : Ready s)
    (steps : commandSteps (.instr i) = .b1 :: .b2 :: .b3 :: .b4 :: .enc :: .tx :: rest) :
    exec i s = forgetIfStuck (runSteps rest (transmitted i s)) := by
  obtain ⟨_, _, _, _, _, _, cfg, _, _, _, _, _, _, _, _, _, opcodes, _, _, _, fatalIn⟩ := commandLatch_kept (.instr i) s
  rw [exec_eq, startCommand_eq ready.startable, steps,
    runSteps_open_send _ _ _ (opInstr_commandLatch i s) (ready.lineReady.commandLatch _) (fatalIn.trans ready.returns), encode_latched, cfg,
    opcodes, transmitted]

theorem transmitted_txs (i : Instr) (s : State) : (transmitted i s).txs = bitsOfBytes (encode s.opcodes s.cfg.writeShift i) :=
  sent_txs _ _ rfl rfl

theorem transmitted_txs_ne_nil (i : Instr) (s : State) : (transmitted i s).txs ≠ [] := by
  rw [transmitted_txs]
  exact bitsOfBytes_ne_nil (encode_length_pos _ _ _)

/-- What a frame on the line leaves of the device. -/
theorem transmitted_device (i : Instr) (s : State) : (transmitted i s).sel = true ∧ (transmitted i s).busyNs = 0
    ∧ (transmitted i s).ee = s.ee ∧ (transmitted i s).wel = s.wel ∧ (transmitted i s).opcodes = s.opcodes ∧ (transmitted i s).dev = s.dev
    ∧ (transmitted i s).cfg = s.cfg ∧ (transmitted i s).fatalIn = s.fatalIn := by
  obtain ⟨_, _, _, _, _, _, cfg, _, ee, wel, _, _, _, _, _, dev, opcodes, _, _, _, fatalIn⟩ := commandLatch_kept (.instr i) s
  exact ⟨rfl, rfl, ee, wel, opcodes, dev, cfg, fatalIn⟩

/-! ### The effect of a transaction, and the view (R66 to R69, R72) -/

/-- What the transaction of a command does to the device that holds it (R65 to R69). -/
def State.carryOut (s : State) : Instr → State
  | .read _ _ => s
  | .erase a => if s.wel then s.storeWord (maskAddr a) s.dev.erasedWord s.dev.tEcMs else s
  | .write a d => if s.wel then s.storeWord (maskAddr a) (maskData d) s.dev.tWcMs else s
  | .writeEnable => s.setLatch true
  | .writeDisable => s.setLatch false

/-- The end of a transaction of one frame carries its command out. -/
theorem endTransaction_carryOut {s : State} {i : Instr} (hn : s.txs ≠ []) (ht : transactionOf s.opcodes s.txs = some i)
    (one : ∀ a o, i = .read a o → s.secondFrame = false) : endTransaction s = .next (s.carryOut i) := by
  cases i with
  | read a o => rw [endTransaction, if_neg hn, ht, one a o rfl]; rfl
  | erase a => exact endTransaction_erase hn ht
  | write a d => exact endTransaction_write hn ht
  | writeEnable => exact endTransaction_writeEnable hn ht
  | writeDisable => exact endTransaction_writeDisable hn ht

/-- The operands are masked wherever they are used (R22, R23). -/
theorem carryOut_latched (s : State) (i : Instr) : s.carryOut i.selfFramed.latched = s.carryOut i := by
  cases i <;> simp [Instr.selfFramed, Instr.latched, State.carryOut]

theorem carryOut_setPhase (s : State) (i : Instr) (p : Phase) : (s.setPhase p).carryOut i = (s.carryOut i).setPhase p := by
  cases i with
  | erase a | write a d => rw [State.carryOut, State.carryOut, setPhase_wel]; split_ifs <;> rfl
  | read a o | writeEnable | writeDisable => rfl

/-- No command's effect touches the configuration or the transfers (R66 to R69). -/
theorem carryOut_kept (s : State) (i : Instr) : (s.carryOut i).cfg = s.cfg ∧ (s.carryOut i).fatalIn = s.fatalIn := by
  cases i with
  | erase a | write a d => rw [State.carryOut]; split_ifs <;> exact ⟨rfl, rfl⟩
  | read a o | writeEnable | writeDisable => exact ⟨rfl, rfl⟩

/-- A word written is the array updated there (R62). -/
theorem memRead_memWrite_eq_update (m : Memory) (a : Addr) (w : Word) : memRead (memWrite m a w) = Function.update (memRead m) a w := by
  funext b
  rw [memRead_memWrite, Function.update_apply]

/-- The device carries out on its array and latch what the command does to the view of them (R72, R239). -/
theorem viewOf_carryOut (s : State) (i : Instr) : viewOf (s.carryOut i) = (viewOf s).after s.dev.erasedWord i := by
  cases i with
  | erase a | write a d => cases hw : s.wel <;> simp [State.carryOut, View.after, viewOf, hw, memRead_memWrite_eq_update]
  | read a o | writeEnable | writeDisable => rfl

/-! ### The end of a self-framed command from a ready state (R111, R171 to R175) -/

/-- The transaction of a frame on the line is the command it was sent for; a WRITE's only at the canonical shift (R93). -/
theorem transmitted_transaction {i : Instr} {s : State} (shift : ∀ a d, i = .write a d → s.cfg.writeShift = 3) :
    transactionOf s.opcodes (transmitted i s).txs = some i.selfFramed.latched := by
  rw [transmitted_txs]
  cases i with
  | read a o => rw [← List.append_nil (bitsOfBytes _)]; exact transactionOf_read _ _ _ _ _
  | erase a => exact transactionOf_erase _ _ _
  | write a d => rw [shift a d rfl]; exact transactionOf_write _ _ _
  | writeEnable => exact transactionOf_writeEnable _ _
  | writeDisable => exact transactionOf_writeDisable _ _

/-- The state of a command without a receive phase once its transaction has ended. -/
def committed (i : Instr) (s : State) : State := closed ((transmitted i s).carryOut i)

theorem committed_cfg (i : Instr) (s : State) : (committed i s).cfg = s.cfg := by
  obtain ⟨_, _, _, _, _, _, cfg, _⟩ := transmitted_device i s
  exact (carryOut_kept _ _).1.trans cfg

/-- A command without a receive phase comes to what follows END_TXN's steps. -/
theorem exec_commits {i : Instr} {s : State} {rest : List Phase} (ready : Ready s)
    (shift : ∀ a d, i = .write a d → s.cfg.writeShift = 3)
    (steps : commandSteps (.instr i) = .b1 :: .b2 :: .b3 :: .b4 :: .enc :: .tx :: .e1 :: .e2 :: rest) :
    exec i s = forgetIfStuck (runSteps rest (committed i s)) := by
  obtain ⟨sel, _, _, _, opcodes, _⟩ := transmitted_device i s
  have he : endTransaction ((transmitted i s).setPhase .e1) = .next (((transmitted i s).carryOut i).setPhase .e1) := by
    rw [← carryOut_setPhase, ← carryOut_latched]
    refine endTransaction_carryOut (transmitted_txs_ne_nil i s) ?_ fun a o hi => ?_
    · rw [setPhase_opcodes, opcodes]; exact transmitted_transaction shift
    · cases i with
      | read A owned => cases owned <;> cases steps
      | erase A | write A D | writeEnable | writeDisable => cases hi
  rw [exec_transmits ready steps, runSteps_end _ _ _ sel he]
  rfl

/-- WRITE ends with the wait for the write cycle (R172). -/
theorem exec_write_returns (A D : Nat) {s : State} (ready : Ready s) (shift : s.cfg.writeShift = 3) : exec (.write A D) s =
    .next ((((committed (.write A D) s).elapse (1000000 * s.cfg.tWcMs)).record (.waitMs s.cfg.tWcMs)).setPhase .idle) := by
  rw [exec_commits (rest := [.wc]) ready (fun _ _ _ => shift) rfl, ← committed_cfg (.write A D) s]
  rfl

/-- ERASE ends with the wait for the erase cycle (R173). -/
theorem exec_erase_returns (A : Nat) {s : State} (ready : Ready s) : exec (.erase A) s =
    .next ((((committed (.erase A) s).elapse (1000000 * s.cfg.tEcMs)).record (.waitMs s.cfg.tEcMs)).setPhase .idle) := by
  rw [exec_commits (rest := [.ec]) ready (by simp) rfl, ← committed_cfg (.erase A) s]
  rfl

theorem exec_writeEnable_returns {s : State} (ready : Ready s) : exec .writeEnable s = .next ((committed .writeEnable s).setPhase .idle) :=
  exec_commits (rest := []) ready (by simp) rfl

theorem exec_writeDisable_returns {s : State} (ready : Ready s) : exec .writeDisable s = .next ((committed .writeDisable s).setPhase .idle) :=
  exec_commits (rest := []) ready (by simp) rfl

/-- DEC is the last step of a READ (R171). -/
theorem runSteps_dec {s : State} {w : Word} (h : decodeResponse s.cfg.rxAlignOffset s.rxbuf = .ok w) :
    runSteps [.dec] s = .next ((s.setRdata w).setPhase .idle) := by
  have h' : decodeResponse (s.setPhase .dec).cfg.rxAlignOffset (s.setPhase .dec).rxbuf = .ok w := h
  rw [runSteps_cons (neverReturns_other (by decide) (by decide)), act, h']
  rfl

/-- The state of a self-framed READ once the word is received. -/
def answered (A : Nat) (s : State) : State := receivedInto (transmitted (.read A false) s)

/-- The READ's frame is known by its first 16 bits, whatever is received after it (R65). -/
theorem readAddress_answered (A : Nat) (s : State) : readAddress (answered A s).opcodes (answered A s).txs = some (maskAddr A) := by
  obtain ⟨sel, _, _, _, opcodes, _⟩ := transmitted_device (.read A false) s
  have txs : (answered A s).txs = ((transmitted (.read A false) s).clockIn ((transmitted (.read A false) s).fillBytes
    (transmitted (.read A false) s).cfg.rxBytes)).txs := rfl
  rw [txs, clockIn_txs, if_pos sel, transmitted_txs, show (answered A s).opcodes = s.opcodes from opcodes, readAddress_read]

/-- A self-framed READ comes to its end with the word decoded from what was received (R171). -/
theorem exec_read_decodes {A : Nat} {s : State} {w : Word} (ready : Ready s)
    (hw : decodeResponse s.cfg.rxAlignOffset (answered A s).rxbuf = .ok w) :
    exec (.read A false) s = .next (((closed (answered A s)).setRdata w).setPhase .idle) := by
  obtain ⟨_, _, _, _, _, _, cfg, fatalIn⟩ := transmitted_device (.read A false) s
  have setup : (transmitted (.read A false) s).setupViolated = false := sent_setupViolated _ _ (encode_length_pos _ _ _)
  have one : (answered A s).secondFrame = false := receivedInto_sent_secondFrame _ _ rfl rfl rfl (bytesOf_length _ _)
  have he : endTransaction ((answered A s).setPhase .e1) = .next ((answered A s).setPhase .e1) :=
    endTransaction_read (readAddress_answered A s) one
  have hd : decodeResponse (closed (answered A s)).cfg.rxAlignOffset (closed (answered A s)).rxbuf = .ok w := by
    rw [show (closed (answered A s)).cfg = s.cfg from cfg]
    exact hw
  rw [exec_transmits ready rfl, runSteps_receive _ _ setup (fatalIn.trans ready.returns), ← answered, runSteps_end _ (answered A s) _ rfl he]
  exact congrArg forgetIfStuck (runSteps_dec hd)

/-- What a calibrated READ receives decodes to the word addressed (R157, R171). -/
theorem decodeResponse_answered {s : State} (A : Nat) (ready : Ready s) (offset : s.cfg.rxAlignOffset = s.dev.rxSkew) :
    decodeResponse s.cfg.rxAlignOffset (answered A s).rxbuf = .ok (memRead s.ee (maskAddr A)) := by
  obtain ⟨sel, _, ee, _, opcodes, dev, cfg, _⟩ := transmitted_device (.read A false) s
  have len : (transmitted (.read A false) s).txs.length = 16 := by rw [transmitted_txs, bitsOfBytes_length]; rfl
  have address : readAddress (transmitted (.read A false) s).opcodes (transmitted (.read A false) s).txs = some (maskAddr A) := by
    rw [opcodes, transmitted_txs, ← List.append_nil (bitsOfBytes _), readAddress_read]
  have room := ready.startable.legal
  simp only [legalCfg, Bool.and_eq_true, decide_eq_true_eq] at room
  rw [offset, ← dev, ← ee]
  refine decodeResponse_received sel len address ?_
  rw [fillBytes_length, dev, cfg, ← offset]
  exact room.2

/-! ### What every self-framed command leaves (R72, R180, R239) -/

/-- No command writes the configuration, the device's parameters or the requests. -/
theorem exec_kept {i : Instr} {s t : State} (h : exec i s = .next t) : t.cfg = s.cfg ∧ t.dev = s.dev ∧ t.pending = s.pending := by
  rw [exec_eq] at h
  obtain ⟨kept, _⟩ := startCommand_kept h
  obtain ⟨_, _, _, _, _, _, cfg, _, _, _, _, _, _, _, _, dev, _, _, _, pending, _⟩ := commandLatch_kept (.instr i) s
  exact ⟨kept.cfg.trans cfg, kept.dev.trans dev, kept.pending.trans pending⟩

/-- What an instruction run to its end leaves: an idle block, a deselected device with no cycle running, and the view the instruction makes
of the one before. -/
structure Refines (i : Instr) (s t : State) : Prop where
  idle : t.phase = .idle
  deselected : t.sel = false
  rested : t.busyNs = 0
  returns : t.fatalIn = none
  view : viewOf t = (viewOf s).after s.dev.erasedWord i

/-- The array and the latch are those the transaction left. -/
theorem Refines.of_carryOut {i : Instr} {s t : State} (ready : Ready s) (idle : t.phase = .idle) (deselected : t.sel = false)
    (rested : t.busyNs = 0) (fatalIn : t.fatalIn = ((transmitted i s).carryOut i).fatalIn)
    (view : viewOf t = viewOf ((transmitted i s).carryOut i)) : Refines i s t := by
  obtain ⟨_, _, ee, wel, _, dev, _, returns⟩ := transmitted_device i s
  refine ⟨idle, deselected, rested, ?_, ?_⟩
  · rw [fatalIn, (carryOut_kept _ _).2, returns, ready.returns]
  · rw [view, viewOf_carryOut, dev, viewOf, ee, wel, ← viewOf]

/-- How long the cycle lasts that an instruction may start (R66, R67). -/
def State.cycleMs (s : State) : Instr → Nat
  | .write _ _ => s.dev.tWcMs
  | .erase _ => s.dev.tEcMs
  | .read _ _ => 0
  | .writeEnable => 0
  | .writeDisable => 0

theorem busyNs_carryOut_le (i : Instr) (s : State) : ((transmitted i s).carryOut i).busyNs ≤ 1000000 * s.cycleMs i := by
  obtain ⟨_, busyNs, _, _, _, dev, _⟩ := transmitted_device i s
  cases i with
  | erase A | write A D =>
    rw [State.carryOut]
    split_ifs
    · rw [storeWord_busyNs, dev]; exact le_rfl
    · rw [busyNs]; exact Nat.zero_le _
  | read A owned | writeEnable | writeDisable => exact busyNs.le

/-- A wait as long as the cycle outlasts it (R70). -/
theorem busyNs_waited {i : Instr} {s : State} {ms : Nat} (covers : s.cycleMs i ≤ ms) :
    ((committed i s).elapse (1000000 * ms)).busyNs = 0 := by
  have cycle := busyNs_carryOut_le i s
  show State.busyNs _ - Cfg.tCshNs _ - 1000000 * ms = 0
  omega

/-- The commuting diagram of one command: from a ready, calibrated state every self-framed instruction runs to its end, and does to the view what
the instruction does to an array with a latch. -/
theorem exec_refines (i : Instr) {s : State} (ready : Ready s) (cal : Calibrated s) : ∃ t, exec i.selfFramed s = .next t ∧ Refines i s t := by
  cases i with
  | read A owned =>
    exact ⟨_, exec_read_decodes ready (decodeResponse_answered A ready cal.offset), .of_carryOut ready rfl rfl (Nat.zero_sub _) rfl rfl⟩
  | erase A => exact ⟨_, exec_erase_returns A ready, .of_carryOut ready rfl rfl (busyNs_waited cal.eraseCycle) rfl rfl⟩
  | write A D => exact ⟨_, exec_write_returns A D ready cal.shift, .of_carryOut ready rfl rfl (busyNs_waited cal.writeCycle) rfl rfl⟩
  | writeEnable => exact ⟨_, exec_writeEnable_returns ready, .of_carryOut ready rfl rfl (Nat.zero_sub _) rfl rfl⟩
  | writeDisable => exact ⟨_, exec_writeDisable_returns ready, .of_carryOut ready rfl rfl (Nat.zero_sub _) rfl rfl⟩

/-- After a READ, RDATA is the word of the view at its address (R171). -/
theorem exec_read_rdata (A : Nat) {s t : State} (ready : Ready s) (cal : Calibrated s) (h : exec (.read A false) s = .next t) :
    t.rdata = (viewOf s).array (maskAddr A) := by
  rw [exec_read_decodes ready (decodeResponse_answered A ready cal.offset)] at h
  obtain rfl := Host.Outcome.next.inj h
  rfl

/-- A machine as an instruction leaves it is as ready as before, under the same configuration. -/
theorem Refines.ready {i : Instr} {s t : State} (h : Refines i s t) (he : exec i.selfFramed s = .next t) (ready : Ready s)
    (cal : Calibrated s) : Ready t ∧ Calibrated t := by
  obtain ⟨cfg, dev, _⟩ := exec_kept he
  obtain ⟨⟨_, order, legal⟩, ⟨_, _, hold, setup⟩, _⟩ := ready
  obtain ⟨shift, offset, writeCycle, eraseCycle⟩ := cal
  rw [← cfg] at order legal shift
  rw [← cfg, ← dev] at hold setup offset writeCycle eraseCycle
  refine ⟨⟨⟨h.idle, order, legal⟩, ⟨?_, ?_, hold, setup⟩, h.returns⟩, ⟨shift, offset, writeCycle, eraseCycle⟩⟩
  · intro sel
    rw [h.deselected] at sel
    cases sel
  · rw [h.rested]; exact Nat.zero_le _

/-! ### One command after another (R177, R180, R239) -/

theorem Ready.setPending {s : State} (h : Ready s) (rs : List Request) : Ready (s.setPending rs) :=
  ⟨{ h.startable with }, { h.lineReady with }, h.returns⟩

theorem Calibrated.setPending {s : State} (h : Calibrated s) (rs : List Request) : Calibrated (s.setPending rs) := { h with }

/-- The host's requests for a list of self-framed commands (R15). -/
def requestsOf (commands : List Instr) : List Request := commands.map fun i => .command (.instr i.selfFramed)

/-- One command served: its instruction is carried out on the view, and the machine is ready for the next. -/
theorem step_refines {i : Instr} {s : State} {rest : List Request} (ready : Ready s) (cal : Calibrated s)
    (hp : s.pending = .command (.instr i.selfFramed) :: rest) :
    ∃ t, step s = .next t ∧ exec i.selfFramed (s.setPending rest) = .next t ∧ Ready t ∧ Calibrated t ∧ t.dev = s.dev ∧ t.pending = rest
      ∧ viewOf t = (viewOf s).after s.dev.erasedWord i := by
  obtain ⟨t, he, h⟩ := exec_refines i (ready.setPending rest) (cal.setPending rest)
  have hs : step s = exec i.selfFramed (s.setPending rest) := step_serves hp (by simp [canServe_command, ready.startable.idle])
  obtain ⟨ready', cal'⟩ := h.ready he (ready.setPending rest) (cal.setPending rest)
  obtain ⟨_, dev, pending⟩ := exec_kept he
  exact ⟨t, hs.trans he, he, ready', cal', dev, pending, h.view⟩

/-- Any number of commands served, with other requests to come: the view is theirs, one after another, and the run goes on from there. -/
theorem run_refines (commands : List Instr) {s : State} {rest : List Request} (ready : Ready s) (cal : Calibrated s)
    (hp : s.pending = requestsOf commands ++ rest) :
    ∃ t, (∀ k, Sys2Proof.core.run (commands.length + k) s = Sys2Proof.core.run k t) ∧ Ready t ∧ Calibrated t ∧ t.dev = s.dev
      ∧ t.pending = rest ∧ viewOf t = commands.foldl (View.after s.dev.erasedWord) (viewOf s) := by
  induction commands generalizing s with
  | nil => exact ⟨s, fun k => by rw [List.length_nil, Nat.zero_add], ready, cal, rfl, hp, rfl⟩
  | cons i commands ih =>
    obtain ⟨t, hs, _, ready', cal', dev, pending, view⟩ := step_refines ready cal hp
    obtain ⟨u, hr, ready'', cal'', dev', pending', view'⟩ := ih ready' cal' pending
    refine ⟨u, fun k => ?_, ready'', cal'', dev'.trans dev, pending', ?_⟩
    · rw [List.length_cons, Nat.succ_add, run_succ hs, hr k]
    · rw [view', dev, view, List.foldl_cons]

end Sys2Proof.Machine

section
open Sys2Proof Sys2Proof.Machine

/-- Settles O43: by induction on the list, each command commutes with the view; the READ at the end decodes the word of the last view. -/
theorem commandsRefineTheArrayWithALatch : Obligations.CommandsRefineTheArrayWithALatch := by
  intro commands A s ready cal hp
  rw [List.map_append] at hp
  obtain ⟨t, hr, ready', cal', dev, pending, view⟩ := run_refines commands ready cal hp
  obtain ⟨u, hs, he, _, _, _, _, view'⟩ := step_refines (i := .read A false) ready' cal' pending
  refine ⟨u, ?_, view'.trans view, ?_⟩
  · rw [hr 1, run_succ hs]; rfl
  · rw [exec_read_rdata A (ready'.setPending _) (cal'.setPending _) he, ← view]; rfl

/-- Settles O13: past the word every bit the device sends is a draw, and the array has no part in the draws. -/
theorem bitsAfterTheWordDoNotShowTheArray : Obligations.BitsAfterTheWordDoNotShowTheArray := by
  intro s m tx past
  rw [received_past_word tx past]
  exact received_past_word (s := { s with ee := m }) tx past

/-- Settles O15: the transaction is the WRITE of its fields, and its effect is that of a WRITE's end. -/
theorem writeTransactionAtTheDevice : Obligations.WriteTransactionAtTheDevice := by
  intro s sel len T op pad
  have he := endTransaction_write (List.ne_nil_of_length_eq_add_one len) (transactionOf_writeFields s.opcodes len op pad)
  rw [maskAddr_toNat, maskData_toNat] at he
  refine ⟨_, deviceFall_selected sel he, ?_⟩
  cases hw : s.wel <;> simp [hw, T]

/-- Settles O16: the transaction is the ERASE of its address field, or the frame of one of the two control patterns. -/
theorem eraseAndLatchTransactionsAtTheDevice : Obligations.EraseAndLatchTransactionsAtTheDevice := by
  refine ⟨rfl, fun s sel len => ⟨fun op pad => ?_, fun h => ?_, fun h => ?_⟩⟩
  · have he := endTransaction_erase (List.ne_nil_of_length_eq_add_one len) (transactionOf_eraseFields len op pad)
    rw [maskAddr_toNat] at he
    refine ⟨_, deviceFall_selected sel he, ?_⟩
    cases hw : s.wel <;> simp [hw]
  · have ht := transactionOf_sixteen s.opcodes _ _ (decode16_writeEnable s.opcodes) (by simp)
    rw [bitsOf_frameF16C len h] at ht
    exact deviceFall_selected sel (endTransaction_writeEnable (List.ne_nil_of_length_eq_add_one len) ht)
  · have ht := transactionOf_sixteen s.opcodes _ _ (decode16_writeDisable s.opcodes) (by simp)
    rw [bitsOf_frameF16C len h] at ht
    exact deviceFall_selected sel (endTransaction_writeDisable (List.ne_nil_of_length_eq_add_one len) ht)

/-- Settles O14: a deselected device takes nothing in, and refuses no transfer. -/
theorem deselectedTransferShowsOnlyDraws : Obligations.DeselectedTransferShowsOnlyDraws := by
  intro s tx sel
  have setup : s.setupViolated = false := by simp [State.setupViolated, sel]
  refine ⟨received_deselected tx sel, _, by rw [callXfer, deviceTransfer, setup]; rfl, ?_⟩
  simp [sel]

/-- Settles O51: only the words cut off are scrambled. -/
theorem powerCycleClearsTheLatchAndKeepsTheArray : Obligations.PowerCycleClearsTheLatchAndKeepsTheArray := by
  intro s rest hp
  exact ⟨_, step_serves hp rfl, rfl, rfl, rfl, rfl, rfl, rfl, fun k outside => read_scrambleWords _ _ _ k outside⟩

/-- Settles O36: BEGIN_TXN's wait does not outlast the cycle, and its assert is refused. -/
theorem busyDeviceIsRefused : Obligations.BusyDeviceIsRefused :=
  fun _ i startable line busy => exec_selfFramed_busy i startable line busy

end

/-! # Encoding (30_encoding.md): a decoded frame is the frame of its instruction, the frames as numbers, and WRITE's frame at every shift -/

namespace Sys2Proof
open Machine

/-! ### What decodes is a frame (R89, R91) -/

/-- 16 bits are known by the three fields of F16A (R81). -/
theorem eq_of_f16a_fields {f g : BitVec 16} (op : f.extractLsb' 13 3 = g.extractLsb' 13 3) (addr : f.extractLsb' 3 10 = g.extractLsb' 3 10)
    (pad : f.extractLsb' 0 3 = g.extractLsb' 0 3) : f = g := by
  have op' := congrArg BitVec.toNat op
  have addr' := congrArg BitVec.toNat addr
  have pad' := congrArg BitVec.toNat pad
  simp only [BitVec.extractLsb'_toNat, Nat.shiftRight_eq_div_pow] at op' addr' pad'
  apply BitVec.eq_of_toNat_eq
  omega

/-- 16 bits are known by the two fields of F16C (R83). -/
theorem eq_of_f16c_fields {f g : BitVec 16} (ctl : f.extractLsb' 11 5 = g.extractLsb' 11 5) (pad : f.extractLsb' 0 11 = g.extractLsb' 0 11) :
    f = g := by
  have ctl' := congrArg BitVec.toNat ctl
  have pad' := congrArg BitVec.toNat pad
  simp only [BitVec.extractLsb'_toNat, Nat.shiftRight_eq_div_pow] at ctl' pad'
  apply BitVec.eq_of_toNat_eq
  omega

/-- 16 bits with an opcode over zero padding are the F16A frame of that opcode and their address field (R81). -/
theorem frameF16A_of_fields {f : BitVec 16} {op : BitVec 3} (hop : f.extractLsb' 13 3 = op) (pad : f.extractLsb' 0 3 = 0) :
    frameF16A op (f.extractLsb' 3 10) = f := by
  obtain ⟨op', addr', pad'⟩ := frameF16A_fields op (f.extractLsb' 3 10)
  exact eq_of_f16a_fields (op'.trans hop.symm) addr' (pad'.trans pad.symm)

/-- 16 bits with a control pattern over zero padding are the F16C frame of that pattern (R83). -/
theorem frameF16C_of_fields {f : BitVec 16} {ctl : BitVec 5} (hctl : f.extractLsb' 11 5 = ctl) (pad : f.extractLsb' 0 11 = 0) :
    frameF16C ctl = f := by
  obtain ⟨ctl', _, pad'⟩ := frameF16C_fields ctl
  exact eq_of_f16c_fields (ctl'.trans hctl.symm) (pad'.trans pad.symm)

/-- The bytes are the canonical frame of the instruction, which it carries exactly as it stands. -/
structure IsFrameOf (ops : Opcodes) (i : Instr) (bytes : List Byte) : Prop where
  wellFormed : WellFormed i = true
  selfFramed : i.selfFramed = i
  encodes : encode ops 3 i = bytes

/-- A 16-bit frame that decodes passed the test of its opcode and of its padding, and no bit is left over. -/
theorem isFrameOf_of_decode16 {ops : Opcodes} {f : BitVec 16} {i : Instr} (h : decode16 ops f = .ok i) :
    IsFrameOf ops i (bytesOf 2 f.toNat) := by
  rw [decode16] at h
  split_ifs at h with op pad op pad ctl pad ctl pad <;> obtain rfl := Except.ok.inj h
  · exact ⟨decide_eq_true (BitVec.isLt _), rfl, by rw [encode, maskAddr_toNat, frameF16A_of_fields op pad]⟩
  · exact ⟨decide_eq_true (BitVec.isLt _), rfl, by rw [encode, maskAddr_toNat, frameF16A_of_fields op pad]⟩
  · exact ⟨rfl, rfl, by rw [encode, frameF16C_of_fields ctl pad]⟩
  · exact ⟨rfl, rfl, by rw [encode, frameF16C_of_fields ctl pad]⟩

theorem isFrameOf_of_decode32 (ops : Opcodes) {f : BitVec 32} {i : Instr} (h : decode32 f = .ok i) : IsFrameOf ops i (bytesOf 4 f.toNat) := by
  rw [decode32] at h
  split_ifs at h with op pad
  obtain rfl := Except.ok.inj h
  exact ⟨Bool.and_eq_true_iff.2 ⟨decide_eq_true (BitVec.isLt _), decide_eq_true (BitVec.isLt _)⟩, rfl,
    by rw [encode, maskAddr_toNat, maskData_toNat, frameF32W_of_fields op pad]⟩

/-- Whole bytes come back from the number their bits stand for (R11). -/
theorem bytesOf_ofNat_natOfBits {n : Nat} {bytes : List Byte} (len : (bitsOfBytes bytes).length = 8 * n) :
    bytesOf n (BitVec.ofNat (8 * n) (natOfBits (bitsOfBytes bytes))).toNat = bytes := by
  rw [← bytesOfBits_bitsOfBytes (bytesOf _ _), bitsOfBytes_bytesOf, bitsOf_ofNat_natOfBits len, bytesOfBits_bitsOfBytes]

/-- The length tells the format (R80), and either decoder takes frames only. -/
theorem isFrameOf_of_decode {ops : Opcodes} {bytes : List Byte} {i : Instr} (h : decode ops bytes = .ok i) : IsFrameOf ops i bytes := by
  rw [decode, decodeBits] at h
  split_ifs at h with two four
  · rw [← bytesOf_ofNat_natOfBits (n := 2) two]
    exact isFrameOf_of_decode16 h
  · rw [← bytesOf_ofNat_natOfBits (n := 4) four]
    exact isFrameOf_of_decode32 ops h

/-! ### The frames as numbers (R81 to R83, R93) -/

theorem maskAddr_toNat_eq_mod (A : Nat) : (maskAddr A).toNat = A % 2 ^ 10 := BitVec.toNat_ofNat A 10

theorem maskData_toNat_eq_mod (D : Nat) : (maskData D).toNat = D % 2 ^ 16 := BitVec.toNat_ofNat D 16

/-- A field moved up within the frame loses no bit (R81 to R83). -/
theorem toNat_zeroExtend_shiftLeft {w n shift : Nat} (v : BitVec w) (fits : w + shift ≤ n) :
    (v.zeroExtend n <<< shift).toNat = v.toNat <<< shift := by
  rw [BitVec.toNat_shiftLeft, BitVec.zeroExtend, BitVec.toNat_setWidth_of_le (by omega), Nat.mod_eq_of_lt]
  exact (Nat.shiftLeft_lt v.isLt).trans_le (Nat.pow_le_pow_right two_pos fits)

theorem frameF16A_toNat (op : BitVec 3) (a : Addr) : (frameF16A op a).toNat = (op.toNat <<< 13) ||| (a.toNat <<< 3) := by
  rw [frameF16A, BitVec.toNat_or, toNat_zeroExtend_shiftLeft op (by decide), toNat_zeroExtend_shiftLeft a (by decide)]

theorem frameF16C_toNat (ctl : BitVec 5) : (frameF16C ctl).toNat = ctl.toNat <<< 11 :=
  toNat_zeroExtend_shiftLeft ctl (by decide)

/-- Opcode, address and data of a WRITE fill 29 bits (R82). -/
theorem writeFields_lt (a : Addr) (d : Word) : (0b101 <<< 26) ||| (a.toNat <<< 16) ||| d.toNat < 2 ^ 29 :=
  Nat.or_lt_two_pow (Nat.or_lt_two_pow (by decide) ((Nat.shiftLeft_lt a.isLt).trans (by decide))) (d.isLt.trans (by decide))

/-- A WRITE framed with a shift of at most `k` fills `29 + k` bits (R93). -/
theorem writeFields_shiftLeft_lt {shift k : Nat} (a : Addr) (d : Word) (le : shift ≤ k) :
    ((0b101 <<< 26) ||| (a.toNat <<< 16) ||| d.toNat) <<< shift < 2 ^ (29 + k) :=
  (Nat.shiftLeft_lt (writeFields_lt a d)).trans_le (Nat.pow_le_pow_right two_pos (Nat.add_le_add_left le 29))

/-- No legal shift moves a bit out of the four bytes (R93). -/
theorem frameF32W_toNat {shift : Nat} (a : Addr) (d : Word) (legal : shift ≤ 3) :
    (frameF32W shift a d).toNat = ((0b101 <<< 26) ||| (a.toNat <<< 16) ||| d.toNat) <<< shift := by
  rw [frameF32W, BitVec.toNat_shiftLeft, BitVec.toNat_or, BitVec.toNat_or, toNat_zeroExtend_shiftLeft _ (by decide),
    toNat_zeroExtend_shiftLeft a (by decide), BitVec.zeroExtend, BitVec.toNat_setWidth_of_le (by decide)]
  exact Nat.mod_eq_of_lt (writeFields_shiftLeft_lt a d legal)

/-! ### No frame begins with a 0 bit (R88), and a WRITE framed with a shift below 3 does (R93) -/

/-- Every opcode pattern has the fixed high bit (R88). -/
theorem Opcodes.high (ops : Opcodes) :
    4 ≤ ops.read.toNat ∧ 4 ≤ ops.erase.toNat ∧ 16 ≤ ops.writeEnable.toNat ∧ 16 ≤ ops.writeDisable.toNat := by
  have h := ops.legal
  simp only [Opcodes.legalPatterns, Bool.and_eq_true, Bool.or_eq_true, beq_iff_eq] at h
  obtain ⟨⟨⟨⟨⟨⟨⟨read, erase⟩, latch⟩, _⟩, _⟩, _⟩, same⟩, _⟩ := h
  have pattern : ∀ {p : BitVec 3}, (p = 0b100 ∨ p = 0b110) ∨ p = 0b111 → 4 ≤ p.toNat := by decide
  have control : ∀ {c : BitVec 5}, 4 ≤ (c.extractLsb' 2 3).toNat → 16 ≤ c.toNat := by decide
  exact ⟨pattern read, pattern erase, control (pattern latch), control (pattern (same ▸ latch))⟩

theorem decode16_of_lt (ops : Opcodes) {f : BitVec 16} (low : f.toNat < 2 ^ 15) : decode16 ops f = .error .unknownOpcode := by
  obtain ⟨read, erase, enable, disable⟩ := ops.high
  have top : (f.extractLsb' 13 3).toNat < 4 := by rw [BitVec.extractLsb'_toNat, Nat.shiftRight_eq_div_pow]; omega
  have topControl : (f.extractLsb' 11 5).toNat < 16 := by rw [BitVec.extractLsb'_toNat, Nat.shiftRight_eq_div_pow]; omega
  rw [decode16, if_neg (ne_of_apply_ne BitVec.toNat (top.trans_le read).ne), if_neg (ne_of_apply_ne BitVec.toNat (top.trans_le erase).ne),
    if_neg (ne_of_apply_ne BitVec.toNat (topControl.trans_le enable).ne), if_neg (ne_of_apply_ne BitVec.toNat (topControl.trans_le disable).ne)]

theorem decode32_of_lt {f : BitVec 32} (low : f.toNat < 2 ^ 31) : decode32 f = .error .unknownOpcode := by
  have top : (f.extractLsb' 29 3).toNat < 4 := by rw [BitVec.extractLsb'_toNat, Nat.shiftRight_eq_div_pow]; omega
  rw [decode32, if_neg fun op => by rw [op] at top; exact absurd top (by decide)]

/-- Bits that begin with a 0 are no frame. -/
theorem decodeBits_false_cons (ops : Opcodes) (rest : List Bool) : ∃ e, decodeBits ops (false :: rest) = .error e := by
  have low : ∀ n, (false :: rest).length = n + 1 → (BitVec.ofNat (n + 1) (natOfBits (false :: rest))).toNat < 2 ^ n := by
    intro n len
    have lt := natOfBits_lt rest
    rw [List.length_cons, Nat.add_right_cancel_iff] at len
    rw [natOfBits_cons, Bool.toNat_false, Nat.zero_mul, Nat.zero_add, BitVec.toNat_ofNat]
    exact (Nat.mod_le _ _).trans_lt (len ▸ lt)
  rw [decodeBits]
  split_ifs with two four
  · exact ⟨_, decode16_of_lt ops (low 15 two)⟩
  · exact ⟨_, decode32_of_lt (low 31 four)⟩
  · exact ⟨_, rfl⟩

end Sys2Proof

namespace Sys2Proof.Machine

/-- A transaction that begins with a 0 is none of the five (R71). -/
theorem transactionOf_false_cons (ops : Opcodes) (rest : List Bool) : transactionOf ops (false :: rest) = none := by
  obtain ⟨_, first⟩ := decodeBits_false_cons ops (rest.take 15)
  obtain ⟨_, whole⟩ := decodeBits_false_cons ops rest
  rw [transactionOf, readAddress, List.take_succ_cons, first, whole]

/-- A WRITE framed with a shift below 3 begins with a 0, and so is none of the five (R93). -/
theorem transactionOf_write_shifted (ops : Opcodes) {shift : Nat} (A D : Nat) (below : shift < 3) :
    transactionOf ops (bitsOfBytes (encode ops shift (.write A D))) = none := by
  have low : (frameF32W shift (maskAddr A) (maskData D)).toNat < 2 ^ 31 := by
    rw [frameF32W_toNat _ _ below.le]
    exact writeFields_shiftLeft_lt (k := 2) _ _ (Nat.le_of_lt_succ below)
  rw [encode, bitsOfBytes_bytesOf, show 8 * 4 = 31 + 1 from rfl, bitsOf, Nat.testBit_lt_two_pow low]
  exact transactionOf_false_cons ops _

end Sys2Proof.Machine

section
open Sys2Proof Sys2Proof.Machine

/-- Settles O2: what decodes passed the tests of opcode and padding, which leave no bit of the frame open. -/
theorem decodedFrameEncodesBack : Obligations.DecodedFrameEncodesBack := by
  intro ops bytes i h
  have frame := isFrameOf_of_decode h
  exact ⟨frame.wellFormed, frame.selfFramed, frame.encodes⟩

/-- Settles O5: each field keeps its bits where the frame puts it. -/
theorem twoByteFrames : Obligations.TwoByteFrames := by
  intro ops shift A owned
  simp only [encode, frameF16A_toNat, frameF16C_toNat, maskAddr_toNat_eq_mod, and_self]

/-- Settles O6: no legal shift loses a bit, and below 3 the frame begins with a 0. -/
theorem shiftedWriteFrame : Obligations.ShiftedWriteFrame := by
  intro ops shift A D legal
  refine ⟨?_, fun unknown canonical => ?_, fun other => transactionOf_write_shifted ops A D (by omega)⟩
  · rw [encode, frameF32W_toNat _ _ legal, maskAddr_toNat_eq_mod, maskData_toNat_eq_mod]
  · rw [canonical, transactionOf_write] at unknown
    cases unknown

/-- Settles O35: the frame is sent, and the deassert that ends its transaction is refused. -/
theorem shiftedWriteIsUnknown : Obligations.ShiftedWriteIsUnknown := by
  intro s A D ready other
  have legal := ready.startable.legal
  simp only [legalCfg, Bool.and_eq_true, decide_eq_true_eq] at legal
  obtain ⟨⟨shift, _⟩, _⟩ := legal
  obtain ⟨sel, _, _, _, opcodes, _⟩ := transmitted_device (.write A D) s
  have unknown : transactionOf (transmitted (.write A D) s).opcodes (transmitted (.write A D) s).txs = none := by
    rw [opcodes, transmitted_txs]
    exact transactionOf_write_shifted s.opcodes A D (by omega)
  have refused : endTransaction ((transmitted (.write A D) s).setPhase .e1) = .refused .unknownTransaction :=
    endTransaction_unknown (transmitted_txs_ne_nil _ _) unknown
  rw [exec_transmits ready rfl, runSteps_end_refused _ _ sel refused, forgetIfStuck_refused]

/-- Settles O3: closed frames, decoded. -/
theorem sampleFramesDecode : Obligations.SampleFramesDecode := by
  unfold Obligations.SampleFramesDecode
  decide

/-- Settles O8: masking an operand first changes no frame. -/
theorem encodeMasksOperands : Obligations.EncodeMasksOperands := by
  intro ops shift A D owned
  rw [← maskAddr_toNat_eq_mod, ← maskData_toNat_eq_mod]
  exact ⟨(encode_latched ops shift (.read A owned)).symm, (encode_latched ops shift (.erase A)).symm,
    (encode_latched ops shift (.write A D)).symm⟩

end

/-! # The framer (40_framer.md): another bit order, and BEGIN_TXN and END_TXN run to their end -/

namespace Sys2Proof.Machine

/-- No command starts under another bit order (R114). -/
theorem runCommand_bitOrder (c : Command) {s : State} (idle : s.phase = .idle) (other : s.cfg.bitOrder ≠ .msbFirst) :
    runCommand c s = .refused .bitOrder := by
  rw [runCommand_eq, startCommand, startSteps, if_neg (not_not.2 idle), if_pos other, forgetIfStuck_refused]

/-- From a ready line BEGIN_TXN runs to its end, with a transaction open (R110). -/
theorem execBeginTxn_returns {s : State} (startable : Startable s) (line : LineReady s) :
    execBeginTxn s = .next ((opened (s.latchOp .beginTxn)).setPhase .idle) := by
  rw [execBeginTxn, startCommand_eq startable, beginSteps,
    runSteps_begin [] (s.latchOp .beginTxn) line.line line.notBusy (line.hold.trans (Nat.le_add_left _ _)), runSteps, forgetIfStuck_returned rfl]

/-- The end of a transaction with nothing clocked in has no effect (R71). -/
theorem endTransaction_empty {s : State} (empty : s.txs = []) : endTransaction s = .next s := by
  rw [endTransaction, if_pos empty]

/-- END_TXN of an open transaction with nothing clocked in closes it (R111, R71). -/
theorem execEndTxn_empty {s : State} (startable : Startable s) (sel : s.sel = true) (empty : s.txs = []) :
    execEndTxn s = .next ((closed ((s.latchOp .endTxn).setPhase .e1)).setPhase .idle) := by
  rw [execEndTxn, startCommand_eq startable, endSteps, runSteps_end [] (s.latchOp .endTxn) _ sel (endTransaction_empty empty), runSteps,
    forgetIfStuck_returned rfl]

/-- END_TXN with no transaction open drives the line and lets the wait pass (R111, R64). -/
theorem execEndTxn_deselected {s : State} (startable : Startable s) (sel : s.sel = false) :
    execEndTxn s = .next
      { s with
        op := .endTxn, phase := .idle, csOut := .deasserted, trace := s.trace ++ endEvents s.cfg, busyNs := s.busyNs - s.cfg.tCshNs
        idleNs := s.idleNs + s.cfg.tCshNs } := by
  rw [execEndTxn, startCommand_eq startable, endSteps, runSteps_end_deselected [] (s.latchOp .endTxn) sel, runSteps, forgetIfStuck_returned rfl]
  rfl

end Sys2Proof.Machine

section
open Sys2Proof Sys2Proof.Machine

/-- Settles O17: the state at the end is the one BEGIN_TXN's steps open. -/
theorem beginTxnOpensATransaction : Obligations.BeginTxnOpensATransaction :=
  fun _ startable line =>
    ⟨_, execBeginTxn_returns startable line, rfl, rfl, rfl, rfl, rfl, rfl, rfl, rfl, rfl, rfl, rfl, rfl, rfl, rfl, rfl, rfl⟩

/-- Settles O18: selected or not, the deassert finds nothing to carry out. -/
theorem endTxnOfAnEmptyTransaction : Obligations.EndTxnOfAnEmptyTransaction := by
  intro s startable empty
  cases sel : s.sel with
  | true => exact ⟨_, execEndTxn_empty startable sel (empty sel), rfl, rfl, rfl, rfl, rfl, rfl, rfl⟩
  | false => exact ⟨_, execEndTxn_deselected startable sel, rfl, rfl, rfl, sel, rfl, rfl, rfl⟩

/-- Settles O32: the bit order is asked right after PHASE, before the first step. -/
theorem otherBitOrderIsRefused : Obligations.OtherBitOrderIsRefused :=
  fun _ c idle other => runCommand_bitOrder c idle other

end

/-! # The codec (41_codec.md): a frame decodes to its instruction, so no two instructions share one, and the bytes of a WRITE -/

namespace Sys2Proof

/-! ### Decoding the encoder's frames (R138 f) -/

theorem decode_bytesOf_two (ops : Opcodes) (f : BitVec 16) : decode ops (bytesOf 2 f.toNat) = decode16 ops f := by
  rw [decode, bitsOfBytes_bytesOf, decodeBits_sixteen]

theorem decode_bytesOf_four (ops : Opcodes) (f : BitVec 32) : decode ops (bytesOf 4 f.toNat) = decode32 f := by
  rw [decode, bitsOfBytes_bytesOf, decodeBits_thirtyTwo]

/-- The canonical frame of any instruction decodes to what it carries: masked operands (R85), and no OWNED. -/
theorem decode_encode (ops : Opcodes) (i : Instr) : decode ops (encode ops 3 i) = .ok i.latched.selfFramed := by
  cases i with
  | read a o => exact (decode_bytesOf_two ops _).trans (decode16_read ops _)
  | erase a => exact (decode_bytesOf_two ops _).trans (decode16_erase ops _)
  | write a d => exact (decode_bytesOf_four ops _).trans (decode32_write _ _)
  | writeEnable => exact (decode_bytesOf_two ops _).trans (decode16_writeEnable ops)
  | writeDisable => exact (decode_bytesOf_two ops _).trans (decode16_writeDisable ops)

theorem toNat_maskAddr_of_lt {a : Nat} (fits : a < 2 ^ 10) : (maskAddr a).toNat = a := by
  rw [maskAddr_toNat_eq_mod, Nat.mod_eq_of_lt fits]

theorem toNat_maskData_of_lt {d : Nat} (fits : d < 2 ^ 16) : (maskData d).toNat = d := by
  rw [maskData_toNat_eq_mod, Nat.mod_eq_of_lt fits]

/-- Masking changes no operand that fits its field (R22, R23). -/
theorem latched_of_wellFormed {i : Instr} (wf : WellFormed i = true) : i.latched = i := by
  cases i with
  | read a o => rw [Instr.latched, toNat_maskAddr_of_lt (of_decide_eq_true wf)]
  | erase a => rw [Instr.latched, toNat_maskAddr_of_lt (of_decide_eq_true wf)]
  | write a d =>
    obtain ⟨addr, data⟩ := Bool.and_eq_true_iff.1 wf
    rw [Instr.latched, toNat_maskAddr_of_lt (of_decide_eq_true addr), toNat_maskData_of_lt (of_decide_eq_true data)]
  | writeEnable | writeDisable => rfl

/-! ### The bytes of a WRITE frame (R133) -/

theorem natOfBytes_bytesOf (n v : Nat) : natOfBytes (bytesOf n v) = v % 2 ^ (8 * n) := by
  rw [natOfBytes_eq, bitsOfBytes_bytesOf, natOfBits_bitsOf]

/-- The WRITE frame as R133 writes it: each field at its own place in the 32 bits. -/
theorem frameF32W_three_toNat (a : Addr) (d : Word) :
    (frameF32W 3 a d).toNat = (0b101 <<< 29) ||| (a.toNat <<< 19) ||| (d.toNat <<< 3) := by
  rw [frameF32W_toNat a d le_rfl, Nat.shiftLeft_or_distrib, Nat.shiftLeft_or_distrib, ← Nat.shiftLeft_add, ← Nat.shiftLeft_add]

/-- A field that begins above a byte leaves that byte 0. -/
theorem byte_below_field (v : Nat) {n k : Nat} (above : k + 8 ≤ n) : BitVec.ofNat 8 (v <<< n >>> k) = 0#8 := by
  obtain ⟨m, rfl⟩ := Nat.exists_eq_add_of_le' above
  apply BitVec.eq_of_toNat_eq
  rw [← Nat.shiftLeft_sub v (by omega), show m + (k + 8) - k = m + 8 by omega, Nat.shiftLeft_add, BitVec.toNat_ofNat, Nat.shiftLeft_eq _ 8,
    Nat.mul_mod_left, BitVec.toNat_ofNat, Nat.zero_mod]

/-- Three bits up, a byte holds the low five bits of a field. -/
theorem byte_low_five (v : Nat) : BitVec.ofNat 8 (v <<< 3) = BitVec.ofNat 8 ((v &&& 0x1F) <<< 3) := by
  apply BitVec.eq_of_toNat_eq
  rw [BitVec.toNat_ofNat, BitVec.toNat_ofNat, Nat.and_two_pow_sub_one_eq_mod v 5, Nat.shiftLeft_eq, Nat.shiftLeft_eq]
  omega

theorem byte_and_mask (v : Nat) : BitVec.ofNat 8 v = BitVec.ofNat 8 (v &&& 0xFF) := by
  apply BitVec.eq_of_toNat_eq
  rw [BitVec.toNat_ofNat, BitVec.toNat_ofNat, Nat.and_two_pow_sub_one_eq_mod v 8, Nat.mod_mod]

theorem shiftLeft_shiftRight_add (v m k : Nat) : v <<< m >>> (m + k) = v >>> k := by
  rw [Nat.shiftRight_add, Nat.shiftLeft_shiftRight]

/-- Each byte of a WRITE frame holds the parts of the fields that reach it; opcode and address share the first byte, address and data the second. -/
theorem bytesOf_writeFields (a d : Nat) (fits : d < 2 ^ 16) :
    bytesOf 4 ((0b101 <<< 29) ||| (a <<< 19) ||| (d <<< 3)) =
      [BitVec.ofNat 8 (0xA0 ||| (a >>> 5)), BitVec.ofNat 8 (((a &&& 0x1F) <<< 3) ||| (d >>> 13)),
        BitVec.ofNat 8 ((d >>> 5) &&& 0xFF), BitVec.ofNat 8 ((d &&& 0x1F) <<< 3)] := by
  simp only [bytesOf, Nat.reduceMul, Nat.shiftRight_or_distrib, BitVec.ofNat_or, ← byte_low_five, ← byte_and_mask, List.cons.injEq, and_true]
  refine ⟨?_, ?_, ?_, ?_⟩
  · have data : d <<< 3 >>> 24 = 0 := by
      rw [shiftLeft_shiftRight_add d 3 21]
      exact Nat.shiftRight_eq_zero _ _ (fits.trans (by decide))
    rw [shiftLeft_shiftRight_add a 19 5, data, BitVec.or_zero]
    rfl
  · rw [byte_below_field 0b101 (by decide), BitVec.zero_or, ← Nat.shiftLeft_sub a (by decide), shiftLeft_shiftRight_add d 3 13]
  · rw [byte_below_field 0b101 (by decide), byte_below_field a (by decide), BitVec.zero_or, BitVec.zero_or, shiftLeft_shiftRight_add d 3 5]
  · rw [byte_below_field 0b101 (by decide), byte_below_field a (by decide), BitVec.zero_or, BitVec.zero_or, Nat.shiftRight_zero]

end Sys2Proof

section
open Sys2Proof

/-- Settles O1: the frame decodes to what it carries, which is the whole of a well-formed instruction but OWNED. -/
theorem encodedInstructionDecodesBack : Obligations.EncodedInstructionDecodesBack := by
  intro ops i wf
  rw [decode_encode, latched_of_wellFormed wf]

/-- Settles O4: the frame is the number of its three fields, read byte by byte. -/
theorem writeFrameBytes : Obligations.WriteFrameBytes := by
  intro ops A D a d
  have fits : d < 2 ^ 16 := Nat.mod_lt _ (by decide)
  have number : (frameF32W 3 (maskAddr A) (maskData D)).toNat = (0b101 <<< 29) ||| (a <<< 19) ||| (d <<< 3) := by
    rw [frameF32W_three_toNat, maskAddr_toNat_eq_mod, maskData_toNat_eq_mod]
  rw [encode, natOfBytes_bytesOf, Nat.mod_eq_of_lt (BitVec.isLt _), number]
  exact ⟨bytesOf_writeFields a d fits, rfl⟩

/-- Settles O7: one frame decodes to one instruction. -/
theorem distinctInstructionsHaveDistinctFrames : Obligations.DistinctInstructionsHaveDistinctFrames := by
  intro ops i j wfI wfJ same
  have back := encodedInstructionDecodesBack ops i wfI
  rw [same, encodedInstructionDecodesBack ops j wfJ] at back
  exact (Except.ok.inj back).symm

end

/-! # The Response Decoder (42_decoder.md): DECODE as shifts of three bytes, and at an offset of whole bytes -/

namespace Sys2Proof

/-- One more byte moves the number up by eight bits (R11). -/
theorem natOfBytes_concat (bytes : List Byte) (b : Byte) : natOfBytes (bytes ++ [b]) = (natOfBytes bytes <<< 8) ||| b.toNat := by
  rw [← Nat.shiftLeft_add_eq_or_of_lt b.isLt, Nat.shiftLeft_eq, Nat.mul_comm, natOfBytes, List.foldl_append]
  rfl

theorem natOfBytes_singleton (b : Byte) : natOfBytes [b] = b.toNat :=
  Nat.zero_add _

theorem natOfBytes_pair (a b : Byte) : natOfBytes [a, b] = (a ++ b).toNat := by
  rw [BitVec.toNat_append, ← natOfBytes_singleton a]
  exact natOfBytes_concat [a] b

theorem natOfBytes_triple (a b c : Byte) : natOfBytes [a, b, c] = (a.toNat <<< 16) ||| (b.toNat <<< 8) ||| c.toNat := by
  rw [show [a, b, c] = [a, b] ++ [c] from rfl, natOfBytes_concat, natOfBytes_pair, BitVec.toNat_append, Nat.shiftLeft_or_distrib,
    ← Nat.shiftLeft_add]

end Sys2Proof

namespace Sys2Proof.Machine

/-- DECODE of three bytes: each byte moves to its own place, and what the third has past the word drops out (R151, R155). -/
theorem decodeResponse_triple {off : Nat} (le : off ≤ 8) (r0 r1 r2 : Byte) :
    decodeResponse off [r0, r1, r2] =
      .ok (BitVec.ofNat 16 ((r0.toNat <<< (8 + off)) ||| (r1.toNat <<< off) ||| (r2.toNat >>> (8 - off)))) := by
  have room : ¬8 * [r0, r1, r2].length < off + 16 := by simp only [List.length_cons, List.length_nil]; omega
  have cut : 8 * [r0, r1, r2].length - off - 16 = 8 - off := by simp only [List.length_cons, List.length_nil]; omega
  have high : r0.toNat <<< 16 >>> (8 - off) = r0.toNat <<< (8 + off) := by
    rw [← Nat.shiftLeft_sub _ (by omega)]
    congr 1
    omega
  have low : r1.toNat <<< 8 >>> (8 - off) = r1.toNat <<< off := by
    rw [← Nat.shiftLeft_sub _ (by omega), Nat.sub_sub_self le]
  rw [decodeResponse, if_neg room, cut, natOfBytes_triple, Nat.shiftRight_or_distrib, Nat.shiftRight_or_distrib, high, low]

/-- At an offset of whole bytes DECODE answers the two bytes there, whatever stands before and after them (R150, R154). -/
theorem decodeResponse_wholeBytes (before after : List Byte) (a b : Byte) :
    decodeResponse (8 * before.length) (before ++ ([a, b] ++ after)) = .ok (a ++ b) := by
  have room : 8 * before.length + 16 ≤ 8 * (before ++ ([a, b] ++ after)).length := by
    simp only [List.length_append, List.length_cons, List.length_nil]; omega
  have width : (bitsOfBytes [a, b]).length = 16 := bitsOfBytes_length [a, b]
  rw [decodeResponse_bits _ _ room, bitsOfBytes_append, List.drop_left' (bitsOfBytes_length before), bitsOfBytes_append,
    List.take_left' width, ← natOfBytes_eq, natOfBytes_pair, BitVec.ofNat_toNat, BitVec.setWidth_eq]

theorem decodeResponse_tooShort {off : Nat} {r : List Byte} (short : 8 * r.length < off + 16) :
    decodeResponse off r = .error .rxTooShort :=
  if_pos short

end Sys2Proof.Machine

section
open Sys2Proof Sys2Proof.Machine

/-- Settles O9: the three bytes at offset 1. -/
theorem canonicalDecodeFormula : Obligations.CanonicalDecodeFormula :=
  decodeResponse_triple (by decide)

/-- Settles O10: offsets 0 and 8 are whole bytes, 2 is not, and 17 and 25 bits are more than the buffers hold. -/
theorem otherOffsetsDecode : Obligations.OtherOffsetsDecode := fun r0 r1 r2 =>
  ⟨decodeResponse_wholeBytes [] [r2] r0 r1, decodeResponse_wholeBytes [r0] [] r1 r2, decodeResponse_triple (by decide) r0 r1 r2,
    decodeResponse_wholeBytes [] [] r0 r1, decodeResponse_tooShort (Nat.lt_succ_self 16), decodeResponse_tooShort (Nat.lt_succ_self 24)⟩

/-- Settles O11: DECODE is a function of the 16 bits after the offset. -/
theorem decodeIgnoresDummyAndGarbageBits : Obligations.DecodeIgnoresDummyAndGarbageBits := by
  intro off r r' len room same
  rw [decodeResponse_bits off r room, decodeResponse_bits off r' (len ▸ room), same]

/-- Settles O12: the device sends the word right after the skew bits, where DECODE takes it. -/
theorem decodeRecoversTheWordTheDeviceSends : Obligations.DecodeRecoversTheWordTheDeviceSends :=
  fun _ _ _ sel len address room => decodeResponse_received sel len address room

end

/-! # The sequencers (43_sequencers.md): what each command leaves at its end, what it leaves as it was, and one command after another -/

namespace Sys2Proof.Machine

/-! ### WRITE, ERASE and the latch commands at their end (R172 to R175) -/

/-- What the device sends while a self-framed command's frame is clocked in. -/
def frameAnswer (i : Instr) (s : State) : List Byte :=
  ((opened (commandLatch (.instr i) s)).loadTx (encode s.opcodes s.cfg.writeShift i)).received (encode s.opcodes s.cfg.writeShift i)

theorem frameAnswer_length (i : Instr) (s : State) : (frameAnswer i s).length = (encode s.opcodes s.cfg.writeShift i).length :=
  received_length _ _

/-- No transaction's effect touches the block or the trace (R66 to R69). -/
theorem carryOut_block (s : State) (i : Instr) : (s.carryOut i).trace = s.trace ∧ (s.carryOut i).op = s.op ∧ (s.carryOut i).addr = s.addr
    ∧ (s.carryOut i).wdata = s.wdata ∧ (s.carryOut i).txlen = s.txlen ∧ (s.carryOut i).txBytes = s.txBytes := by
  cases i with
  | erase a | write a d => rw [State.carryOut]; split_ifs <;> exact ⟨rfl, rfl, rfl, rfl, rfl, rfl⟩
  | read a o | writeEnable | writeDisable => exact ⟨rfl, rfl, rfl, rfl, rfl, rfl⟩

theorem transmitted_trace (i : Instr) (s : State) : (transmitted i s).trace =
    s.trace ++ beginEvents s.cfg ++ [.xfer (encode s.opcodes s.cfg.writeShift i) (frameAnswer i s)] := by
  obtain ⟨_, _, _, _, _, _, cfg, trace, _⟩ := commandLatch_kept (.instr i) s
  show (commandLatch (.instr i) s).trace ++ beginEvents (commandLatch (.instr i) s).cfg ++ _ = _
  rw [trace, cfg]
  rfl

theorem transmitted_txBytes (i : Instr) (s : State) : (transmitted i s).txBytes = encode s.opcodes s.cfg.writeShift i :=
  sent_txBytes _ _ (encode_length_le _ _ _)

/-- The events of a command without a receive phase, up to END_TXN's (R178). -/
theorem committed_trace (i : Instr) (s : State) : (committed i s).trace =
    s.trace ++ beginEvents s.cfg ++ [.xfer (encode s.opcodes s.cfg.writeShift i) (frameAnswer i s)] ++ endEvents s.cfg := by
  obtain ⟨trace, _⟩ := carryOut_block (transmitted i s) i
  rw [← transmitted_trace, ← trace, ← committed_cfg i s]
  rfl

/-- The block's registers at the end of a command without a receive phase: the tag and the operands as latched, the frame in TXBUF. -/
theorem committed_registers (i : Instr) (s : State) :
    (committed i s).op = (commandLatch (.instr i) s).op ∧ (committed i s).addr = (commandLatch (.instr i) s).addr
      ∧ (committed i s).wdata = (commandLatch (.instr i) s).wdata ∧ (committed i s).txlen = (encode s.opcodes s.cfg.writeShift i).length
      ∧ (committed i s).txBytes = encode s.opcodes s.cfg.writeShift i := by
  obtain ⟨_, op, addr, wdata, txlen, txBytes⟩ := carryOut_block (transmitted i s) i
  exact ⟨op, addr, wdata, txlen, txBytes.trans (transmitted_txBytes i s)⟩

/-- With the latch clear no transaction changes the array (R66, R67, R239). -/
theorem carryOut_ee_of_latch_clear (i : Instr) {s : State} (clear : s.wel = false) : (s.carryOut i).ee = s.ee := by
  cases i with
  | erase a | write a d => rw [State.carryOut, clear]; rfl
  | read a o | writeEnable | writeDisable => rfl

theorem committed_ee_of_latch_clear (i : Instr) {s : State} (clear : s.wel = false) : (committed i s).ee = s.ee := by
  obtain ⟨_, _, ee, wel, _⟩ := transmitted_device i s
  exact (carryOut_ee_of_latch_clear i (wel.trans clear)).trans ee

/-- The array and the latch at the end are those the command makes of the ones before (R72). -/
theorem viewOf_committed (i : Instr) (s : State) : viewOf (committed i s) = (viewOf s).after s.dev.erasedWord i := by
  obtain ⟨_, _, ee, wel, _, dev, _⟩ := transmitted_device i s
  have view : viewOf (transmitted i s) = viewOf s := by rw [viewOf, ee, wel, ← viewOf]
  rw [← view, ← dev, ← viewOf_carryOut]
  rfl

/-- The cycle starts at the end of its transaction, if the latch is set, and the hold wait takes from it (R66, R67, R70). -/
theorem committed_busyNs (i : Instr) (s : State) :
    (committed i s).busyNs = (if s.wel then 1000000 * s.cycleMs i else 0) - s.cfg.tCshNs := by
  rw [← committed_cfg i s]
  refine congrArg (· - (committed i s).cfg.tCshNs) (?_ : ((transmitted i s).carryOut i).busyNs = _)
  cases i with
  | erase A | write A D =>
    show State.busyNs (if s.wel then _ else _) = _
    split_ifs <;> rfl
  | read A owned | writeEnable | writeDisable => exact (ite_self _).symm

/-- A WRITE changes its own word only, and that only with the latch set (R172, R239). -/
theorem View.after_write_array (erased : Word) (v : View) (a d : Nat) (b : Addr) : (v.after erased (.write a d)).array b =
    if v.enabled = true ∧ b = maskAddr a then maskData d else v.array b := by
  cases he : v.enabled <;> simp [View.after, he, Function.update_apply]

/-- An ERASE changes its own word only, and that only with the latch set (R173, R239). -/
theorem View.after_erase_array (erased : Word) (v : View) (a : Nat) (b : Addr) : (v.after erased (.erase a)).array b =
    if v.enabled = true ∧ b = maskAddr a then erased else v.array b := by
  cases he : v.enabled <;> simp [View.after, he, Function.update_apply]

theorem View.after_write_enabled (erased : Word) (v : View) (a d : Nat) : (v.after erased (.write a d)).enabled = v.enabled := by
  rw [View.after]
  split_ifs <;> rfl

theorem View.after_erase_enabled (erased : Word) (v : View) (a : Nat) : (v.after erased (.erase a)).enabled = v.enabled := by
  rw [View.after]
  split_ifs <;> rfl

/-! ### READ, self-framed and caller-framed, at its end (R171, R176) -/

theorem answered_rxbuf_length (A : Nat) (s : State) : (answered A s).rxbuf.length = s.cfg.rxBytes :=
  receivedInto_rxbuf_length _

/-- What a self-framed READ receives is no second frame (R275). -/
theorem answered_secondFrame (A : Nat) (s : State) : (answered A s).secondFrame = false :=
  receivedInto_sent_secondFrame _ _ rfl rfl rfl (bytesOf_length _ _)

theorem answered_trace (A : Nat) (s : State) : (answered A s).trace = s.trace ++ beginEvents s.cfg
    ++ [.xfer (encode s.opcodes s.cfg.writeShift (.read A false)) (frameAnswer (.read A false) s), .recv s.cfg.rxBytes (answered A s).rxbuf] := by
  show (transmitted (.read A false) s).trace ++ [.recv s.cfg.rxBytes (answered A s).rxbuf] = _
  rw [transmitted_trace, List.append_assoc _ [_] [_]]
  rfl

/-- The state of a caller-framed READ once the word is received (R176). -/
def answeredOwned (A : Nat) (s : State) : State :=
  receivedInto (sent (latchRead A true s) (encode s.opcodes s.cfg.writeShift (.read A true)))

/-- A caller-framed READ comes to its end with the word decoded from what was received, and no event of chip-select (R176). -/
theorem exec_owned_read_decodes {A : Nat} {s : State} {w : Word} (startable : Startable s) (returns : s.fatalIn = none)
    (setup : s.setupViolated = false) (hw : decodeResponse s.cfg.rxAlignOffset (answeredOwned A s).rxbuf = .ok w) :
    exec (.read A true) s = .next (((answeredOwned A s).setRdata w).setPhase .idle) := by
  have frame : encode s.opcodes s.cfg.writeShift (.read (maskAddr A).toNat true) = encode s.opcodes s.cfg.writeShift (.read A true) :=
    encode_latched _ _ (.read A true)
  have sends : runSteps [.enc, .tx, .rx, .dec] (latchRead A true s) =
      runSteps [.rx, .dec] (sent (latchRead A true s) (encode s.opcodes s.cfg.writeShift (.read A true))) :=
    frame ▸ runSteps_send _ (latchRead A true s) (.read (maskAddr A).toNat true) rfl (encode_length_le _ _ _) setup returns
  have receives : runSteps [.rx, .dec] (sent (latchRead A true s) (encode s.opcodes s.cfg.writeShift (.read A true))) =
      runSteps [.dec] (answeredOwned A s) :=
    runSteps_receive _ _ (sent_setupViolated _ _ (encode_length_pos _ _ _)) returns
  rw [exec_read, startCommand_eq startable, readSteps, if_pos rfl, sends, receives]
  exact congrArg forgetIfStuck (runSteps_dec hw)

/-- What a block with the device's offset receives after a READ's frame decodes to the word addressed (R157). -/
theorem decodeResponse_receivedInto {s : State} {a : Addr} (legal : legalCfg s.cfg = true) (offset : s.cfg.rxAlignOffset = s.dev.rxSkew)
    (sel : s.sel = true) (len : s.txs.length = 16) (address : readAddress s.opcodes s.txs = some a) :
    decodeResponse s.cfg.rxAlignOffset (receivedInto s).rxbuf = .ok (memRead s.ee a) := by
  simp only [legalCfg, Bool.and_eq_true, decide_eq_true_eq] at legal
  rw [offset]
  refine decodeResponse_received sel len address ?_
  rw [fillBytes_length, ← offset]
  exact legal.2

theorem FreshTransaction.setupViolated {s : State} (h : FreshTransaction s) : s.setupViolated = false := by
  simp [State.setupViolated, h.setup]

/-- In a fresh transaction a caller-framed READ receives the word addressed (R176). -/
theorem decodeResponse_answeredOwned {s : State} (A : Nat) (legal : legalCfg s.cfg = true) (fresh : FreshTransaction s)
    (offset : s.cfg.rxAlignOffset = s.dev.rxSkew) :
    decodeResponse s.cfg.rxAlignOffset (answeredOwned A s).rxbuf = .ok (memRead s.ee (maskAddr A)) := by
  have txs := sent_txs (latchRead A true s) (encode s.opcodes s.cfg.writeShift (.read A true)) fresh.selected fresh.empty
  refine decodeResponse_receivedInto (s := sent (latchRead A true s) _) legal offset fresh.selected ?_ ?_
  · rw [txs, bitsOfBytes_length]; rfl
  · rw [txs, ← List.append_nil (bitsOfBytes _)]; exact readAddress_read _ _ _ _ _

theorem answeredOwned_rxbuf_length (A : Nat) (s : State) : (answeredOwned A s).rxbuf.length = s.cfg.rxBytes :=
  receivedInto_rxbuf_length _

theorem answeredOwned_trace (A : Nat) (s : State) : ∃ rx, rx.length = 2 ∧ (answeredOwned A s).trace = s.trace
    ++ [.xfer (encode s.opcodes s.cfg.writeShift (.read A true)) rx, .recv s.cfg.rxBytes (answeredOwned A s).rxbuf] :=
  ⟨_, received_length ((latchRead A true s).loadTx (encode s.opcodes s.cfg.writeShift (.read A true))) _, List.append_assoc _ [_] [_]⟩

/-! ### A caller-framed READ without a transaction (R64, R176) -/

/-- A deselected device takes no frame in. -/
theorem sent_deselected {s : State} (frame : List Byte) (sel : s.sel = false) : (sent s frame).txs = s.txs := by
  simp [sent, State.clockIn, State.advanceDraws, State.loadTx, sel]

theorem receivedInto_deselected {s : State} (sel : s.sel = false) : (receivedInto s).txs = s.txs := by
  simp [receivedInto, State.clockIn, State.advanceDraws, sel]

theorem answeredOwned_deselected_rxbuf (A : Nat) {s : State} (sel : s.sel = false) :
    ∃ d, (answeredOwned A s).rxbuf = bytesOfBits (drawBits d (8 * s.cfg.rxBytes)) :=
  ⟨_, (received_deselected (s := sent (latchRead A true s) _) _ sel).trans (by rw [fillBytes_length]; rfl)⟩

/-! ### A READ in the caller's frame and in its own (R176, R269) -/

/-- The frame sent and the answer to it do not depend on PHASE and OWNED. -/
theorem sent_latchOwned_setPhase (s : State) (b : Bool) (p : Phase) (frame : List Byte) :
    sent ((s.latchOwned b).setPhase p) frame = (sent s frame).latchOwned b := by
  have answer : (((s.latchOwned b).setPhase p).loadTx frame).received frame = (s.loadTx frame).received frame :=
    received_congr _ rfl rfl rfl rfl rfl rfl
  simp only [sent, answer]
  rfl

theorem receivedInto_latchOwned (s : State) (b : Bool) : receivedInto (s.latchOwned b) = (receivedInto s).latchOwned b := by
  have answer : (s.latchOwned b).received (s.fillBytes s.cfg.rxBytes) = s.received (s.fillBytes s.cfg.rxBytes) :=
    received_congr _ rfl rfl rfl rfl rfl rfl
  have fill : (s.latchOwned b).fillBytes s.cfg.rxBytes = s.fillBytes s.cfg.rxBytes := rfl
  simp only [receivedInto, latchOwned_cfg, fill, answer]
  rfl

/-- The state after BEGIN_TXN as a command of its own (R110). -/
def begun (s : State) : State := (opened (s.latchOp .beginTxn)).setPhase .idle

/-- After BEGIN_TXN a caller-framed READ receives what the self-framed one does (R176). -/
theorem answeredOwned_begun (A : Nat) (s : State) : answeredOwned A (begun s) = (answered A s).latchOwned true := by
  have latched : latchRead A true (begun s) = ((opened (latchRead A false s)).latchOwned true).setPhase .idle := rfl
  rw [answeredOwned, latched, sent_latchOwned_setPhase, receivedInto_latchOwned]
  rfl

theorem begun_startable {s : State} (h : Startable s) : Startable (begun s) := ⟨rfl, h.order, h.legal⟩

theorem begun_setupViolated {s : State} (h : LineReady s) : (begun s).setupViolated = false :=
  decide_eq_false (Nat.not_lt.2 h.setup)

/-- END_TXN after a READ of one frame closes its transaction without an effect (R65, R111). -/
theorem execEndTxn_after_read {s : State} {a : Addr} (startable : Startable s) (sel : s.sel = true)
    (address : readAddress s.opcodes s.txs = some a) (one : s.secondFrame = false) :
    execEndTxn s = .next ((closed ((s.latchOp .endTxn).setPhase .e1)).setPhase .idle) := by
  rw [execEndTxn, startCommand_eq startable, endSteps, runSteps_end [] (s.latchOp .endTxn) _ sel (endTransaction_read address one), runSteps,
    forgetIfStuck_returned rfl]

/-! ### What a command leaves as it was (R171 to R175): from the first deassert to the last step -/

/-- The remaining steps of a command that returned, if none of them is a deassert, leave the array and the latch. -/
theorem runSteps_returned_ee_wel {steps : List Phase} {s t : State} (h : runSteps steps s = .next t) (returned : t.phase = .idle)
    (b1 : .b1 ∉ steps) (e1 : .e1 ∉ steps) : t.ee = s.ee ∧ t.wel = s.wel := by
  obtain ⟨ee, wel, _⟩ := (runSteps_returned_kept h returned).2 b1 e1
  exact ⟨ee, wel⟩

/-- A command that returned was not stuck at its transfer. -/
theorem not_stuckAt_of_returned {p : Phase} {s t : State} (returned : t.phase = .idle) (hp : p ≠ .idle) : ¬ StuckAt p s t :=
  fun h => hp (h.phase.symm.trans returned)

/-- BEGIN_TXN's steps, ENC and TX of a command that returned: its frame is all that is clocked in, and only a transaction open before could
change the array or the latch (R110). -/
theorem runSteps_open_send_next {rest : List Phase} {s t : State} {i : Instr} (hi : s.opInstr = some i)
    (h : runSteps (.b1 :: .b2 :: .b3 :: .b4 :: .enc :: .tx :: rest) s = .next t) (returned : t.phase = .idle) :
    ∃ u, runSteps rest u = .next t ∧ u.sel = true ∧ u.txs = bitsOfBytes (encode s.opcodes s.cfg.writeShift i) ∧ u.opcodes = s.opcodes
      ∧ (∀ k, Outside s.transactionWord k → Memory.read u.ee k = Memory.read s.ee k)
      ∧ ((s.sel = true → s.txs = []) → u.ee = s.ee ∧ u.wel = s.wel) := by
  obtain ⟨b, h, kb, sel, txs, _, _, _, _, outside, _, empty⟩ := runSteps_begin_next h
  obtain ⟨u, h, ku, ee, wel, sel', txs', _⟩ :=
    (runSteps_send_next (kb.opInstr.trans hi) h).resolve_left (not_stuckAt_of_returned returned (by decide))
  rw [sel, if_pos rfl, txs, kb.opcodes, kb.cfg] at txs'
  exact ⟨u, h, sel'.trans sel, txs', ku.opcodes.trans kb.opcodes, fun k hk => by rw [ee, outside k hk],
    fun hn => by rw [ee, wel]; exact empty hn⟩

/-- END_TXN's steps of a command that returned, and what follows them: the effect is that of the transaction. -/
theorem runSteps_close_next {rest : List Phase} {s t : State} (h : runSteps (.e1 :: .e2 :: rest) s = .next t) (returned : t.phase = .idle)
    (sel : s.sel = true) (b1 : .b1 ∉ rest) (e1 : .e1 ∉ rest) :
    ∃ u, endTransaction (s.setPhase .e1) = .next u ∧ t.ee = u.ee ∧ t.wel = u.wel := by
  obtain ⟨v, u, h, _, _, _, _, _, ends, ee, wel, _⟩ := runSteps_end_next h
  rw [sel, if_pos rfl] at ends
  obtain ⟨ee', wel'⟩ := runSteps_returned_ee_wel h returned b1 e1
  exact ⟨u, ends, ee'.trans ee, wel'.trans wel⟩

/-- A command without a receive phase that returned: its frame is the transaction at the last deassert, in an array and with a latch that only
a transaction open before could change. -/
theorem exec_commit_next {i : Instr} {s t : State} {rest : List Phase} (h : exec i s = .next t) (returned : t.phase = .idle)
    (steps : commandSteps (.instr i) = .b1 :: .b2 :: .b3 :: .b4 :: .enc :: .tx :: .e1 :: .e2 :: rest) (b1 : .b1 ∉ rest) (e1 : .e1 ∉ rest) :
    ∃ u v, endTransaction u = .next v ∧ u.txs = bitsOfBytes (encode s.opcodes s.cfg.writeShift i) ∧ u.opcodes = s.opcodes
      ∧ (∀ k, Outside s.transactionWord k → Memory.read u.ee k = Memory.read s.ee k)
      ∧ ((s.sel = true → s.txs = []) → u.ee = s.ee ∧ u.wel = s.wel)
      ∧ t.ee = v.ee ∧ t.wel = v.wel := by
  obtain ⟨_, _, _, _, _, _, cfg, _, ee, wel, _, sel, txs, _, _, _, opcodes, _⟩ := commandLatch_kept (.instr i) s
  have word : (commandLatch (.instr i) s).transactionWord = s.transactionWord := by simp only [State.transactionWord, sel, txs, opcodes]
  rw [exec_eq, steps] at h
  obtain ⟨u, h, usel, utxs, uopcodes, outside, empty⟩ :=
    runSteps_open_send_next (opInstr_commandLatch i s) (startCommand_returned h returned).2 returned
  obtain ⟨v, ends, hv⟩ := runSteps_close_next h returned usel b1 e1
  rw [encode_latched, opcodes, cfg] at utxs
  rw [word, ee] at outside
  rw [sel, txs, ee, wel] at empty
  exact ⟨u.setPhase .e1, v, ends, utxs, uopcodes.trans opcodes, outside, empty, hv⟩

/-! ### The transaction of one's own frame (R66 to R69) -/

/-- A legal WRITE shift is at most 3 (R33). -/
theorem writeShift_le_of_legalCfg {c : Cfg} (h : legalCfg c = true) : c.writeShift ≤ 3 := by
  simp only [legalCfg, Bool.and_eq_true, decide_eq_true_eq] at h
  exact h.1.1

/-- A WRITE's frame, at whatever shift it went out, is no transaction but a WRITE of its address (R66, R71). -/
theorem transactionOf_write_legal {ops : Opcodes} {shift A D : Nat} {i : Instr} (legal : shift ≤ 3)
    (h : transactionOf ops (bitsOfBytes (encode ops shift (.write A D))) = some i) :
    i = .write (maskAddr A).toNat (maskData D).toNat := by
  rcases legal.lt_or_eq with below | rfl
  · rw [transactionOf_write_shifted ops A D below] at h; cases h
  · rw [transactionOf_write] at h; exact (Option.some.inj h).symm

/-- The end of a transaction that can only be a WRITE or an ERASE of the word `a` leaves the other words and the latch, and the array too with the
latch clear (R66, R67). -/
theorem endTransaction_store_frame {s t : State} {a : Addr} (h : endTransaction s = .next t)
    (own : ∀ i, transactionOf s.opcodes s.txs = some i → (∃ d, i = .write a.toNat d) ∨ i = .erase a.toNat) :
    (∀ k, Outside [a] k → Memory.read t.ee k = Memory.read s.ee k) ∧ t.wel = s.wel ∧ (s.wel = false → t.ee = s.ee) := by
  obtain ⟨bytes, _, clear⟩ := endTransaction_ee h
  refine ⟨fun k hk => bytes k fun b d ht => ?_, ?_, clear⟩
  · suffices b = a.toNat by rwa [this, maskAddr_toNat]
    rcases ht with ht | ht <;> obtain ⟨_, hi⟩ | hi := own _ ht <;> cases hi <;> rfl
  · obtain rfl | ⟨_, _, ht⟩ | ⟨_, _, ht⟩ | ⟨_, _, _, _, rfl, _⟩ := endTransaction_next h
    · rfl
    · obtain ⟨_, hi⟩ | hi := own _ ht <;> cases hi
    · obtain ⟨_, hi⟩ | hi := own _ ht <;> cases hi
    · rfl

/-- The end of a transaction of a latch command leaves the array (R68, R69). -/
theorem endTransaction_latch_ee {s t : State} (h : endTransaction s = .next t)
    (own : transactionOf s.opcodes s.txs = some .writeEnable ∨ transactionOf s.opcodes s.txs = some .writeDisable) : t.ee = s.ee := by
  obtain rfl | ⟨rfl, _⟩ | ⟨rfl, _⟩ | ⟨a, d, w, ms, _, _, _, ht⟩ := endTransaction_next h
  · rfl
  · rfl
  · rfl
  · rcases own with own | own <;> rw [own] at ht <;> rcases ht with ht | ht <;> cases ht

/-- The end of a READ transaction, if it is not refused, does nothing (R65). -/
theorem endTransaction_read_frame {s t : State} {a : Addr} (h : endTransaction s = .next t) (own : readAddress s.opcodes s.txs = some a) :
    t = s := by
  have ht : transactionOf s.opcodes s.txs = some (.read a.toNat false) := by rw [transactionOf, own]
  obtain rfl | ⟨_, _, hi⟩ | ⟨_, _, hi⟩ | ⟨_, _, _, _, _, _, _, hi | hi⟩ := endTransaction_next h
  · rfl
  all_goals rw [ht] at hi; cases hi

theorem outside_cons {a : Addr} {words : List Addr} {k : Nat} : Outside (a :: words) k ↔ Outside [a] k ∧ Outside words k := by
  simp [Outside]

/-! ### The frames of the commands that have returned -/

/-- A WRITE or an ERASE of the word `a` that has returned (R172, R173). -/
theorem exec_store_frame {i : Instr} {s t : State} {a : Addr} {rest : List Phase} (h : exec i s = .next t) (returned : t.phase = .idle)
    (steps : commandSteps (.instr i) = .b1 :: .b2 :: .b3 :: .b4 :: .enc :: .tx :: .e1 :: .e2 :: rest) (b1 : .b1 ∉ rest) (e1 : .e1 ∉ rest)
    (own : ∀ j, transactionOf s.opcodes (bitsOfBytes (encode s.opcodes s.cfg.writeShift i)) = some j →
      (∃ d, j = .write a.toNat d) ∨ j = .erase a.toNat) :
    (∀ k, Outside (a :: s.transactionWord) k → Memory.read t.ee k = Memory.read s.ee k)
      ∧ ((s.sel = true → s.txs = []) → t.wel = s.wel ∧ (s.wel = false → t.ee = s.ee)) := by
  obtain ⟨u, v, ends, txs, opcodes, outside, empty, ee, wel⟩ := exec_commit_next h returned steps b1 e1
  obtain ⟨bytes, latch, clear⟩ := endTransaction_store_frame ends (by rwa [opcodes, txs])
  refine ⟨fun k hk => ?_, fun hn => ?_⟩
  · obtain ⟨ha, hw⟩ := outside_cons.1 hk
    rw [ee, bytes k ha, outside k hw]
  · obtain ⟨uee, uwel⟩ := empty hn
    rw [ee, wel, latch, uwel, ← uee]
    exact ⟨rfl, fun hc => clear (uwel.trans hc)⟩

/-- A latch command that has returned (R174, R175). -/
theorem exec_latch_frame {i : Instr} {s t : State} (h : exec i s = .next t) (returned : t.phase = .idle)
    (hi : i = .writeEnable ∨ i = .writeDisable) :
    (∀ k, Outside s.transactionWord k → Memory.read t.ee k = Memory.read s.ee k) ∧ ((s.sel = true → s.txs = []) → t.ee = s.ee) := by
  have steps : commandSteps (.instr i) = [.b1, .b2, .b3, .b4, .enc, .tx, .e1, .e2] := by rcases hi with rfl | rfl <;> rfl
  obtain ⟨u, v, ends, txs, opcodes, outside, empty, ee, _⟩ := exec_commit_next h returned steps (by simp) (by simp)
  have same : v.ee = u.ee := by
    refine endTransaction_latch_ee ends ?_
    rw [opcodes, txs]
    rcases hi with rfl | rfl
    · exact .inl (transactionOf_writeEnable _ _)
    · exact .inr (transactionOf_writeDisable _ _)
  rw [ee, same]
  exact ⟨outside, fun hn => (empty hn).1⟩

/-- A self-framed READ that has returned (R171). -/
theorem exec_read_frame {A : Nat} {s t : State} (h : exec (.read A false) s = .next t) (returned : t.phase = .idle) :
    (∀ k, Outside s.transactionWord k → Memory.read t.ee k = Memory.read s.ee k)
      ∧ ((s.sel = true → s.txs = []) → t.ee = s.ee ∧ t.wel = s.wel) := by
  have hi : (latchRead A false s).opInstr = some (.read (maskAddr A).toNat false) := rfl
  obtain ⟨u, h, sel, txs, opcodes, outside, empty⟩ := runSteps_open_send_next hi (startCommand_returned h returned).2 returned
  obtain ⟨v, h, kv, vee, vwel, vsel, vtxs, _⟩ := (runSteps_receive_next h).resolve_left fun hs =>
    not_stuckAt_of_returned returned (by decide) hs.1
  obtain ⟨w, ends, ee, wel⟩ := runSteps_close_next h returned (vsel.trans sel) (by decide) (by decide)
  have address : readAddress v.opcodes v.txs = some (maskAddr (maskAddr A).toNat) := by
    rw [vtxs, if_pos sel, txs, kv.opcodes, opcodes, readAddress_read]
  obtain rfl := endTransaction_read_frame ends address
  rw [ee, wel, setPhase_ee, setPhase_wel, vee, vwel]
  exact ⟨outside, empty⟩

/-- The steps of a caller-framed READ let no time pass at the device (R64, R176). -/
theorem act_timers {p : Phase} {s t : State} (hp : p ∈ readSteps true) (h : act p s = .next t) :
    t.idleNs = s.idleNs ∧ t.busyNs = s.busyNs := by
  simp only [readSteps, if_true, List.mem_cons, List.not_mem_nil, or_false] at hp
  rcases hp with rfl | rfl | rfl | rfl
  · obtain rfl | ⟨i, _, rfl⟩ := act_enc_next h <;> exact ⟨rfl, rfl⟩
  · obtain ⟨_, rfl⟩ := callXfer_next h
    simp
  · obtain ⟨u, hu, rfl⟩ := act_rx_next h
    obtain ⟨_, rfl⟩ := callRecv_next hu
    simp
  · obtain ⟨w, rfl⟩ := act_dec_next h
    exact ⟨rfl, rfl⟩

/-- A caller-framed READ that has returned (R176). -/
theorem exec_owned_read_frame {A : Nat} {s t : State} (h : exec (.read A true) s = .next t) (returned : t.phase = .idle) :
    (t.sel = s.sel ∧ t.idleNs = s.idleNs ∧ t.busyNs = s.busyNs ∧ t.cycleAddr = s.cycleAddr) ∧ t.ee = s.ee ∧ t.wel = s.wel := by
  obtain ⟨_, hr⟩ := startCommand_returned h returned
  obtain ⟨sel, array⟩ := runSteps_returned_kept hr returned
  obtain ⟨ee, wel, cycleAddr⟩ := array (by decide) (by decide)
  obtain ⟨idleNs, busyNs⟩ := runSteps_induction_returned (P := fun u => u.idleNs = s.idleNs ∧ u.busyNs = s.busyNs) (fun _ _ hu => hu) _
    (fun p hp u v ⟨idle, busy⟩ hv => (act_timers hp hv).imp (·.trans idle) (·.trans busy)) (s := latchRead A true s)
    ⟨rfl, rfl⟩ hr returned
  exact ⟨⟨sel (by decide) (by decide) (by decide), idleNs, busyNs, cycleAddr⟩, ee, wel⟩

/-! ### One command after another (R180) -/

/-- A READ after any self-framed command returns the word that command leaves at its address (R171, R180). -/
theorem exec_then_read (i : Instr) (A : Nat) {s : State} (ready : Ready s) (cal : Calibrated s) :
    ∃ t u, exec i.selfFramed s = .next t ∧ exec (.read A false) t = .next u
      ∧ u.rdata = ((viewOf s).after s.dev.erasedWord i).array (maskAddr A) := by
  obtain ⟨t, ht, h⟩ := exec_refines i ready cal
  obtain ⟨ready', cal'⟩ := h.ready ht ready cal
  obtain ⟨u, hu, _⟩ := exec_refines (.read A false) ready' cal'
  exact ⟨t, u, ht, hu, by rw [exec_read_rdata A ready' cal' hu, h.view]⟩

end Sys2Proof.Machine

section
open Sys2Proof Sys2Proof.Machine

/-- Settles O19: the READ decodes what it receives, which a block with the device's offset receives as the word. -/
theorem readReturnsTheAddressedWord : Obligations.ReadReturnsTheAddressedWord := by
  intro s A ready
  obtain ⟨w, hw⟩ := decodeResponse_ok ready.startable.legal (answered_rxbuf_length A s)
  refine ⟨_, frameAnswer (.read A false) s, (answered A s).rxbuf, exec_read_decodes ready hw, hw, fun offset => ?_,
    congrArg (· ++ _) (answered_trace A s), frameAnswer_length _ _, answered_rxbuf_length A s, rfl, rfl, rfl, rfl, rfl,
    transmitted_txBytes (.read A false) s, rfl, rfl, rfl, rfl, rfl, Nat.zero_sub _⟩
  exact Except.ok.inj (hw.symm.trans (decodeResponse_answered A ready offset))

/-- Settles O20: the frame and the receive phase fall in the caller's transaction. -/
theorem callerFramedReadReturnsTheWord : Obligations.CallerFramedReadReturnsTheWord := by
  intro s A startable returns fresh
  obtain ⟨w, hw⟩ := decodeResponse_ok startable.legal (answeredOwned_rxbuf_length A s)
  obtain ⟨rx, _, trace⟩ := answeredOwned_trace A s
  refine ⟨_, rx, (answeredOwned A s).rxbuf, exec_owned_read_decodes startable returns fresh.setupViolated hw, hw, fun offset => ?_,
    trace, rfl, rfl, rfl, rfl, rfl, rfl, fresh.selected, rfl, rfl⟩
  exact Except.ok.inj (hw.symm.trans (decodeResponse_answeredOwned A startable.legal fresh offset))

/-- Settles O21: a deselected device takes nothing in and answers with draws. -/
theorem callerFramedReadWithoutATransaction : Obligations.CallerFramedReadWithoutATransaction := by
  intro s A startable returns sel
  obtain ⟨w, hw⟩ := decodeResponse_ok startable.legal (answeredOwned_rxbuf_length A s)
  obtain ⟨d, draws⟩ := answeredOwned_deselected_rxbuf A sel
  obtain ⟨rx, two, trace⟩ := answeredOwned_trace A s
  have setup : s.setupViolated = false := by simp [State.setupViolated, sel]
  have ends := exec_owned_read_decodes startable returns setup hw
  have txs : (answeredOwned A s).txs = s.txs :=
    (receivedInto_deselected (s := sent (latchRead A true s) _) sel).trans (sent_deselected (s := latchRead A true s) _ sel)
  rw [draws] at hw trace
  exact ⟨_, rx, d, ends, hw, trace, two, rfl, rfl, sel, txs, rfl, rfl, rfl, rfl, rfl⟩

/-- Settles O22: after BEGIN_TXN the caller-framed READ comes to the state the self-framed one comes to, OWNED apart, and END_TXN's steps are
its own last ones. -/
theorem callerFramedTraceEqualsSelfFramedTrace : Obligations.CallerFramedTraceEqualsSelfFramedTrace := by
  intro s A ready
  obtain ⟨w, hw⟩ := decodeResponse_ok ready.startable.legal (answered_rxbuf_length A s)
  have read := exec_owned_read_decodes (A := A) (begun_startable ready.startable) ready.returns (begun_setupViolated ready.lineReady)
    (by rw [answeredOwned_begun]; exact hw)
  rw [answeredOwned_begun] at read
  exact ⟨_, _, _, _, execBeginTxn_returns ready.startable ready.lineReady, read,
    execEndTxn_after_read ⟨rfl, ready.startable.order, ready.startable.legal⟩ rfl (readAddress_answered A s) (answered_secondFrame A s),
    exec_read_decodes ready hw, rfl, rfl, rfl, rfl⟩

/-- Settles O23: the transaction of the frame is a WRITE, whose effect on array and latch is that on the view. -/
theorem writeStoresTheWordIfTheLatchIsSet : Obligations.WriteStoresTheWordIfTheLatchIsSet := by
  intro s A D ready shift
  obtain ⟨op, addr, wdata, txlen, txBytes⟩ := committed_registers (.write A D) s
  have view := viewOf_committed (.write A D) s
  have trace := committed_trace (.write A D) s
  rw [shift] at txBytes trace
  exact ⟨_, frameAnswer (.write A D) s, exec_write_returns A D ready shift,
    fun b => (congrFun (congrArg View.array view) b).trans (View.after_write_array _ _ A D b), committed_ee_of_latch_clear _,
    congrArg (· ++ _) trace, frameAnswer_length _ _, op, addr, wdata, txlen, txBytes, rfl, rfl, rfl,
    (congrArg View.enabled view).trans (View.after_write_enabled _ _ A D), congrArg (· - _) (committed_busyNs _ s)⟩

/-- Settles O24: as O23, with the erased word and the erase cycle. -/
theorem eraseSetsTheErasedWordIfTheLatchIsSet : Obligations.EraseSetsTheErasedWordIfTheLatchIsSet := by
  intro s A ready
  obtain ⟨op, addr, _, txlen, txBytes⟩ := committed_registers (.erase A) s
  have view := viewOf_committed (.erase A) s
  exact ⟨_, frameAnswer (.erase A) s, exec_erase_returns A ready,
    fun b => (congrFun (congrArg View.array view) b).trans (View.after_erase_array _ _ A b), committed_ee_of_latch_clear _,
    congrArg (· ++ _) (committed_trace _ s), frameAnswer_length _ _, op, addr, txlen, txBytes, rfl, rfl, rfl,
    (congrArg View.enabled view).trans (View.after_erase_enabled _ _ A), congrArg (· - _) (committed_busyNs _ s)⟩

/-- Settles O26: the transaction of the frame sets the latch, and no cycle runs after BEGIN_TXN. -/
theorem writeEnableSetsTheLatch : Obligations.WriteEnableSetsTheLatch := by
  intro s ready
  obtain ⟨op, _, _, txlen, txBytes⟩ := committed_registers .writeEnable s
  exact ⟨_, frameAnswer .writeEnable s, exec_writeEnable_returns ready, rfl, rfl, Nat.zero_sub _, committed_trace _ s,
    frameAnswer_length _ _, op, txlen, txBytes, rfl, rfl, rfl⟩

/-- Settles O27: the transaction of the frame clears the latch, and no cycle runs after BEGIN_TXN. -/
theorem writeDisableClearsTheLatch : Obligations.WriteDisableClearsTheLatch := by
  intro s ready
  obtain ⟨op, _, _, txlen, txBytes⟩ := committed_registers .writeDisable s
  exact ⟨_, frameAnswer .writeDisable s, exec_writeDisable_returns ready, rfl, rfl, Nat.zero_sub _, committed_trace _ s,
    frameAnswer_length _ _, op, txlen, txBytes, rfl, rfl, rfl⟩

/-- Settles O28: only the first deassert of the self-framed READ can find a transaction that changes the array or the latch. -/
theorem readLeavesTheRest : Obligations.ReadLeavesTheRest := by
  intro s t A owned h
  obtain ⟨kept, _, _, _, line⟩ := startCommand_kept h
  refine ⟨kept.wdata, kept.cfg, kept.dev, kept.opcodes, kept.pending, kept.hostWords, kept.hostText, ?_, ?_⟩
  · rintro rfl
    exact line (by decide) (by decide) (by decide)
  cases owned with
  | true =>
    have frame (returned : t.phase = .idle) := exec_owned_read_frame h returned
    refine ⟨fun returned _ => (frame returned).1, fun returned k _ => ?_, fun returned _ => (frame returned).2⟩
    obtain ⟨_, ee, _⟩ := frame returned
    rw [ee]
  | false =>
    have frame (returned : t.phase = .idle) := exec_read_frame h returned
    exact ⟨by simp, fun returned => (frame returned).1, fun returned hn => (frame returned).2 (by simpa using hn)⟩

/-- Settles O29: after the first deassert, only the transaction of its own frame can change the array or the latch. -/
theorem writeLeavesTheRest : Obligations.WriteLeavesTheRest := by
  intro s t A D h
  obtain ⟨kept, rdata, rxbuf, _⟩ := startCommand_kept h
  have frame (returned : t.phase = .idle) := exec_store_frame (a := maskAddr A) (rest := [.wc]) h returned rfl (by decide) (by decide)
    fun j hj => .inl ⟨_, transactionOf_write_legal (writeShift_le_of_legalCfg (startCommand_next h).1.legal) hj⟩
  exact ⟨kept.owned, rdata (by decide), rxbuf (by decide), kept.cfg, kept.dev, kept.opcodes, kept.pending, kept.hostWords, kept.hostText,
    fun returned => (frame returned).1, fun returned => (frame returned).2⟩

/-- Settles O30: as O29, with the transaction of an ERASE. -/
theorem eraseLeavesTheRest : Obligations.EraseLeavesTheRest := by
  intro s t A h
  obtain ⟨kept, rdata, rxbuf, _⟩ := startCommand_kept h
  have frame (returned : t.phase = .idle) := exec_store_frame (a := maskAddr A) (rest := [.ec]) h returned rfl (by decide) (by decide)
    fun j hj => .inr (Option.some.inj (hj.symm.trans (transactionOf_erase _ _ A)))
  exact ⟨kept.wdata, kept.owned, rdata (by decide), rxbuf (by decide), kept.cfg, kept.dev, kept.opcodes, kept.pending, kept.hostWords,
    kept.hostText, fun returned => (frame returned).1, fun returned => (frame returned).2⟩

/-- Settles O31: after the first deassert, only the transaction of its own frame ends, which is one of a latch command. -/
theorem latchCommandsLeaveTheRest : Obligations.LatchCommandsLeaveTheRest := by
  intro s t i hi h
  have frame (returned : t.phase = .idle) := exec_latch_frame h returned hi
  obtain ⟨tag, latch⟩ : ∃ tag, exec i s = startCommand [.b1, .b2, .b3, .b4, .enc, .tx, .e1, .e2] (fun u => u.latchOp tag) s := by
    rcases hi with rfl | rfl <;> exact ⟨_, rfl⟩
  rw [latch] at h
  obtain ⟨kept, rdata, rxbuf, _⟩ := startCommand_kept h
  exact ⟨kept.addr, kept.wdata, kept.owned, rdata (by decide), rxbuf (by decide), kept.cfg, kept.dev, kept.opcodes, kept.pending,
    kept.hostWords, kept.hostText, fun returned => (frame returned).1, fun returned => (frame returned).2⟩

/-- Settles O40: the WRITE updates the view at its address, where the READ looks. -/
theorem writeThenReadReturnsTheWord : Obligations.WriteThenReadReturnsTheWord := by
  intro s A D ready cal latch
  obtain ⟨t, u, ht, hu, word⟩ := exec_then_read (.write A D) A ready cal
  rw [View.after_write_array, if_pos ⟨latch, rfl⟩] at word
  exact ⟨t, u, ht, hu, word⟩

/-- Settles O41: the ERASE updates the view at its address, where the READ looks. -/
theorem eraseThenReadReturnsTheErasedWord : Obligations.EraseThenReadReturnsTheErasedWord := by
  intro s A ready cal latch
  obtain ⟨t, u, ht, hu, word⟩ := exec_then_read (.erase A) A ready cal
  rw [View.after_erase_array, if_pos ⟨latch, rfl⟩] at word
  exact ⟨t, u, ht, hu, word⟩

/-- Settles O42: each command leaves the machine as ready as it found it, whatever the draws. -/
theorem selfFramedCommandsMeetNoRefusal : Obligations.SelfFramedCommandsMeetNoRefusal := by
  intro commands s ready cal hp
  obtain ⟨t, run, ready', cal', _, pending, _⟩ := run_refines (rest := []) commands ready cal (by rw [List.append_nil]; exact hp)
  exact ⟨t, run 0, pending, ready', cal'⟩

end

/-! # The Bulk Operations (44_bulk_macros.md): the words their WRITEs leave and their READs return, and the text of those words -/

namespace Sys2Proof.Machine

theorem whenReturned_of_idle {r : Result} {t : State} (k : State → Result) (h : r = .next t) (idle : t.phase = .idle) :
    whenReturned r k = k t := by
  rw [whenReturned, h, andThen_next, if_pos idle]

theorem Ready.setHostWords {s : State} (h : Ready s) (ws : List Word) : Ready (s.setHostWords ws) :=
  ⟨{ h.startable with }, { h.lineReady with }, h.returns⟩

theorem Calibrated.setHostWords {s : State} (h : Calibrated s) (ws : List Word) : Calibrated (s.setHostWords ws) := { h with }

theorem Ready.setHostText {s : State} (h : Ready s) (cs : List Byte) : Ready (s.setHostText cs) :=
  ⟨{ h.startable with }, { h.lineReady with }, h.returns⟩

theorem Calibrated.setHostText {s : State} (h : Calibrated s) (cs : List Byte) : Calibrated (s.setHostText cs) := { h with }

/-! ### One command of a bulk operation, from a ready state (R200) -/

/-- What a READ of the word at `a` leaves for the bulk operation that started it. -/
structure ReadReturned (a : Addr) (s t : State) : Prop where
  ready : Ready t
  cal : Calibrated t
  ee : t.ee = s.ee
  wel : t.wel = s.wel
  hostWords : t.hostWords = s.hostWords
  hostText : t.hostText = s.hostText
  rdata : t.rdata = memRead s.ee a

theorem macroRead_returns (A : Nat) {s : State} (ready : Ready s) (cal : Calibrated s) :
    ∃ t, macroRead A s = .next t ∧ ReadReturned (maskAddr A) s t := by
  have run := exec_read_decodes ready (decodeResponse_answered A ready cal.offset)
  obtain ⟨t, ht, h⟩ := exec_refines (.read A false) ready cal
  obtain ⟨ready', cal'⟩ := h.ready ht ready cal
  obtain rfl := Host.Outcome.next.inj (run.symm.trans ht)
  exact ⟨_, macroRead_of_exec run rfl, ready', cal', rfl, rfl, rfl, rfl, rfl⟩

/-- With the latch set, a WRITE of a bulk operation updates the array at its address (R172). -/
theorem macroWrite_returns (A : Nat) (w : Word) {s : State} (ready : Ready s) (cal : Calibrated s) (latch : s.wel = true) :
    ∃ t, macroWrite A w.toNat s = .next t ∧ Ready t ∧ Calibrated t ∧ t.wel = true
      ∧ ∀ a, memRead t.ee a = if a = maskAddr A then w else memRead s.ee a := by
  obtain ⟨t, ht, h⟩ := exec_refines (.write A w.toNat) ready cal
  obtain ⟨ready', cal'⟩ := h.ready ht ready cal
  refine ⟨t, macroWrite_of_exec ht h.idle, ready', cal', ?_, fun a => ?_⟩
  · exact (congrArg View.enabled h.view).trans ((View.after_write_enabled _ _ _ _).trans latch)
  · have word : memRead t.ee a = _ := (congrFun (congrArg View.array h.view) a).trans (View.after_write_array _ _ _ _ a)
    rw [word, maskData_toNat]
    exact if_congr (and_iff_right latch) rfl rfl

/-! ### The words of a range (R201, R202, R208) -/

/-- The range from `start`, masked word by word, holds these words. -/
def HoldsWords (m : Memory) (start : Nat) (words : List Word) : Prop :=
  ∀ (i : Nat) (h : i < words.length), memRead m (maskAddr (start + i)) = words[i]

theorem holdsWords_cons {m : Memory} {start : Nat} {w : Word} {words : List Word} :
    HoldsWords m start (w :: words) ↔ memRead m (maskAddr start) = w ∧ HoldsWords m (start + 1) words := by
  refine ⟨fun h => ⟨h 0 (by simp), fun i hi => ?_⟩, fun ⟨first, others⟩ i hi => ?_⟩
  · rw [Nat.succ_add_eq_add_succ]
    exact h (i + 1) (Nat.succ_lt_succ hi)
  · cases i with
    | zero => exact first
    | succ i =>
      rw [← Nat.succ_add_eq_add_succ]
      exact others i (Nat.lt_of_succ_lt_succ hi)

/-- Two places of a range no longer than the array are two words. -/
theorem maskAddr_add_ne {start i : Nat} (pos : 0 < i) (lt : i < 1024) : maskAddr start ≠ maskAddr (start + i) := by
  intro h
  have := congrArg BitVec.toNat h
  rw [maskAddr_toNat_eq_mod, maskAddr_toNat_eq_mod] at this
  omega

/-- The WRITEs of a bulk operation, first word first: a later one does not touch the word of an earlier one. -/
theorem writeWords_returns (words : List Word) (start : Nat) {s : State} (ready : Ready s) (cal : Calibrated s) (latch : s.wel = true)
    (fits : words.length ≤ 1024) :
    ∃ t, writeWords start words s = .next t ∧ Ready t ∧ Calibrated t ∧ HoldsWords t.ee start words
      ∧ ∀ a, (∀ i < words.length, a ≠ maskAddr (start + i)) → memRead t.ee a = memRead s.ee a := by
  induction words generalizing start s with
  | nil => exact ⟨s, rfl, ready, cal, fun i hi => absurd hi (Nat.not_lt_zero i), fun _ _ => rfl⟩
  | cons w rest ih =>
    rw [List.length_cons] at fits
    obtain ⟨t, ht, ready', cal', latch', word⟩ := macroWrite_returns start w ready cal latch
    obtain ⟨u, hu, ready'', cal'', holds, others⟩ := ih (start + 1) ready' cal' latch' (by omega)
    refine ⟨u, (whenReturned_of_idle _ ht ready'.startable.idle).trans hu, ready'', cal'', holdsWords_cons.2 ⟨?_, holds⟩, fun a ha => ?_⟩
    · rw [others, word, if_pos rfl]
      intro i hi
      rw [Nat.succ_add_eq_add_succ]
      exact maskAddr_add_ne (Nat.succ_pos i) (by omega)
    · have other : a ≠ maskAddr start := ha 0 (Nat.succ_pos _)
      rw [others, word, if_neg other]
      intro i hi
      rw [Nat.succ_add_eq_add_succ]
      exact ha (i + 1) (Nat.succ_lt_succ hi)

/-- The words of the range from `start`, masked word by word. -/
def wordsAt (m : Memory) (start count : Nat) : List Word := (List.range count).map fun i => memRead m (maskAddr (start + i))

theorem wordsAt_succ (m : Memory) (start count : Nat) :
    wordsAt m start (count + 1) = memRead m (maskAddr start) :: wordsAt m (start + 1) count := by
  simp [wordsAt, List.range_succ_eq_map, Function.comp_def, Nat.add_right_comm, Nat.add_assoc]

/-- The READs of a bulk operation append the words of their range to the host's buffer. -/
theorem readWords_returns (count start : Nat) {s : State} (ready : Ready s) (cal : Calibrated s) :
    ∃ t, readWords start count s = .next t ∧ Ready t ∧ Calibrated t ∧ t.ee = s.ee ∧ t.wel = s.wel
      ∧ t.hostWords = s.hostWords ++ wordsAt s.ee start count := by
  induction count generalizing start s with
  | zero => exact ⟨s, rfl, ready, cal, rfl, rfl, (List.append_nil _).symm⟩
  | succ count ih =>
    obtain ⟨t, ht, h⟩ := macroRead_returns start ready cal
    obtain ⟨u, hu, ready', cal', ee, wel, words⟩ := ih (start + 1) (h.ready.setHostWords (t.hostWords ++ [t.rdata])) (h.cal.setHostWords _)
    refine ⟨u, (whenReturned_of_idle _ ht h.ready.startable.idle).trans hu, ready', cal', ee.trans h.ee, wel.trans h.wel, ?_⟩
    rw [words, setHostWords_hostWords, setHostWords_ee, h.hostWords, h.rdata, h.ee, wordsAt_succ, List.append_assoc, List.singleton_append]

/-- A bulk operation that reads into the emptied buffer leaves there the words of its range. -/
theorem execReadRange_returns (start count : Nat) {s : State} (ready : Ready s) (cal : Calibrated s) :
    ∃ t, execReadRange start count s = .next t ∧ Ready t ∧ Calibrated t ∧ t.ee = s.ee ∧ t.wel = s.wel
      ∧ t.hostWords = wordsAt s.ee start count :=
  readWords_returns count start (ready.setHostWords []) (cal.setHostWords [])

/-- Arrays that hold the same full range are the same. -/
theorem memRead_eq_of_holdsWords_wordsAt {m n : Memory} (h : HoldsWords n 0 (wordsAt m 0 1024)) (a : Addr) : memRead n a = memRead m a := by
  simpa [wordsAt] using h a.toNat (by simpa [wordsAt] using a.isLt)

/-! ### The text of a range (R205, R206, R210) -/

theorem packPair_high (c0 c1 : Byte) : (packPair c0 c1).extractLsb' 8 8 = c0 := BitVec.extractLsb'_append_eq_left

theorem packPair_low (c0 c1 : Byte) : (packPair c0 c1).extractLsb' 0 8 = c1 := BitVec.extractLsb'_append_eq_right

/-- The first `room` bytes of the range from `start`, the high byte of each word first. -/
def bytesAt (m : Memory) : Nat → Nat → List Byte
  | _, 0 => []
  | start, 1 => [(memRead m (maskAddr start)).extractLsb' 8 8]
  | start, room + 2 =>
    (memRead m (maskAddr start)).extractLsb' 8 8 :: (memRead m (maskAddr start)).extractLsb' 0 8 :: bytesAt m (start + 1) room

theorem bytesAt_length (m : Memory) (start room : Nat) : (bytesAt m start room).length = room := by
  induction room using Nat.twoStepInduction generalizing start with
  | zero => rfl
  | one => rfl
  | more room ih _ => simp [bytesAt, ih]

/-- The text that stands at `start`, as far as there is room for it: the bytes before the first 0x00. -/
def textAt (m : Memory) (start room : Nat) : List Byte := (bytesAt m start room).takeWhile (· ≠ 0x00)

theorem textAt_length_le (m : Memory) (start room : Nat) : (textAt m start room).length ≤ room :=
  (List.takeWhile_sublist _).length_le.trans_eq (bytesAt_length m start room)

theorem ne_zero_of_mem_textAt {m : Memory} {start room : Nat} {c : Byte} (h : c ∈ textAt m start room) : c ≠ 0x00 := by
  simpa using List.mem_takeWhile_imp h

theorem textAt_one (m : Memory) (start : Nat) : textAt m start 1 =
    if (memRead m (maskAddr start)).extractLsb' 8 8 = 0x00 then [] else [(memRead m (maskAddr start)).extractLsb' 8 8] := by
  rw [textAt, bytesAt]
  split_ifs with hi
  · exact List.takeWhile_cons_of_neg (by simpa using hi)
  · exact List.takeWhile_cons_of_pos (by simpa using hi)

/-- A word of a text holds its end, or two characters before the rest. -/
theorem textAt_add_two (m : Memory) (start room : Nat) : textAt m start (room + 2) =
    if (memRead m (maskAddr start)).extractLsb' 8 8 = 0x00 then []
    else if (memRead m (maskAddr start)).extractLsb' 0 8 = 0x00 then [(memRead m (maskAddr start)).extractLsb' 8 8]
    else (memRead m (maskAddr start)).extractLsb' 8 8 :: (memRead m (maskAddr start)).extractLsb' 0 8 :: textAt m (start + 1) room := by
  rw [textAt, bytesAt]
  split_ifs with hi lo
  · exact List.takeWhile_cons_of_neg (by simpa using hi)
  · rw [List.takeWhile_cons_of_pos (by simpa using hi), List.takeWhile_cons_of_neg (by simpa using lo)]
  · rw [List.takeWhile_cons_of_pos (by simpa using hi), List.takeWhile_cons_of_pos (by simpa using lo), textAt]

/-- The loop of `read_string` appends the text to the host's (R206). -/
theorem readChars_returns (room start : Nat) {s : State} (ready : Ready s) (cal : Calibrated s) :
    ∃ t, readChars start room s = .next t ∧ Ready t ∧ t.ee = s.ee ∧ t.hostText = s.hostText ++ textAt s.ee start room := by
  induction room using Nat.twoStepInduction generalizing start s with
  | zero => exact ⟨s, rfl, ready, rfl, (List.append_nil _).symm⟩
  | one =>
    obtain ⟨t, ht, h⟩ := macroRead_returns start ready cal
    rw [readChars, whenReturned_of_idle _ ht h.ready.startable.idle, h.rdata, h.hostText, textAt_one]
    dsimp only
    split_ifs
    · exact ⟨t, rfl, h.ready, h.ee, h.hostText.trans (List.append_nil _).symm⟩
    · exact ⟨_, rfl, h.ready.setHostText _, h.ee, rfl⟩
  | more room ih _ =>
    obtain ⟨t, ht, h⟩ := macroRead_returns start ready cal
    rw [readChars, whenReturned_of_idle _ ht h.ready.startable.idle, h.rdata, h.hostText, textAt_add_two]
    dsimp only
    split_ifs
    · exact ⟨t, rfl, h.ready, h.ee, h.hostText.trans (List.append_nil _).symm⟩
    · exact ⟨_, rfl, h.ready.setHostText _, h.ee, rfl⟩
    · obtain ⟨u, hu, ready', ee, text⟩ := ih (start + 1) (h.ready.setHostText _) (h.cal.setHostText _)
      refine ⟨u, hu, ready', ee.trans h.ee, ?_⟩
      rw [text, setHostText_hostText, setHostText_ee, h.ee, List.append_assoc]
      rfl

/-- `read_string` with room for the terminator leaves the text that stands at `start` (R206). -/
theorem execReadString_returns (start : Nat) {maxLength : Nat} {s : State} (ready : Ready s) (cal : Calibrated s) (pos : 0 < maxLength) :
    ∃ t, execReadString start maxLength s = .next t ∧ Ready t ∧ t.ee = s.ee ∧ t.hostText = textAt s.ee start (maxLength - 1) := by
  rw [execReadString, if_neg pos.ne']
  exact readChars_returns (maxLength - 1) start (ready.setHostText []) (cal.setHostText [])

theorem packText_length (text : List Byte) : (packText text).length = text.length / 2 + 1 := by
  induction text using packText.induct with
  | case1 => rfl
  | case2 c => simp [packText]
  | case3 c0 c1 rest ih => rw [packText, List.length_cons, ih, List.length_cons, List.length_cons]; omega

/-- Where the words of a text stand, the text stands, if there is room for it (R210). -/
theorem textAt_of_holdsWords {text : List Byte} {m : Memory} {start room : Nat} (holds : HoldsWords m start (packText text))
    (noZero : ∀ c ∈ text, c ≠ 0x00) (fits : text.length ≤ room) : textAt m start room = text := by
  induction text using packText.induct generalizing start room with
  | case1 =>
    obtain ⟨word, _⟩ := holdsWords_cons.1 holds
    match room with
    | 0 => rfl
    | 1 => rw [textAt_one, word, packPair_high, if_pos rfl]
    | _ + 2 => rw [textAt_add_two, word, packPair_high, if_pos rfl]
  | case2 c =>
    obtain ⟨word, _⟩ := holdsWords_cons.1 holds
    have hc := noZero c List.mem_cons_self
    match room, fits with
    | 1, _ => rw [textAt_one, word, packPair_high, if_neg hc]
    | _ + 2, _ => rw [textAt_add_two, word, packPair_high, packPair_low, if_neg hc, if_pos rfl]
  | case3 c0 c1 rest ih =>
    obtain ⟨word, others⟩ := holdsWords_cons.1 holds
    obtain ⟨h0, h1, hrest⟩ : c0 ≠ 0x00 ∧ c1 ≠ 0x00 ∧ ∀ c ∈ rest, c ≠ 0x00 := by
      rwa [List.forall_mem_cons, List.forall_mem_cons] at noZero
    match room, fits with
    | room + 2, fits =>
      rw [textAt_add_two, word, packPair_high, packPair_low, if_neg h0, if_neg h1, ih others hrest (by simpa using fits)]

end Sys2Proof.Machine

section
open Sys2Proof Sys2Proof.Machine

/-- Settles O54: a pair is the concatenation of its bytes; the example is closed. -/
theorem characterPacking : Obligations.CharacterPacking :=
  ⟨fun c0 c1 => ⟨BitVec.toNat_append c0 c1, packPair_high c0 c1, packPair_low c0 c1⟩, by decide⟩

/-- Settles O60: neither request reaches the block. -/
theorem impossibleBulkRequestsAreRefused : Obligations.ImpossibleBulkRequestsAreRefused :=
  fun _ _ _ => ⟨if_pos rfl, rfl⟩

/-- Settles O55: its WRITEs, by induction on the words. -/
theorem writeBufferWritesEveryWord : Obligations.WriteBufferWritesEveryWord := by
  intro s start words ready cal latch fits
  obtain ⟨t, ht, ready', _, holds, others⟩ := writeWords_returns words start ready cal latch fits
  exact ⟨t, ht, ready', holds, others⟩

/-- Settles O56: its READs, by induction on their number. -/
theorem readRangeReturnsTheWords : Obligations.ReadRangeReturnsTheWords := by
  intro s start count ready cal
  obtain ⟨t, ht, ready', _, ee, wel, words⟩ := execReadRange_returns start count ready cal
  exact ⟨t, ht, ready', ee, wel, words⟩

/-- Settles O57: `copy_out` is `read_range` of the full device; writing its words back leaves each where it stood. -/
theorem copyOutThenCopyInRestoresTheArray : Obligations.CopyOutThenCopyInRestoresTheArray := by
  intro s ready cal latch
  obtain ⟨t, ht, ready', cal', ee, wel, words⟩ := execReadRange_returns 0 1024 ready cal
  refine ⟨t, ht, by simp [words, wordsAt], fun buffer hb => ?_⟩
  obtain ⟨u, hu, _, _, holds, _⟩ := writeWords_returns buffer.toList 0 ready' cal' (wel.trans latch) buffer.length_toList.le
  rw [hb, words] at holds
  exact ⟨u, hu, memRead_eq_of_holdsWords_wordsAt holds⟩

/-- Settles O58: `write_string` leaves the words of the text in its range, and `read_string` the text that stands there. -/
theorem readStringReturnsWhatWriteStringWrote : Obligations.ReadStringReturnsWhatWriteStringWrote := by
  intro s start maxLength text ready cal latch noZero inArray room
  have whole : text.takeWhile (· ≠ 0x00) = text := List.takeWhile_eq_self_iff.2 (by simpa using noZero)
  obtain ⟨t, ht, ready', cal', holds, _⟩ := writeWords_returns (packText text) start ready cal latch (by rw [packText_length]; omega)
  obtain ⟨u, hu, _, _, read⟩ := execReadString_returns start ready' cal' (Nat.zero_lt_of_lt room)
  rw [textAt_of_holdsWords holds noZero (Nat.le_sub_one_of_lt room)] at read
  exact ⟨t, u, by rw [execWriteString, whole, ht], hu, read, by rw [State.textBuffer, read]⟩

/-- Settles O59: the text that stands in the array is cut before its first 0x00 and at the room there is. -/
theorem readStringNeverOverrunsItsBuffer : Obligations.ReadStringNeverOverrunsItsBuffer := by
  intro s start maxLength ready cal pos
  obtain ⟨t, ht, ready', ee, text⟩ := execReadString_returns start ready cal pos
  refine ⟨t, ht, ready', ee, ?_, fun c hc => ne_zero_of_mem_textAt (text ▸ hc)⟩
  have := textAt_length_le s.ee start (maxLength - 1)
  rw [State.textBuffer, text, List.length_append, List.length_singleton]
  omega

end

/-! # Exceptions (60_exceptions.md): operands are masked, a transfer that never returns, and which commands move the latch -/

namespace Sys2Proof.Machine

/-! ### Operands of any width (R231) -/

/-- What a command latches, it latches masked: the masked operands latch the same (R22, R23). -/
theorem commandLatch_latched (i : Instr) : commandLatch (.instr i.latched) = commandLatch (.instr i) := by
  cases i with
  | read a owned => funext s; simp [Instr.latched, commandLatch, latchRead, State.latchAddr]
  | erase a => funext s; simp [Instr.latched, commandLatch, State.latchAddr]
  | write a d => funext s; simp [Instr.latched, commandLatch, latchWrite, State.latchAddr, State.latchData]
  | writeEnable | writeDisable => rfl

/-- No operand chooses a step (R178). -/
theorem commandSteps_latched (i : Instr) : commandSteps (.instr i.latched) = commandSteps (.instr i) := by
  cases i <;> rfl

/-- An instruction does what it does with its operands as the registers hold them (R231). -/
theorem exec_latched (i : Instr) (s : State) : exec i.latched s = exec i s := by
  rw [exec_eq, exec_eq, commandLatch_latched, commandSteps_latched]

/-! ### A transfer that never returns (R232) -/

/-- ENC and a TX that never returns: the run ends at TX, with the transfer called and nothing in the trace (R232). -/
theorem runSteps_send_stuck (rest : List Phase) {s : State} {i : Instr} (hi : s.opInstr = some i) (fatal : s.fatalIn = some 0) :
    ∃ bits, runSteps (.enc :: .tx :: rest) s
      = .next (((s.loadTx (encode s.opcodes s.cfg.writeShift i)).setPhase .tx).hang bits) := by
  have hi' : (s.setPhase .enc).opInstr = some i := hi
  rw [runSteps_cons (neverReturns_other (by decide) (by decide))]
  simp only [act, hi', andThen_next]
  exact ⟨_, runSteps_stuck (by simp [neverReturns, fatal])⟩

/-- Every self-framed command sends its frame right after BEGIN_TXN's steps (R178). -/
theorem commandSteps_selfFramed_send (i : Instr) :
    ∃ rest, commandSteps (.instr i.selfFramed) = .b1 :: .b2 :: .b3 :: .b4 :: .enc :: .tx :: rest := by
  cases i <;> exact ⟨_, rfl⟩

/-- A self-framed command whose transfer never returns stands at TX with BEGIN_TXN's events in the trace (R232, R110). -/
theorem exec_selfFramed_stuck (i : Instr) {s : State} (startable : Startable s) (line : LineReady s) (fatal : s.fatalIn = some 0) :
    ∃ t, exec i.selfFramed s = .next t ∧ t.phase = .tx ∧ t.pending = s.pending ∧ t.trace = s.trace ++ beginEvents s.cfg := by
  obtain ⟨rest, steps⟩ := commandSteps_selfFramed_send i
  obtain ⟨_, _, _, _, _, _, cfg, trace, _, _, _, _, _, _, _, _, _, _, _, pending, fatalIn⟩ := commandLatch_kept (.instr i.selfFramed) s
  obtain ⟨line', busy, hold, _⟩ := line.commandLatch (.instr i.selfFramed)
  obtain ⟨bits, stuck⟩ := runSteps_send_stuck rest (s := opened (commandLatch (.instr i.selfFramed) s)) (opInstr_commandLatch _ s)
    (fatalIn.trans fatal)
  rw [exec_eq, startCommand_eq startable, steps, runSteps_begin _ _ line' busy (hold.trans (Nat.le_add_left _ _)), stuck,
    forgetIfStuck_stuck (by simp)]
  refine ⟨_, rfl, rfl, pending, ?_⟩
  show (commandLatch (.instr i.selfFramed) s).trace ++ beginEvents (commandLatch (.instr i.selfFramed) s).cfg = _
  rw [trace, cfg]

/-- While a command is in progress no request of the host moves the machine (R26, R267). -/
theorem step_of_busy {s : State} (busy : s.phase ≠ .idle) (host : ∀ r rest, s.pending = r :: rest → fromOutside r = false) :
    step s = .next s := by
  cases hp : s.pending with
  | nil => exact step_of_nil hp
  | cons r rest => exact step_waits hp (by simp [State.canServe, host r rest hp, busy])

/-! ### The latch (R31, R239) -/

/-- A latch command that has returned leaves the latch at its own value, whatever it was (R68, R69). -/
theorem exec_latch_wel {i : Instr} {s t : State} {value : Bool} (h : exec i s = .next t) (returned : t.phase = .idle)
    (hi : i = .writeEnable ∧ value = true ∨ i = .writeDisable ∧ value = false) : t.wel = value := by
  have steps : commandSteps (.instr i) = [.b1, .b2, .b3, .b4, .enc, .tx, .e1, .e2] := by rcases hi with ⟨rfl, _⟩ | ⟨rfl, _⟩ <;> rfl
  obtain ⟨u, v, ends, txs, opcodes, _, _, _, wel⟩ := exec_commit_next h returned steps (by simp) (by simp)
  have sent : u.txs ≠ [] := txs ▸ bitsOfBytes_ne_nil (encode_length_pos _ _ _)
  rw [← opcodes] at txs
  obtain ⟨rfl, rfl⟩ | ⟨rfl, rfl⟩ := hi
  · obtain rfl := Host.Outcome.next.inj ((endTransaction_writeEnable sent (txs ▸ transactionOf_writeEnable _ _)).symm.trans ends)
    exact wel
  · obtain rfl := Host.Outcome.next.inj ((endTransaction_writeDisable sent (txs ▸ transactionOf_writeDisable _ _)).symm.trans ends)
    exact wel

/-- What a command that has returned can do to the latch, with nothing clocked into an open transaction before it (R31, R239). -/
theorem runCommand_wel {c : Command} {s t : State} (empty : s.sel = true → s.txs = []) (h : runCommand c s = .next t)
    (returned : t.phase = .idle) :
    t.wel = s.wel ∨ (c = .instr .writeEnable ∧ t.wel = true) ∨ (c = .instr .writeDisable ∧ t.wel = false) := by
  match c, h with
  | .beginTxn, h =>
    obtain ⟨u, hu, _, _, _, _, _, _, _, _, _, same⟩ := runSteps_begin_next (startCommand_returned h returned).2
    obtain ⟨_, wel⟩ := runSteps_returned_ee_wel hu returned (by simp) (by simp)
    exact .inl (wel.trans (same empty).2)
  | .endTxn, h =>
    obtain ⟨startable, _⟩ := startCommand_returned h returned
    obtain ⟨u, hu, _, _, _, _, _, wel, _⟩ := endTxnOfAnEmptyTransaction s startable empty
    obtain rfl := Host.Outcome.next.inj (hu.symm.trans h)
    exact .inl wel
  | .instr (.read _ false), h =>
    obtain ⟨_, same⟩ := exec_read_frame h returned
    exact .inl (same empty).2
  | .instr (.read _ true), h =>
    obtain ⟨_, _, wel⟩ := exec_owned_read_frame h returned
    exact .inl wel
  | .instr (.write a d), h =>
    have legal := writeShift_le_of_legalCfg (startCommand_next h).1.legal
    obtain ⟨_, same⟩ := exec_store_frame (i := .write a d) (a := maskAddr a) (rest := [.wc]) h returned rfl (by decide) (by decide)
      fun _ own => .inl ⟨_, transactionOf_write_legal legal own⟩
    exact .inl (same empty).1
  | .instr (.erase a), h =>
    obtain ⟨_, same⟩ := exec_store_frame (i := .erase a) (a := maskAddr a) (rest := [.ec]) h returned rfl (by decide) (by decide)
      fun _ own => .inr (Option.some.inj (own.symm.trans (transactionOf_erase _ _ a)))
    exact .inl (same empty).1
  | .instr .writeEnable, h => exact .inr (.inl ⟨rfl, exec_latch_wel (i := .writeEnable) h returned (.inl ⟨rfl, rfl⟩)⟩)
  | .instr .writeDisable, h => exact .inr (.inr ⟨rfl, exec_latch_wel (i := .writeDisable) h returned (.inr ⟨rfl, rfl⟩)⟩)

end Sys2Proof.Machine

section
open Sys2Proof Sys2Proof.Machine

/-- Settles O25: the low bits are what the registers latch, and the registers are all a command reads of its operands. -/
theorem operandsAreMaskedNeverRejected : Obligations.OperandsAreMaskedNeverRejected := by
  intro s A D owned
  rw [← maskAddr_toNat_eq_mod, ← maskData_toNat_eq_mod]
  exact ⟨(exec_latched (.read A owned) s).symm, (exec_latched (.erase A) s).symm, (exec_latched (.write A D) s).symm⟩

/-- Settles O39: the command stands at TX, and a block that is not idle serves no request of the host. -/
theorem commandStuckAtItsTransfer : Obligations.CommandStuckAtItsTransfer := by
  intro s i startable line fatal host
  obtain ⟨t, ht, phase, pending, trace⟩ := exec_selfFramed_stuck i startable line fatal
  exact ⟨t, ht, phase, pending, trace, step_of_busy (by simp [phase]) (by rwa [pending])⟩

/-- Settles O44: the latch stays, or the command is one of the two that set it to their own value. -/
theorem onlyTheLatchCommandsMoveTheLatch : Obligations.OnlyTheLatchCommandsMoveTheLatch := by
  intro s t c empty h returned
  obtain same | ⟨rfl, set⟩ | ⟨rfl, cleared⟩ := runCommand_wel empty h returned
  · simp +contextual [same]
  · simp [set]
  · simp [cleared]

end

/-! # Reset and hazards (70_reset_and_hazards.md): waits below the device's minima, a second frame in one transaction, and a reset of the block -/

namespace Sys2Proof.Machine

/-! ### Waits below the device's minima (R64, R271) -/

/-- A self-framed command whose hold wait is too short is refused at the assert of BEGIN_TXN (R64, R271). -/
theorem exec_selfFramed_short_hold (i : Instr) {s : State} (startable : Startable s) (line : s.sel = true → s.txs = [])
    (busy : s.busyNs ≤ s.cfg.tCshNs) (short : (if s.sel then 0 else s.idleNs) + s.cfg.tCshNs < s.dev.tCshNs) :
    exec i.selfFramed s = .refused .csHoldViolated := by
  obtain ⟨rest, steps⟩ := commandSteps_selfFramed i
  obtain ⟨_, _, _, _, _, _, cfg, _, _, _, busyNs, sel, txs, idleNs, _, dev, _⟩ := commandLatch_kept (.instr i.selfFramed) s
  rw [← sel, ← txs] at line
  rw [← busyNs, ← cfg] at busy
  rw [← sel, ← idleNs, ← cfg, ← dev] at short
  rw [exec_eq, startCommand_eq startable, steps, runSteps_rest _ _ line, runSteps_rise_early _ _ rfl (Nat.sub_eq_zero_of_le busy) short,
    forgetIfStuck_refused]

/-- A self-framed command whose setup wait is too short is refused at the first clock of its frame (R64, R271). -/
theorem exec_selfFramed_short_setup (i : Instr) {s : State} (startable : Startable s) (line : s.sel = true → s.txs = [])
    (busy : s.busyNs ≤ s.cfg.tCshNs) (hold : s.dev.tCshNs ≤ (if s.sel then 0 else s.idleNs) + s.cfg.tCshNs)
    (short : s.cfg.tCssNs < s.dev.tCssNs) (returns : s.fatalIn = none) : exec i.selfFramed s = .refused .csSetupViolated := by
  obtain ⟨rest, steps⟩ := commandSteps_selfFramed_send i
  obtain ⟨_, _, _, _, _, _, cfg, _, _, _, busyNs, sel, txs, idleNs, _, dev, _, _, _, _, fatalIn⟩ :=
    commandLatch_kept (.instr i.selfFramed) s
  rw [← sel, ← txs] at line
  rw [← busyNs, ← cfg] at busy
  rw [← sel, ← idleNs, ← cfg, ← dev] at hold
  rw [← cfg, ← dev] at short
  have setup : (opened (commandLatch (.instr i.selfFramed) s)).setupViolated = true := decide_eq_true short
  have notStuck : (opened (commandLatch (.instr i.selfFramed) s)).fatalIn ≠ some 0 := by simp [opened, fatalIn, returns]
  rw [exec_eq, startCommand_eq startable, steps, runSteps_begin _ _ line busy hold,
    runSteps_send_early _ (opened _) _ (opInstr_commandLatch _ s) setup notStuck, forgetIfStuck_refused]

/-! ### What the bytes of a transaction say of a second frame (R275, R278 c) -/

/-- These bytes, and no others, are clocked into the open transaction, each with its mark by the fill byte of now (R64; log 11); the opcode
patterns and the configuration are named beside them. -/
structure ClockedIn (ops : Opcodes) (cfg : Cfg) (bytes : List Byte) (s : State) : Prop where
  selected : s.sel = true
  txs : s.txs = bitsOfBytes bytes
  marks : s.sentMarks = bytes.map (· != cfg.recvFill)
  opcodes : s.opcodes = ops
  cfg : s.cfg = cfg

theorem FreshTransaction.clockedIn {s : State} (h : FreshTransaction s) : ClockedIn s.opcodes s.cfg [] s :=
  ⟨h.selected, h.empty, h.unmarked, rfl, rfl⟩

section
variable {s : State} {ops : Opcodes} {cfg : Cfg} {bytes : List Byte}

theorem ClockedIn.clockIn (h : ClockedIn ops cfg bytes s) (tx : List Byte) : ClockedIn ops cfg (bytes ++ tx) (s.clockIn tx) where
  selected := h.selected
  txs := by rw [clockIn_txs, if_pos h.selected, h.txs, bitsOfBytes_append]
  marks := by rw [clockIn_sentMarks, if_pos h.selected, h.marks, List.map_append, h.cfg]
  opcodes := h.opcodes
  cfg := h.cfg

/-- After the first clock of a transaction the device's setup time is no matter (R64). -/
theorem ClockedIn.setupViolated (h : ClockedIn ops cfg bytes s) (nonempty : 0 < bytes.length) : s.setupViolated = false := by
  simp [State.setupViolated, h.txs, bitsOfBytes_ne_nil nonempty]

/-- Of whole bytes with a mark each, those after the first two are looked through for a frame. -/
theorem secondFrameIn_bytes (ops : Opcodes) (fill : Byte) (bytes : List Byte) :
    secondFrameIn ops (bytes.map (· != fill)) (bitsOfBytes bytes)
      = ((readAddress ops (bitsOfBytes bytes)).isSome && holdsFrame ops ((bytes.drop 2).map fun b => (b, b != fill))) := by
  have bits : (bitsOfBytes bytes).drop 16 = bitsOfBytes (bytes.drop 2) := by
    match bytes with
    | [] => rfl
    | [_] => exact List.drop_of_length_le (by simp)
    | a :: b :: rest => exact List.drop_left' (l₁ := bitsOfBytes [a, b]) rfl
  have pairs : (bytes.drop 2).zip ((bytes.drop 2).map (· != fill)) = (bytes.drop 2).map fun b => (b, b != fill) := by
    simpa using List.zip_map' (f := id) (g := (· != fill)) (l := bytes.drop 2)
  rw [secondFrameIn, bits, bytesOfBits_bitsOfBytes, ← List.map_drop, pairs]

theorem ClockedIn.clockIn_secondFrame (h : ClockedIn ops cfg bytes s) (tx : List Byte) :
    (s.clockIn tx).secondFrame = (s.secondFrame || ((readAddress ops (bitsOfBytes (bytes ++ tx))).isSome
      && holdsFrame ops (((bytes ++ tx).drop 2).map fun b => (b, b != cfg.recvFill)))) := by
  rw [Machine.clockIn_secondFrame, h.selected, h.marks, h.txs, h.opcodes, h.cfg, ← List.map_append, ← bitsOfBytes_append, secondFrameIn_bytes,
    Bool.true_and]

/-- Fill bytes after the first frame are received bytes (R278 c). -/
theorem ClockedIn.clockIn_fill {tx : List Byte} (h : ClockedIn ops cfg bytes s) (one : s.secondFrame = false)
    (fill : ∀ b ∈ (bytes ++ tx).drop 2, b = cfg.recvFill) : (s.clockIn tx).secondFrame = false := by
  have received : holdsFrame ops (((bytes ++ tx).drop 2).map fun b => (b, b != cfg.recvFill)) = false := by
    refine holdsFrame_received _ fun m hm => ?_
    obtain ⟨b, hb, rfl⟩ := List.mem_map.1 hm
    simp [fill b hb]
  rw [h.clockIn_secondFrame, one, received, Bool.and_false, Bool.or_false]

/-- The same for a frame and what is received after it. -/
theorem ClockedIn.clockIn_clockIn_fill {frame tx : List Byte} (h : ClockedIn ops cfg bytes s) (one : s.secondFrame = false)
    (fill : ∀ b ∈ (bytes ++ frame ++ tx).drop 2, b = cfg.recvFill) : ((s.clockIn frame).clockIn tx).secondFrame = false := by
  refine (h.clockIn frame).clockIn_fill (h.clockIn_fill one fun b hb => fill b ?_) fill
  rw [List.drop_append]
  exact List.mem_append_left _ hb

/-- A frame of two bytes is found where it stands alone. -/
theorem holdsFrame_of_isSentFrame {marked : List (Byte × Bool)} (two : marked.length = 2) (h : isSentFrame ops marked = true) :
    holdsFrame ops marked = true := by
  match marked, two with
  | [a, b], _ => simp [holdsFrame, h]

/-- A READ frame of which some byte is no fill byte is a frame that was sent (R275; log 11). -/
theorem isSentFrame_read {shift B : Nat} {owned : Bool} {fill : Byte} (sent : ∃ b ∈ encode ops shift (.read B owned), b ≠ fill) :
    isSentFrame ops ((encode ops shift (.read B owned)).map fun b => (b, b != fill)) = true := by
  have decodes : decode ops (encode ops shift (.read B owned)) = .ok _ := decode_encode ops (.read B owned)
  simpa [isSentFrame, Function.comp_def, decodes] using sent

/-- A READ frame that was sent behind a first one, whatever came between, is a second frame (R275). -/
theorem ClockedIn.clockIn_read {between : List Byte} {shift A B : Nat} {first owned : Bool}
    (h : ClockedIn ops cfg (encode ops shift (.read A first) ++ between) s) (sent : ∃ b ∈ encode ops shift (.read B owned), b ≠ cfg.recvFill) :
    (s.clockIn (encode ops shift (.read B owned))).secondFrame = true := by
  have found := holdsFrame_append (between.map fun b => (b, b != cfg.recvFill))
    (holdsFrame_of_isSentFrame (by simp [encode]) (isSentFrame_read sent))
  have two : (encode ops shift (.read A first)).length = 2 := bytesOf_length 2 _
  rw [h.clockIn_secondFrame, List.append_assoc, bitsOfBytes_append, readAddress_read, List.drop_left' two, List.map_append, found,
    Option.isSome_some, Bool.and_true, Bool.or_true]

/-- What is clocked in after a second frame leaves it remembered. -/
theorem clockIn_secondFrame_of_second (tx : List Byte) (h : s.secondFrame = true) : (s.clockIn tx).secondFrame = true := by
  rw [clockIn_secondFrame, h, Bool.true_or]

end

/-! ### Caller-framed READs in one transaction, and its end (R176, R275) -/

/-- What a caller-framed READ clocks in: its frame, and the fill bytes of its receive phase (R176, R64). -/
theorem exec_owned_read_clocks {s : State} {ops : Opcodes} {cfg : Cfg} {bytes : List Byte} (A : Nat) (startable : Startable s)
    (returns : s.fatalIn = none) (setup : s.setupViolated = false) (h : ClockedIn ops cfg bytes s) :
    ∃ t, exec (.read A true) s = .next t ∧ Startable t ∧ t.fatalIn = none ∧ t.setupViolated = false
      ∧ ClockedIn ops cfg (bytes ++ encode ops cfg.writeShift (.read A true) ++ List.replicate cfg.rxBytes cfg.recvFill) t
      ∧ t.secondFrame = ((s.clockIn (encode ops cfg.writeShift (.read A true))).clockIn (List.replicate cfg.rxBytes cfg.recvFill)).secondFrame
      ∧ t.ee = s.ee ∧ t.wel = s.wel := by
  obtain rfl := h.opcodes
  obtain rfl := h.cfg
  obtain ⟨w, hw⟩ := decodeResponse_ok startable.legal (answeredOwned_rxbuf_length A s)
  obtain ⟨selected, txs, marks, opcodes, cfg⟩ :=
    (h.clockIn (encode s.opcodes s.cfg.writeShift (.read A true))).clockIn (List.replicate s.cfg.rxBytes s.cfg.recvFill)
  refine ⟨_, exec_owned_read_decodes startable returns setup hw, ⟨rfl, startable.order, startable.legal⟩, ?_, ?_,
    ⟨selected, txs, marks, opcodes, cfg⟩, rfl, rfl, rfl⟩
  · exact returns
  · exact ClockedIn.setupViolated ⟨selected, txs, marks, opcodes, cfg⟩ (by simp [encode])

/-- The end of a transaction that holds a second frame after a READ is refused (R275). -/
theorem execEndTxn_second_frame {s : State} {a : Addr} (startable : Startable s) (sel : s.sel = true)
    (address : readAddress s.opcodes s.txs = some a) (second : s.secondFrame = true) : execEndTxn s = .refused .unknownTransaction := by
  have nonempty : s.txs ≠ [] := by
    intro hn
    rw [hn] at address
    cases address
  have ends : endTransaction ((s.latchOp .endTxn).setPhase .e1) = .refused .unknownTransaction := by
    simp [endTransaction, nonempty, transactionOf, address, second]
  rw [execEndTxn, startCommand_eq startable, endSteps, runSteps_end_refused _ (s.latchOp .endTxn) sel ends, forgetIfStuck_refused]

/-! ### A reset of the block (R260) -/

/-- Between commands there is no word that a reset of the block could cut off (R281). -/
theorem commandWord_of_idle {s : State} (idle : s.phase = .idle) : s.commandWord = [] := by
  simp [State.commandWord, idle]

/-- A reset of the block between commands leaves the array (R260). -/
theorem resetBlock_ee_of_idle {s : State} (cfg : Cfg) (idle : s.phase = .idle) : (resetBlock cfg s).ee = s.ee := by
  show scrambleWords s.commandWord s.draws s.ee = s.ee
  rw [commandWord_of_idle idle, scrambleWords]

end Sys2Proof.Machine

section
open Sys2Proof Sys2Proof.Machine

/-- Settles O37: the assert comes before the hold time has passed, or the first clock before the setup time has. -/
theorem shortWaitsAreRefused : Obligations.ShortWaitsAreRefused :=
  fun _ i startable line busy => ⟨fun short => exec_selfFramed_short_hold i startable line busy short,
    fun hold short returns => exec_selfFramed_short_setup i startable line busy hold short returns⟩

/-- Settles O38: the second READ runs in the transaction of the first, and its frame is a second one unless all its bytes are fill. -/
theorem secondFrameInATransactionIsRefused : Obligations.SecondFrameInATransactionIsRefused := by
  intro s A B startable returns fresh second
  have frame : (encode s.opcodes s.cfg.writeShift (.read A true)).length = 2 := bytesOf_length 2 _
  obtain ⟨r, hr, startable_r, returns_r, setup_r, clocked_r, second_r, ee_r, wel_r⟩ :=
    exec_owned_read_clocks A startable returns fresh.setupViolated fresh.clockedIn
  rw [List.nil_append] at clocked_r
  obtain ⟨u, hu, startable_u, _, _, clocked_u, second_u, ee_u, wel_u⟩ := exec_owned_read_clocks B startable_r returns_r setup_r clocked_r
  have address : readAddress u.opcodes u.txs = some (maskAddr A) := by
    rw [clocked_u.txs, clocked_u.opcodes, List.append_assoc, List.append_assoc, bitsOfBytes_append, readAddress_read]
  refine ⟨r, u, hr, hu, fun sent => ?_, fun one fill => ?_⟩
  · have two : u.secondFrame = true := second_u.trans (clockIn_secondFrame_of_second _ (clocked_r.clockIn_read sent))
    exact execEndTxn_second_frame startable_u clocked_u.selected address two
  · have received : ∀ b ∈ List.replicate s.cfg.rxBytes s.cfg.recvFill, b = s.cfg.recvFill := fun _ => List.eq_of_mem_replicate
    have one_r : r.secondFrame = false := second_r.trans <| fresh.clockedIn.clockIn_clockIn_fill one <| by
      rwa [List.nil_append, List.drop_left' frame]
    have one_u : u.secondFrame = false := second_u.trans <| clocked_r.clockIn_clockIn_fill one_r <| by
      rw [List.append_assoc, List.append_assoc, List.drop_left' frame]
      exact List.forall_mem_append.2 ⟨received, List.forall_mem_append.2 ⟨fill, received⟩⟩
    exact ⟨_, execEndTxn_after_read startable_u clocked_u.selected address one_u, ee_u.trans ee_r, wel_u.trans wel_r⟩

/-- Settles O50: an idle block has no command for the reset to cut off. -/
theorem blockResetChangesNothingInTheDevice : Obligations.BlockResetChangesNothingInTheDevice := by
  intro s cfg rest hp idle
  exact ⟨_, step_serves hp rfl, rfl, rfl, rfl, rfl, resetBlock_ee_of_idle (s := s.setPending rest) cfg idle, rfl, rfl, rfl, rfl, rfl, rfl, rfl,
    rfl, rfl⟩

end
